-- ==== Sys2Proof/Word.lean ====
section
/-! DEFINITION. The core's unit of data: the byte (20_memory.md R44). -/

namespace Sys2Proof

/-- One byte: every access of the core is one byte wide (R44). -/
abbrev Byte := BitVec 8

end Sys2Proof
end

