-- ==== Sys2Proof/Syntax.lean ====
section
/-! DEFINITION. The instructions: one constructor per row of spec/opcode_table.json. -/

namespace Sys2Proof

/-- An instruction of the core. `lit` and `rep` are the two tokens of the encoded stream, which the RLE decoder
executes (30_encoding.md R63); their operand is the token's length, the one immediate of the format (R67), and
the payload that follows the control byte is read by the token's meaning (40_rle_decoder.md R81, R82). The others
are the commands whose 4-bit opcode the host writes to CMD (30_encoding.md R66); they have no operands. -/
inductive Instr where
  | lit (length : Nat)
  | rep (length : Nat)
  | nop
  | hdrRd
  | hdrWr
  | rleDec
  | rleEnc
  | pack
  | unpack
  | runFind
  | decodeImage
  | encodeImage
  | reservedA
  | reservedB
  | reservedC
  | reservedD
  | reservedE
  | reset
  deriving DecidableEq, Repr

end Sys2Proof
end

