-- ==== Sys2Proof/WellFormed.lean ====
section
/-! DEFINITION. Which instructions the encodings can express. -/

namespace Sys2Proof

/-- A literal token holds 1 to 128 raw bytes, a repeat token stands for 3 to 130 copies (30_encoding.md R63, R72);
a command has no operand to check. -/
def WellFormed : Instr → Bool
  | .lit n => decide (1 ≤ n ∧ n ≤ 128)
  | .rep n => decide (3 ≤ n ∧ n ≤ 130)
  | .nop => true
  | .hdrRd => true
  | .hdrWr => true
  | .rleDec => true
  | .rleEnc => true
  | .pack => true
  | .unpack => true
  | .runFind => true
  | .decodeImage => true
  | .encodeImage => true
  | .reservedA => true
  | .reservedB => true
  | .reservedC => true
  | .reservedD => true
  | .reservedE => true
  | .reset => true

end Sys2Proof
end

