-- ==== Sys2Proof/Decode.lean ====
section
/-! DEFINITION. The two encodings of the core, decoder and encoder: the RLE tokens of the stream and the command
opcodes of CMD (30_encoding.md). They are separate spaces: the byte 0x01 is a literal token of length 2 in STR and
the opcode of HDR_RD in CMD. -/

namespace Sys2Proof

/-- Which of the two encodings a byte is read in: opcode_table.json's column "space". -/
inductive EncSpace where
  | token
  | command
  deriving DecidableEq, Repr

/-- Why a byte sequence holds no instruction (or, for `decodeToken?`, no whole token). No byte value is itself
reserved (R69), and the reserved opcodes 0xA to 0xE are instructions with an effect (R71). -/
inductive DecodeError where
  /-- Not even the control byte is there. -/
  | noControlByte
  /-- Nothing was written to CMD. -/
  | noOpcode
  /-- Fewer payload bytes follow the control byte than the token needs. -/
  | payloadTruncated
  deriving DecidableEq, Repr

/-! ### Tokens -/

/-- Bit 7 of the control byte selects the shape: 1 is a repeat token (R63, R83). -/
def isRepeat (code : Byte) : Bool :=
  (code &&& 0x80#8) != 0#8

/-- Length decode (R67): `(code & 0x7F) + 3` for a repeat token, `code + 1` for a literal one; no wrap. -/
def tokenLength (code : Byte) : Nat :=
  if isRepeat code then (code &&& 0x7F#8).toNat + 3 else code.toNat + 1

/-- The token a control byte begins (R63). Total: the 256 values are exactly the 128 literal and the 128 repeat
lengths (R69). -/
def decodeToken (code : Byte) : Instr :=
  if isRepeat code then .rep (tokenLength code) else .lit (tokenLength code)

/-- How many payload bytes follow a token's control byte: its raw bytes, or one value byte (R63, R68). -/
def payloadSize : Instr → Nat
  | .lit n => n
  | .rep _ => 1
  | .nop => 0
  | .hdrRd => 0
  | .hdrWr => 0
  | .rleDec => 0
  | .rleEnc => 0
  | .pack => 0
  | .unpack => 0
  | .runFind => 0
  | .decodeImage => 0
  | .encodeImage => 0
  | .reservedA => 0
  | .reservedB => 0
  | .reservedC => 0
  | .reservedD => 0
  | .reservedE => 0
  | .reset => 0

/-- A whole token from a byte sequence: the instruction, its payload, and what is left (R41, R68). -/
def decodeToken? : List Byte → Except DecodeError (Instr × List Byte × List Byte)
  | [] => .error .noControlByte
  | code :: rest =>
    let i := decodeToken code
    if payloadSize i ≤ rest.length then .ok (i, rest.take (payloadSize i), rest.drop (payloadSize i))
    else .error .payloadTruncated

/-! ### Commands -/

/-- The command a value written to CMD starts: the opcode is its low four bits, the bits above are ignored
(10_state.md R23, 30_encoding.md R66). -/
def decodeCommand (v : Nat) : Instr :=
  match v % 16 with
  | 0 => .nop
  | 1 => .hdrRd
  | 2 => .hdrWr
  | 3 => .rleDec
  | 4 => .rleEnc
  | 5 => .pack
  | 6 => .unpack
  | 7 => .runFind
  | 8 => .decodeImage
  | 9 => .encodeImage
  | 10 => .reservedA
  | 11 => .reservedB
  | 12 => .reservedC
  | 13 => .reservedD
  | 14 => .reservedE
  | _ => .reset

/-- One instruction from a byte sequence in either space, with the bytes after its first. -/
def decode : EncSpace → List Byte → Except DecodeError (Instr × List Byte)
  | .token, [] => .error .noControlByte
  | .token, code :: rest => .ok (decodeToken code, rest)
  | .command, [] => .error .noOpcode
  | .command, v :: rest => .ok (decodeCommand v.toNat, rest)

/-! ### The encoder -/

/-- The space an instruction is encoded in. -/
def encSpace : Instr → EncSpace
  | .lit _ => .token
  | .rep _ => .token
  | .nop => .command
  | .hdrRd => .command
  | .hdrWr => .command
  | .rleDec => .command
  | .rleEnc => .command
  | .pack => .command
  | .unpack => .command
  | .runFind => .command
  | .decodeImage => .command
  | .encodeImage => .command
  | .reservedA => .command
  | .reservedB => .command
  | .reservedC => .command
  | .reservedD => .command
  | .reservedE => .command
  | .reset => .command

/-- The one byte that encodes an instruction: a token's control byte (length encode, R67) or a command's opcode
(R66). -/
def encodeByte : Instr → Byte
  | .lit n => BitVec.ofNat 8 (n - 1)
  | .rep n => BitVec.ofNat 8 ((n - 3) + 0x80)
  | .nop => 0x0#8
  | .hdrRd => 0x1#8
  | .hdrWr => 0x2#8
  | .rleDec => 0x3#8
  | .rleEnc => 0x4#8
  | .pack => 0x5#8
  | .unpack => 0x6#8
  | .runFind => 0x7#8
  | .decodeImage => 0x8#8
  | .encodeImage => 0x9#8
  | .reservedA => 0xA#8
  | .reservedB => 0xB#8
  | .reservedC => 0xC#8
  | .reservedD => 0xD#8
  | .reservedE => 0xE#8
  | .reset => 0xF#8

/-- The words of an instruction, payload apart. -/
def encode (i : Instr) : List Byte :=
  [encodeByte i]

/-! ### The written notation (R72, R73): bytes of whole tokens, of spans and of the header -/

/-- `LIT b0 ... bk` (R72). -/
def litBytes (raw : List Byte) : List Byte :=
  encodeByte (.lit raw.length) :: raw

/-- `REP n, v` (R72). -/
def repBytes (n : Nat) (v : Byte) : List Byte :=
  [encodeByte (.rep n), v]

/-- `HDR w, h`: the 4 header bytes of true width `w` and height `h`, each field the dimension less one, little-endian
(R61, R72). -/
def headerBytes (w h : Nat) : List Byte :=
  [BitVec.ofNat 8 (w - 1), BitVec.ofNat 8 ((w - 1) / 256), BitVec.ofNat 8 (h - 1), BitVec.ofNat 8 ((h - 1) / 256)]

/-! ### The opcode table's rows -/

/-- Which space a row of opcode_table.json of `nbits` bits (in whole bytes) and bits `w` is read in.
DESIGN CHOICE (log entry 9): a row of fewer than 8 bits is an opcode. The table gives a token 8 bits and an opcode 4,
which in whole bytes are 8 too, so at 8 bits the spaces overlap and the word alone must tell: 1 to 15 is read as an
opcode, every other value as a control byte. The machine itself never asks: it reads CMD values as opcodes and STR
bytes as control bytes. -/
def tableSpace (nbits w : Nat) : EncSpace :=
  if nbits < 8 then .command
  else if 1 ≤ w ∧ w < 16 then .command
  else .token

/-- The instruction the decoder reads from a table row's bits. -/
def decodeTableWord (nbits w : Nat) : Option Instr :=
  match decode (tableSpace nbits w) [BitVec.ofNat 8 w] with
  | .ok (i, _) => some i
  | .error _ => none

end Sys2Proof
end

