-- ==== Sys2Proof/Config.lean ====
section
/-! DEFINITION. What an implementation of the core fixes: its three memory spaces and their capacities.
The core draws no free value (00_scope.md R6), so there is no opaque constant here. -/

namespace Sys2Proof

/-- The three byte memories: STR (encoded stream), PKD (packed image), PIX (one byte per pixel).
They are disjoint (20_memory.md R47). -/
inductive Space where
  | str
  | pkd
  | pix
  deriving DecidableEq, Repr

/-- The capacities STR_CAP, PKD_CAP, PIX_CAP, in bytes (00_scope.md R8).
DESIGN CHOICE (log entry 1): State carries them as constants that no step writes, so every statement over all
states is a statement for every choice of the parameters. -/
structure Caps where
  str : Nat
  pkd : Nat
  pix : Nat
  deriving DecidableEq, Repr

/-- The capacity of one space. -/
def Caps.of (c : Caps) : Space → Nat
  | .str => c.str
  | .pkd => c.pkd
  | .pix => c.pix

/-- The constraints of R8's table. -/
abbrev Caps.legal (c : Caps) : Prop :=
  4 ≤ c.str ∧ c.str < 2 ^ 33 ∧ 1 ≤ c.pkd ∧ c.pkd ≤ 2 ^ 31 ∧ 1 ≤ c.pix ∧ c.pix ≤ 2 ^ 32

/-- R8's "full-range values": the smallest at which no legal image is refused for capacity. -/
def Caps.fullRange : Caps where
  str := 2 ^ 32 + 4
  pkd := 2 ^ 31
  pix := 2 ^ 32

end Sys2Proof
end

