-- ==== Sys2Proof/Machine/State.lean ====
section
/-! DEFINITION. The state of the core as plain data (10_state.md R11), the reasons a step can stop, and the state after
reset (R35). -/

namespace Sys2Proof.Machine

/-- The contents of one byte memory: the bytes that differ from what an unlisted address reads as, by rising address.
Its canonical form is `Memory.wf` (Machine/Ops.lean). -/
abbrev Memory := List Host.Cell

/-- What the host may do between commands (10_state.md R10, R13, R29; 70_reset_and_hazards.md R185, R197). -/
inductive HostAction where
  /-- `HostRegRead(i)` (R13). -/
  | regRead (index : Nat)
  /-- `HostRegWrite(i, v)` (R13, R28); index 0 is CMD, whose write starts a command (R23). -/
  | regWrite (index value : Nat)
  /-- `HostMemRead(S, a)` (R29, R30, R32). -/
  | memRead (space : Space) (addr : Nat)
  /-- `HostMemWrite(S, a, v)` (R29, R30, R32). -/
  | memWrite (space : Space) (addr : Nat) (value : Byte)
  /-- Hardware reset, applied between commands (70_reset_and_hazards.md R185, 93 U14). -/
  | hardReset
  deriving DecidableEq, Repr

/-- Why the model stops. The core's own faults (60_exceptions.md) are not here: they are recorded in FAULT and STATUS
and give a next state (R170). -/
inductive Fault where
  /-- An access to an address at or above the capacity of a space: the address does not exist (10_state.md R29, R30, R32).
  Raised by a host memory access outside the space, and by a token run on its own (not inside RLE_DEC) in a state where
  its payload or its line lies outside STR or PKD; no command raises it (20_memory.md R48). Safe: the model stops where
  the spec gives no effect. -/
  | noSuchAddress (space : Space)
  deriving DecidableEq, Repr

/-- Why the model gives no meaning. -/
inductive Refusal where
  /-- An instruction without a meaning, by its mnemonic. Raised by exec's arms alone, and by none of them now. Safe. -/
  | notModelled (mnemonic : String)
  deriving DecidableEq, Repr

/-- The state of the core. The first eleven fields are the host-visible registers of 10_state.md R13 (CMD, the twelfth,
holds no state: R23); `code`, `len`, `val` are the internal token registers of R26; then the three memories (R29, R30,
R32). `caps` are the implementation's parameters, which no step writes (R34; log entry 1). `host` and `readBack` are the
MODEL's: the actions the host is still to perform, oldest first, and the values its reads have returned, newest first
(log entries 5 and 6). -/
structure State where
  status   : BitVec 2
  fault    : BitVec 12
  ctrl     : BitVec 1
  width    : BitVec 17
  height   : BitVec 17
  strLen   : BitVec 33
  strPos   : BitVec 33
  row      : BitVec 17
  col      : BitVec 16
  rfLen    : BitVec 16
  rfPos    : BitVec 16
  code     : BitVec 8
  len      : BitVec 8
  val      : BitVec 8
  str      : Memory
  pkd      : Memory
  pix      : Memory
  caps     : Caps
  host     : List HostAction
  readBack : List Nat
  deriving DecidableEq, Repr

/-- The machine right after reset (10_state.md R35, 70_reset_and_hazards.md R185, R186): every host-visible register 0
and no command executing. DESIGN CHOICE, the spec gives none: CODE, LEN, VAL are 0 (log entry 3); the memories list
nothing (log entry 2); the capacities are the full-range values (log entry 1); the host has nothing to do and has read
nothing (log entries 5, 6). -/
def State.reset : State where
  status := 0
  fault := 0
  ctrl := 0
  width := 0
  height := 0
  strLen := 0
  strPos := 0
  row := 0
  col := 0
  rfLen := 0
  rfPos := 0
  code := 0
  len := 0
  val := 0
  str := []
  pkd := []
  pix := []
  caps := Caps.fullRange
  host := []
  readBack := []

/-- What a step of this machine answers. -/
abbrev Outcome := Host.Outcome State Fault Refusal

end Sys2Proof.Machine
end

