-- ==== Sys2Proof/Machine/Flags.lean ====
section
/-! DEFINITION. The fields of STATUS, FAULT and CTRL (10_state.md R19, R24, R25) and the fault codes
(60_exceptions.md R160). -/

namespace Sys2Proof.Machine

/-! ### STATUS -/

/-- STATE = IDLE (R24). -/
def stIdle : BitVec 2 := 0#2

/-- STATE = DONE (R24). -/
def stDone : BitVec 2 := 1#2

/-- STATE = FAULTED (R24). -/
def stFaulted : BitVec 2 := 2#2

/-- STATUS.STATE = FAULTED: a fault has been recorded and not yet reset away (R24, R172). -/
abbrev State.faulted (s : State) : Prop :=
  s.status = stFaulted

/-! ### FAULT -/

/-- The core's faults, the rows 1 to 6 of R160's table. -/
inductive FaultCode where
  | unexpectedEof
  | corruptStream
  | dimensionOverflow
  | unsupportedPixelWidth
  | streamOverflow
  | illegalCommand
  deriving DecidableEq, Repr

/-- The number of a fault as FAULT.CODE holds it (R160). -/
def faultNumber : FaultCode → Nat
  | .unexpectedEof => 1
  | .corruptStream => 2
  | .dimensionOverflow => 3
  | .unsupportedPixelWidth => 4
  | .streamOverflow => 5
  | .illegalCommand => 6

/-- The FAULT register for a fault: STAGE in bits 11:8, SUB in bits 7:4, CODE in bits 3:0 (R25). -/
def faultWord (f : FaultCode) (sub stage : Nat) : BitVec 12 :=
  BitVec.ofNat 4 stage ++ BitVec.ofNat 4 sub ++ BitVec.ofNat 4 (faultNumber f)

/-- FAULT.CODE (R25). -/
def State.faultCode (s : State) : Nat :=
  (s.fault.extractLsb' 0 4).toNat

/-- FAULT.SUB (R25). -/
def State.faultSub (s : State) : Nat :=
  (s.fault.extractLsb' 4 4).toNat

/-- FAULT.STAGE (R25). -/
def State.faultStage (s : State) : Nat :=
  (s.fault.extractLsb' 8 4).toNat

/-! ### CTRL -/

/-- CTRL.ROW_ORDER: true when PIX holds the top-most displayed row first (R19). -/
def State.topDown (s : State) : Bool :=
  s.ctrl == 1#1

end Sys2Proof.Machine
end

