-- ==== Sys2Proof/Machine/Ops.lean ====
section
/-! DEFINITION. The named operations over memory and registers, raising a fault, ending a command, reset, and the
start checks of a command. -/

namespace Sys2Proof.Machine

/-! ### Memory (20_memory.md) -/

/-- What an address that no entry lists reads as. DESIGN CHOICE (log entry 2): 0x00; the spec leaves the contents after
power-up unspecified (10_state.md R35). -/
def Memory.unlisted : Byte := 0x00#8

/-- The canonical form: addresses strictly rising, and no entry equal to what an unlisted address reads as. -/
abbrev Memory.wf (m : Memory) : Prop :=
  m.Pairwise (fun x y => x.1 < y.1) ∧ ∀ c ∈ m, c.2 ≠ Memory.unlisted

/-- Every listed address exists in a space of `cap` bytes (10_state.md R29, R30, R32). -/
abbrev Memory.below (m : Memory) (cap : Nat) : Prop :=
  ∀ c ∈ m, c.1 < cap

/-- `MemRead(S, a, 1)` (R44): reading changes nothing (R45). -/
def Memory.read : Memory → Nat → Byte
  | [], _ => Memory.unlisted
  | (k, v) :: m, a => if k = a then v else Memory.read m a

/-- The memory without an entry at `a`. -/
def Memory.erase : Memory → Nat → Memory
  | [], _ => []
  | (k, v) :: m, a => if k = a then Memory.erase m a else (k, v) :: Memory.erase m a

/-- Put an entry at its place by address. -/
def Memory.place : Memory → Nat → Byte → Memory
  | [], a, b => [(a, b)]
  | (k, v) :: m, a, b => if a < k then (a, b) :: (k, v) :: m else (k, v) :: Memory.place m a b

/-- `MemWrite(S, a, 1, v)` (R44). -/
def Memory.write (m : Memory) (a : Nat) (b : Byte) : Memory :=
  if b = Memory.unlisted then Memory.erase m a else Memory.place (Memory.erase m a) a b

/-- `for k in 0 .. n-1: S[a + k] <- f k`, in increasing address order. -/
def Memory.fill (m : Memory) (a : Nat) : Nat → (Nat → Byte) → Memory
  | 0, _ => m
  | n + 1, f => Memory.write (Memory.fill m a n f) (a + n) (f n)

/-- The `n` bytes from address `a` on. -/
def Memory.slice (m : Memory) (a n : Nat) : List Byte :=
  (List.range n).map (fun k => Memory.read m (a + k))

/-- `MemRead(S, a, 2)`: a little-endian 16-bit field, `S[a] | (S[a+1] << 8)` (R40). -/
def Memory.read16 (m : Memory) (a : Nat) : BitVec 16 :=
  Memory.read m (a + 1) ++ Memory.read m a

/-- A 16-bit write, `S[a] <- v & 0xFF; S[a+1] <- (v >> 8) & 0xFF` (R40). -/
def Memory.write16 (m : Memory) (a : Nat) (v : Nat) : Memory :=
  Memory.write (Memory.write m a (BitVec.ofNat 8 v)) (a + 1) (BitVec.ofNat 8 (v >>> 8))

/-- The memory of one space; the three are disjoint (R47). -/
def State.mem (s : State) : Space → Memory
  | .str => s.str
  | .pkd => s.pkd
  | .pix => s.pix

/-- `s` with the memory of one space replaced. -/
def State.setMem (s : State) (sp : Space) (m : Memory) : State :=
  match sp with
  | .str => { s with str := m }
  | .pkd => { s with pkd := m }
  | .pix => { s with pix := m }

/-- Go on only if every address below `bound` that is about to be used exists in the space; else stop by name. -/
def checked (sp : Space) (bound : Nat) (s : State) (k : Outcome) : Outcome :=
  if bound ≤ s.caps.of sp then k else .fault (.noSuchAddress sp)

/-! ### Registers as numbers (00_scope.md R9 and the notation of section 5) -/

/-- `W`, the value of WIDTH (R9). -/
def State.w (s : State) : Nat := s.width.toNat

/-- `H`, the value of HEIGHT (R9). -/
def State.h (s : State) : Nat := s.height.toNat

/-- `PW = ceil(W/2) = (W + 1) >> 1`, the packed width (R9). -/
def State.pw (s : State) : Nat := (s.w + 1) >>> 1

/-- STR_LEN as a number. -/
def State.slen (s : State) : Nat := s.strLen.toNat

/-- STR_POS as a number. -/
def State.pos (s : State) : Nat := s.strPos.toNat

/-- ROW as a number. -/
def State.r (s : State) : Nat := s.row.toNat

/-- COL as a number. -/
def State.c (s : State) : Nat := s.col.toNat

/-! ### Faults, completion, reset -/

/-- `raise F(sub)` by the primitive command with opcode `op` (60_exceptions.md R170): the one way a fault is taken.
FAULT records code, sub-code and stage, STATUS.STATE becomes FAULTED, and nothing else changes; control goes nowhere. -/
def raise (f : FaultCode) (sub op : Nat) (s : State) : State :=
  { s with fault := faultWord f sub op, status := stFaulted }

/-- `STATUS.STATE <- DONE`: completion without fault (10_state.md R24). -/
def finish (s : State) : State :=
  { s with status := stDone }

/-- Every register to its reset value, memories untouched: the effect of RESET and of hardware reset
(44_scanline_buffer_controller.md R146, 70_reset_and_hazards.md R185). It is the only way out of FAULTED (60 R172):
a fault has no return. CODE, LEN and VAL, whose reset value the spec leaves open, become 0 (DESIGN CHOICE, log entry 3). -/
def resetRegisters (s : State) : State :=
  { State.reset with
    str := s.str, pkd := s.pkd, pix := s.pix, caps := s.caps, host := s.host, readBack := s.readBack }

/-! ### Start checks (60_exceptions.md R168) -/

/-- One start check: when it fails, the fault and sub-code it raises. -/
structure Check where
  fails : Bool
  code : FaultCode
  sub : Nat
  deriving DecidableEq, Repr

/-- The first check that fails is the one reported (R168). -/
def firstFailure : List Check → Option Check
  | [] => none
  | k :: ks => if k.fails then some k else firstFailure ks

/-- Check (3): WIDTH and HEIGHT in 1 to 65536, else `DimensionOverflow(0)` (R164). -/
def dimsCheck (s : State) : Check where
  fails := decide (s.w < 1 ∨ s.w > 65536 ∨ s.h < 1 ∨ s.h > 65536)
  code := .dimensionOverflow
  sub := 0

/-- Check (4): the packed image fits PKD, else `DimensionOverflow(1)` (R164). -/
def pkdCheck (s : State) : Check where
  fails := decide (s.pw * s.h > s.caps.pkd)
  code := .dimensionOverflow
  sub := 1

/-- Check (5): the pixel image fits PIX, else `DimensionOverflow(2)` (R164). -/
def pixCheck (s : State) : Check where
  fails := decide (s.w * s.h > s.caps.pix)
  code := .dimensionOverflow
  sub := 2

/-- Check (6): the width is even, else `UnsupportedPixelWidth(0)` (R165). -/
def evenCheck (s : State) : Check where
  fails := decide (s.w % 2 = 1)
  code := .unsupportedPixelWidth
  sub := 0

/-- Check (7): an argument register out of its range, `IllegalCommand(1)` (R167). -/
def argCheck (bad : Bool) : Check where
  fails := bad
  code := .illegalCommand
  sub := 1

/-- A primitive command with opcode `op`: ignored while FAULTED (R172); else its start checks in order, then its body. -/
def command (op : Nat) (checks : State → List Check) (body : State → State) (s : State) : State :=
  if s.faulted then s
  else
    match firstFailure (checks s) with
    | some k => raise k.code k.sub op s
    | none => body s

end Sys2Proof.Machine
end

