-- ==== Sys2Proof/Machine/Operands.lean ====
section
/-! DEFINITION. The operand forms: the scanline window, the pixel address, the packed byte. -/

namespace Sys2Proof.Machine

/-- The PKD address of packed byte `c` of storage row `r` (44_scanline_buffer_controller.md R138). -/
def State.packedAddr (s : State) (r c : Nat) : Nat :=
  r * s.pw + c

/-- The PKD address of `Line[c]`: column `c` of storage row ROW (10_state.md R31). -/
def State.lineAddr (s : State) (c : Nat) : Nat :=
  s.packedAddr s.r c

/-- `Line[c]` (R31). -/
def State.line (s : State) (c : Nat) : Byte :=
  Memory.read s.pkd (s.lineAddr c)

/-- `Line[c .. c + n - 1]`. -/
def State.lineSlice (s : State) (c n : Nat) : List Byte :=
  Memory.slice s.pkd (s.lineAddr c) n

/-- The external row that holds storage row `r`: the same row when PIX is bottom-up, H - 1 - r when it is top-down
(44_scanline_buffer_controller.md R140). -/
def State.extRow (s : State) (r : Nat) : Nat :=
  if s.topDown then s.h - 1 - r else r

/-- `PixAddr(r, x)`: the PIX address of pixel `x` of storage row `r` (R140). -/
def State.pixAddr (s : State) (r x : Nat) : Nat :=
  s.extRow r * s.w + x

/-- `pack2(left, right) = ((left << 4) | (right & 0x0F)) & 0xFF` (43_nibble_packer.md R125, R129). -/
def pack2 (left right : Byte) : Byte :=
  (left <<< 4) ||| (right &&& 0x0F#8)

/-- The left result of `unpack2`, `(packed >> 4) & 0x0F` (R125). -/
def unpackLeft (packed : Byte) : Byte :=
  (packed >>> 4) &&& 0x0F#8

/-- The right result of `unpack2`, `packed & 0x0F` (R125). -/
def unpackRight (packed : Byte) : Byte :=
  packed &&& 0x0F#8

end Sys2Proof.Machine
end

