-- ==== Sys2Proof/Machine/Decoder.lean ====
section
/-! DEFINITION. The RLE decoder: the tokens LIT and REP and the command RLE_DEC (40_rle_decoder.md). -/

namespace Sys2Proof.Machine

/-- Row advance: when COL has reached PW, the next row starts at column 0 (R84). -/
def rowAdvance (s : State) : State :=
  if s.c = s.pw then { s with row := BitVec.ofNat 17 (s.r + 1), col := 0 } else s

/-! ### The tokens -/

/-- The body of LIT once its length is legal: the raw bytes go to the line, the cursors move, the row advances (R81). -/
def litEmit (n : Nat) (s : State) : State :=
  rowAdvance
    { s with
      pkd := Memory.fill s.pkd (s.lineAddr s.c) n (fun k => Memory.read s.str (s.pos + 1 + k))
      strPos := BitVec.ofNat 33 (s.pos + 1 + n)
      col := BitVec.ofNat 16 (s.c + n) }

/-- LIT of length `n` at the control byte STR_POS points to (R81): the row overrun is found before the missing payload
(R86), and a faulting token writes nothing (R88). -/
def litToken (n : Nat) (s0 : State) : State :=
  let s := { s0 with len := BitVec.ofNat 8 n }
  if n > s.pw - s.c then raise .corruptStream 0 0x3 s
  else if s.pos + 1 + n > s.slen then raise .unexpectedEof 0 0x3 s
  else litEmit n s

/-- The body of REP once its length is legal (R82). -/
def repEmit (n : Nat) (s : State) : State :=
  rowAdvance
    { s with
      pkd := Memory.fill s.pkd (s.lineAddr s.c) n (fun _ => s.val)
      strPos := BitVec.ofNat 33 (s.pos + 2)
      col := BitVec.ofNat 16 (s.c + n) }

/-- REP of length `n` (R82): the missing value byte is found before the row overrun (R86). -/
def repToken (n : Nat) (s0 : State) : State :=
  let s := { s0 with len := BitVec.ofNat 8 n }
  if s.pos + 2 > s.slen then raise .unexpectedEof 0 0x3 s
  else
    let s := { s with val := Memory.read s.str (s.pos + 1) }
    if n > s.pw - s.c then raise .corruptStream 0 0x3 s
    else repEmit n s

/-- The meaning of LIT: the decoder's micro-step at a control byte already fetched into CODE (R81). RLE_DEC runs it with
its start checks made, so every address exists there; run on its own it stops by name where one does not (log entry 8).
While FAULTED nothing executes (60_exceptions.md R172). -/
def execLit (n : Nat) (s : State) : Outcome :=
  if s.faulted then .next s
  else if n > s.pw - s.c ∨ s.pos + 1 + n > s.slen then .next (litToken n s)
  else checked .str (s.pos + 1 + n) s (checked .pkd (s.lineAddr s.c + n) s (.next (litToken n s)))

/-- The meaning of REP, as LIT's (R82). -/
def execRep (n : Nat) (s : State) : Outcome :=
  if s.faulted then .next s
  else if s.pos + 2 > s.slen then .next (repToken n s)
  else
    checked .str (s.pos + 2) s
      (if n > s.pw - s.c then .next (repToken n s)
       else checked .pkd (s.lineAddr s.c + n) s (.next (repToken n s)))

/-! ### The command -/

/-- Fetch the control byte into CODE (R83). -/
def fetchControl (s : State) : State :=
  { s with code := Memory.read s.str s.pos }

/-- Execute the token whose control byte is in CODE: REP when bit 7 is set, else LIT (R83). -/
def runToken (s : State) : State :=
  if isRepeat s.code then repToken (tokenLength s.code) s else litToken (tokenLength s.code) s

/-- The loop of R80, at most `fuel` tokens: until the stream is exhausted at a token boundary, a token faults, or data is
left after the last row (`CorruptStream(1)`, R85). -/
def decodeLoop : Nat → State → State
  | 0, s => s
  | fuel + 1, s =>
    if s.faulted ∨ s.pos = s.slen then s
    else if s.r = s.h then raise .corruptStream 1 0x3 s
    else decodeLoop fuel (runToken (fetchControl s))

/-- The end of R80: the stream is exhausted, and every row must be there (R85). -/
def decodeEnd (s : State) : State :=
  if s.faulted then s
  else if s.r ≠ s.h then raise .corruptStream 1 0x3 s
  else finish s

/-- The body of RLE_DEC (R80). Each token takes at least two bytes of the stream (R92), so `STR_LEN - STR_POS` tokens
are more than any run executes (log entry 13). -/
def rleDecBody (s : State) : State :=
  decodeEnd (decodeLoop (s.slen - s.pos + 1) { s with row := 0, col := 0 })

/-- RLE_DEC, opcode 0x3 (R80). -/
def rleDecCmd : State → State :=
  command 0x3 (fun s => [dimsCheck s, pkdCheck s, argCheck (decide (s.slen > s.caps.str ∨ s.pos > s.slen))]) rleDecBody

/-- The meaning of RLE_DEC. -/
def execRleDec (s : State) : Outcome :=
  .next (rleDecCmd s)

end Sys2Proof.Machine
end

