-- ==== Sys2Proof/Machine/RunFinder.lean ====
section
/-! DEFINITION. The run finder: the function RunFind and the command RUNFIND (42_run_finder.md). -/

namespace Sys2Proof.Machine

/-- The scan of R115 after its first byte: `cur` is `s[start]`, the candidate run is `s[start .. start+cnt-1]`, and the
list is what follows it. A broken streak of 3 or more is returned at once; a shorter one joins the literal region; at the
end an open streak of 3 or more is returned, else `(0, n)`. -/
def runScan (cur : Byte) (start cnt : Nat) : List Byte → Nat × Nat
  | [] => if 3 ≤ cnt then (cnt, start) else (0, start + cnt)
  | b :: bs =>
    if b = cur then runScan cur start (cnt + 1) bs
    else if 3 ≤ cnt then (cnt, start)
    else runScan b (start + cnt) 1 bs

/-- `RunFind(s, n)` = `(run_length, run_start_offset)` (R115, R116); the empty slice gives (0, 0) (R119). -/
def runFind : List Byte → Nat × Nat
  | [] => (0, 0)
  | b :: bs => runScan b 0 1 bs

/-- `(RF_LEN, RF_POS) <- RunFind(Line[c .. PW-1], PW - c)` (R117, 41_rle_encoder.md R101). -/
def findRun (c : Nat) (s : State) : State :=
  let r := runFind (s.lineSlice c (s.pw - c))
  { s with rfLen := BitVec.ofNat 16 r.1, rfPos := BitVec.ofNat 16 r.2 }

/-- RUNFIND, opcode 0x7 (R117). -/
def runFindCmd : State → State :=
  command 0x7 (fun s => [dimsCheck s, pkdCheck s, argCheck (decide (s.r ≥ s.h ∨ s.c > s.pw))])
    (fun s => finish (findRun s.c s))

/-- The meaning of RUNFIND. -/
def execRunFind (s : State) : Outcome :=
  .next (runFindCmd s)

end Sys2Proof.Machine
end

