-- ==== Sys2Proof/Machine/Encoder.lean ====
section
/-! DEFINITION. The RLE encoder: the command RLE_ENC with the expansions LITSPAN and REPSPAN (41_rle_encoder.md). -/

namespace Sys2Proof.Machine

/-- `EmitLIT(p, k)`: the token of the `k` bytes `Line[p .. p+k-1]`, whole or not at all (R105). -/
def emitLit (p k : Nat) (s : State) : State :=
  if s.pos + 1 + k > s.caps.str then raise .streamOverflow 0 0x4 s
  else
    { s with
      str := Memory.fill (Memory.write s.str s.pos (encodeByte (.lit k))) (s.pos + 1) k (fun j => s.line (p + j))
      strPos := BitVec.ofNat 33 (s.pos + 1 + k) }

/-- `EmitREP(k, v)` (R105). -/
def emitRep (k : Nat) (v : Byte) (s : State) : State :=
  if s.pos + 2 > s.caps.str then raise .streamOverflow 0 0x4 s
  else
    { s with
      str := Memory.write (Memory.write s.str s.pos (encodeByte (.rep k))) (s.pos + 1) v
      strPos := BitVec.ofNat 33 (s.pos + 2) }

/-- LITSPAN (R102): the bytes `Line[p .. p + rem - 1]` in literal tokens of 128, the last with the rest. `fuel` bounds the
tokens; a fault ends the span. -/
def litSpan : Nat → Nat → Nat → State → State
  | 0, _, _, s => s
  | fuel + 1, p, rem, s =>
    if s.faulted ∨ rem = 0 then s
    else litSpan fuel (p + min rem 128) (rem - min rem 128) (emitLit p (min rem 128) s)

/-- REPSPAN (R103): `rem` copies of `v`, at `Line[q ..]`, in repeat tokens of 130, the last with the rest; a rest of 1 or 2
is a literal token. -/
def repSpan : Nat → Nat → Nat → Byte → State → State
  | 0, _, _, _, s => s
  | fuel + 1, q, rem, v, s =>
    if s.faulted ∨ rem = 0 then s
    else
      repSpan fuel (q + min rem 130) (rem - min rem 130) v
        (if 3 ≤ min rem 130 then emitRep (min rem 130) v s else emitLit q (min rem 130) s)

/-- Steps 2 and 3 of EncodeRow (R101), the run finder's result in RF_POS and RF_LEN: the literals before the run, then the
run. -/
def encodeSpans (s : State) : State :=
  repSpan s.rfLen.toNat (s.c + s.rfPos.toNat) s.rfLen.toNat (s.line (s.c + s.rfPos.toNat))
    (litSpan s.rfPos.toNat s.c s.rfPos.toNat s)

/-- One iteration of EncodeRow (R101): find the next run in the rest of the row, emit the literals before it, emit the
run, and move COL past both (R104). On a fault COL keeps the column the iteration began at (R109). -/
def encodeStep (s0 : State) : State :=
  let s := encodeSpans (findRun s0.c s0)
  if s.faulted then s else { s with col := BitVec.ofNat 16 (s.c + s.rfPos.toNat + s.rfLen.toNat) }

/-- The loop of EncodeRow (R101); every iteration encodes at least one byte, so `fuel` = PW is enough (R112). -/
def encodeCols : Nat → State → State
  | 0, s => s
  | fuel + 1, s => if s.faulted ∨ s.c ≥ s.pw then s else encodeCols fuel (encodeStep s)

/-- `ROW <- ROW + 1 ; COL <- 0` (R101, R104). -/
def nextRow (s : State) : State :=
  if s.faulted then s else { s with row := BitVec.ofNat 17 (s.r + 1), col := 0 }

/-- EncodeRow (R101). -/
def encodeRow (s : State) : State :=
  nextRow (encodeCols s.pw s)

/-- The row loop of R100. -/
def encodeRows : Nat → State → State
  | 0, s => s
  | fuel + 1, s => if s.faulted ∨ s.r ≥ s.h then s else encodeRows fuel (encodeRow s)

/-- The end of R100: STR_LEN takes the end of the stream on success only (R108, R109). -/
def encodeEnd (s : State) : State :=
  if s.faulted then s else finish { s with strLen := s.strPos }

/-- The body of RLE_ENC (R100). -/
def rleEncBody (s : State) : State :=
  encodeEnd (encodeRows s.h { s with row := 0, col := 0 })

/-- RLE_ENC, opcode 0x4 (R100). -/
def rleEncCmd : State → State :=
  command 0x4 (fun s => [dimsCheck s, pkdCheck s, argCheck (decide (s.pos > s.caps.str))]) rleEncBody

/-- The meaning of RLE_ENC. -/
def execRleEnc (s : State) : Outcome :=
  .next (rleEncCmd s)

end Sys2Proof.Machine
end

