-- ==== Sys2Proof/Machine/Packer.lean ====
section
/-! DEFINITION. The nibble packer and unpacker: the commands PACK and UNPACK (43_nibble_packer.md). -/

namespace Sys2Proof.Machine

/-- The start checks of PACK and UNPACK (R126, R127). -/
def packChecks (s : State) : List Check :=
  [dimsCheck s, pkdCheck s, pixCheck s, evenCheck s]

/-- Storage row `r` of PACK: each packed byte from pixels 2c and 2c + 1 of that row (R126, R130). -/
def packRow (r : Nat) (s : State) : State :=
  { s with
    row := BitVec.ofNat 17 r
    pkd := Memory.fill s.pkd (s.packedAddr r 0) s.pw
      (fun c => pack2 (Memory.read s.pix (s.pixAddr r (2 * c))) (Memory.read s.pix (s.pixAddr r (2 * c + 1)))) }

/-- Storage row `r` of UNPACK: packed byte c gives pixels 2c (its left nibble) and 2c + 1 (its right nibble), in increasing
address order (R127, 30_encoding.md R64). -/
def unpackRow (r : Nat) (s : State) : State :=
  { s with
    row := BitVec.ofNat 17 r
    pix := Memory.fill s.pix (s.pixAddr r 0) (2 * s.pw)
      (fun x =>
        let packed := Memory.read s.pkd (s.packedAddr r (x / 2))
        if x % 2 = 0 then unpackLeft packed else unpackRight packed) }

/-- `for r in first .. first + n - 1: one row`. -/
def overRows (rowOp : Nat → State → State) : Nat → Nat → State → State
  | 0, _, s => s
  | n + 1, first, s => overRows rowOp n (first + 1) (rowOp first s)

/-- The end of PACK and UNPACK: `ROW <- H ; COL <- 0 ; STATE <- DONE` (R126, R127). -/
def packEnd (s : State) : State :=
  finish { s with row := s.height, col := 0 }

/-- PACK, opcode 0x5 (R126). -/
def packCmd : State → State :=
  command 0x5 packChecks (fun s => packEnd (overRows packRow s.h 0 s))

/-- UNPACK, opcode 0x6 (R127). -/
def unpackCmd : State → State :=
  command 0x6 packChecks (fun s => packEnd (overRows unpackRow s.h 0 s))

/-- The meaning of PACK. -/
def execPack (s : State) : Outcome :=
  .next (packCmd s)

/-- The meaning of UNPACK. -/
def execUnpack (s : State) : Outcome :=
  .next (unpackCmd s)

end Sys2Proof.Machine
end

