-- ==== Sys2Proof/Machine/Scanline.lean ====
section
/-! DEFINITION. The scanline buffer controller: the header commands HDR_RD and HDR_WR, NOP and RESET, the composites
DECODE and ENCODE (44_scanline_buffer_controller.md), and the reserved opcodes (30_encoding.md R71). -/

namespace Sys2Proof.Machine

/-- Start check (8) of HDR_RD: a header needs 4 valid bytes, else `UnexpectedEof(1)` (R141, 60_exceptions.md R161). -/
def headerCheck (s : State) : Check where
  fails := decide (s.slen < 4)
  code := .unexpectedEof
  sub := 1

/-- Start check (8) of HDR_WR, which no legal STR_CAP fails (R142, 60_exceptions.md R166). -/
def headerRoomCheck (s : State) : Check where
  fails := decide (s.caps.str < 4)
  code := .streamOverflow
  sub := 0

/-- HDR_RD, opcode 0x1 (R141): dimension = field + 1, which does not wrap in 17 bits (R137). -/
def hdrRdCmd : State → State :=
  command 0x1 (fun s => [argCheck (decide (s.slen > s.caps.str)), headerCheck s])
    (fun s =>
      finish
        { s with
          width := BitVec.ofNat 17 ((Memory.read16 s.str 0).toNat + 1)
          height := BitVec.ofNat 17 ((Memory.read16 s.str 2).toNat + 1)
          strPos := 4 })

/-- HDR_WR, opcode 0x2 (R142): field = dimension - 1. -/
def hdrWrCmd : State → State :=
  command 0x2 (fun s => [dimsCheck s, headerRoomCheck s])
    (fun s =>
      finish
        { s with
          str := Memory.write16 (Memory.write16 s.str 0 (s.w - 1)) 2 (s.h - 1)
          strPos := 4
          strLen := 4 })

/-- A reserved opcode raises `IllegalCommand(0)`, with the opcode itself as STAGE, and changes nothing else
(30_encoding.md R71, 60_exceptions.md R167); like any command it is ignored while FAULTED. -/
def reservedCmd (op : Nat) : State → State :=
  command op (fun _ => []) (raise .illegalCommand 0 op)

/-- The meaning of HDR_RD. -/
def execHdrRd (s : State) : Outcome :=
  .next (hdrRdCmd s)

/-- The meaning of HDR_WR. -/
def execHdrWr (s : State) : Outcome :=
  .next (hdrWrCmd s)

/-- NOP, opcode 0x0: nothing changes, STATUS included (R145). -/
def execNop (s : State) : Outcome :=
  .next s

/-- RESET, opcode 0xF: the one command that executes while FAULTED (R146). -/
def execReset (s : State) : Outcome :=
  .next (resetRegisters s)

/-- DECODE, opcode 0x8: HDR_RD ; RLE_DEC ; UNPACK, each as if the host had issued it (R150, R152). A constituent that
faults leaves FAULTED, in which the later ones are ignored: the composite stops there and STAGE names the constituent. -/
def execDecodeImage (s : State) : Outcome :=
  .next (unpackCmd (rleDecCmd (hdrRdCmd s)))

/-- ENCODE, opcode 0x9: PACK ; HDR_WR ; RLE_ENC (R151, R152). -/
def execEncodeImage (s : State) : Outcome :=
  .next (rleEncCmd (hdrWrCmd (packCmd s)))

/-- The reserved opcode 0xA. -/
def execReservedA (s : State) : Outcome :=
  .next (reservedCmd 0xA s)

/-- The reserved opcode 0xB. -/
def execReservedB (s : State) : Outcome :=
  .next (reservedCmd 0xB s)

/-- The reserved opcode 0xC. -/
def execReservedC (s : State) : Outcome :=
  .next (reservedCmd 0xC s)

/-- The reserved opcode 0xD. -/
def execReservedD (s : State) : Outcome :=
  .next (reservedCmd 0xD s)

/-- The reserved opcode 0xE. -/
def execReservedE (s : State) : Outcome :=
  .next (reservedCmd 0xE s)

end Sys2Proof.Machine
end

