-- ==== Sys2Proof/Machine/Dispatch.lean ====
section
/-! DEFINITION. One arm per instruction. -/

namespace Sys2Proof.Machine

def exec (i : Instr) (s : State) : Host.Outcome State Fault Refusal :=
  match i with
  -- tokens (40_rle_decoder.md)
  | .lit n => Sys2Proof.Machine.execLit n s
  | .rep n => Sys2Proof.Machine.execRep n s
  -- commands (30_encoding.md R66)
  | .nop => Sys2Proof.Machine.execNop s
  | .hdrRd => Sys2Proof.Machine.execHdrRd s
  | .hdrWr => Sys2Proof.Machine.execHdrWr s
  | .rleDec => Sys2Proof.Machine.execRleDec s
  | .rleEnc => Sys2Proof.Machine.execRleEnc s
  | .pack => Sys2Proof.Machine.execPack s
  | .unpack => Sys2Proof.Machine.execUnpack s
  | .runFind => Sys2Proof.Machine.execRunFind s
  | .decodeImage => Sys2Proof.Machine.execDecodeImage s
  | .encodeImage => Sys2Proof.Machine.execEncodeImage s
  | .reservedA => Sys2Proof.Machine.execReservedA s
  | .reservedB => Sys2Proof.Machine.execReservedB s
  | .reservedC => Sys2Proof.Machine.execReservedC s
  | .reservedD => Sys2Proof.Machine.execReservedD s
  | .reservedE => Sys2Proof.Machine.execReservedE s
  | .reset => Sys2Proof.Machine.execReset s

end Sys2Proof.Machine
end

