-- ==== Sys2Proof/Machine/HostPort.lean ====
section
/-! DEFINITION. The host's side: the register port and the memory port (10_state.md R13, R27 to R32), and how a pending host
action is performed. -/

namespace Sys2Proof.Machine

/-- `HostRegRead(i)`: CMD reads 0 (R23), an unmapped index reads 0 (R27). -/
def hostRegRead (i : Nat) (s : State) : Nat :=
  match i with
  | 0x0 => 0
  | 0x1 => s.status.toNat
  | 0x2 => s.fault.toNat
  | 0x3 => s.ctrl.toNat
  | 0x4 => s.width.toNat
  | 0x5 => s.height.toNat
  | 0x6 => s.strLen.toNat
  | 0x7 => s.strPos.toNat
  | 0x8 => s.row.toNat
  | 0x9 => s.col.toNat
  | 0xA => s.rfLen.toNat
  | 0xB => s.rfPos.toNat
  | _ => 0

/-- `HostRegWrite(i, v)` to a register other than CMD: a read/write register takes `v` truncated to its width, unchecked; a
read-only register and an unmapped index ignore the write; accepted in every STATE (R27, R28). -/
def hostRegWrite (i v : Nat) (s : State) : State :=
  match i with
  | 0x3 => { s with ctrl := BitVec.ofNat 1 v }
  | 0x4 => { s with width := BitVec.ofNat 17 v }
  | 0x5 => { s with height := BitVec.ofNat 17 v }
  | 0x6 => { s with strLen := BitVec.ofNat 33 v }
  | 0x7 => { s with strPos := BitVec.ofNat 33 v }
  | 0x8 => { s with row := BitVec.ofNat 17 v }
  | 0x9 => { s with col := BitVec.ofNat 16 v }
  | _ => s

/-- The value a host read returns is put on top of `readBack` (log entry 6). -/
def answerHost (v : Nat) (s : State) : State :=
  { s with readBack := v :: s.readBack }

/-- Perform one host action. A write to CMD runs the command its low four bits name (R23, 30_encoding.md R66), from its
start to its completion or fault (00_scope.md R5). A memory access outside the space stops by name (log entry 8). -/
def hostAct (a : HostAction) (s : State) : Outcome :=
  match a with
  | .regRead i => .next (answerHost (hostRegRead i s) s)
  | .regWrite i v => if i = 0x0 then exec (decodeCommand v) s else .next (hostRegWrite i v s)
  | .memRead sp addr => checked sp (addr + 1) s (.next (answerHost (Memory.read (s.mem sp) addr).toNat s))
  | .memWrite sp addr b => checked sp (addr + 1) s (.next (s.setMem sp (Memory.write (s.mem sp) addr b)))
  | .hardReset => .next (resetRegisters s)

/-- The next pending host action, the oldest, is taken off the list and performed. With none pending the core does nothing
(70_reset_and_hazards.md R186; log entry 5). -/
def hostStep (s : State) : Outcome :=
  match s.host with
  | [] => .next s
  | a :: rest => hostAct a { s with host := rest }

/-- Put an opcode where the next step takes it: a host write to CMD, ahead of the others. -/
def placeCommand (s : State) (w : Nat) : State :=
  { s with host := .regWrite 0x0 w :: s.host }

/-- Put a token where the next step runs it: `w`'s low byte as the control byte at STR[0], its payload the bytes above (zeros
past the last), the stream and a one-row image exactly that token long, and a host write of RLE_DEC to CMD (log entry 5). -/
def placeToken (s : State) (w : Nat) : State :=
  let code : Byte := BitVec.ofNat 8 w
  let size := 1 + payloadSize (decodeToken code)
  placeCommand
    { s with
      str := Memory.fill s.str 0 size (fun k => BitVec.ofNat 8 (w >>> (8 * k)))
      strLen := BitVec.ofNat 33 size
      strPos := 0
      width := BitVec.ofNat 17 (2 * tokenLength code)
      height := 1 }
    0x3

end Sys2Proof.Machine
end

