-- ==== Sys2Proof/Machine/Step.lean ====
section
/-! DEFINITION. One step of the machine: the oldest pending host action, a whole command when it is a write to CMD. -/

namespace Sys2Proof.Machine

/-- One step (00_scope.md R5, 10_state.md R10, 70_reset_and_hazards.md R196). -/
def step (s : State) : Host.Outcome State Fault Refusal :=
  hostStep s

/-- `s` with the table row's instruction where the next step runs it (log entries 5 and 9). -/
def State.withFetchWord (s : State) (nbits w : Nat) : State :=
  match tableSpace nbits w with
  | .command => placeCommand s w
  | .token => placeToken s w

end Sys2Proof.Machine
end

