-- ==== Sys2Proof/Safety.lean ====
section
/-! DEFINITION. The terms claims use: the invariant of the machine, legal dimensions, the stream grammar of
30_encoding.md R74, and the encoder's output as a function of the bytes alone (41_rle_encoder.md). -/

namespace Sys2Proof.Machine

/-! ### States -/

/-- WIDTH and HEIGHT hold true dimensions (10_state.md R20, R21). -/
abbrev State.dimsLegal (s : State) : Prop :=
  1 ≤ s.w ∧ s.w ≤ 65536 ∧ 1 ≤ s.h ∧ s.h ≤ 65536

/-- One memory in canonical form with every listed address below its capacity. -/
abbrev Memory.ok (m : Memory) (cap : Nat) : Prop :=
  Memory.wf m ∧ Memory.below m cap

/-- FAULT and STATUS agree (10_state.md R24, R25; 93 U7, U8): STATE is never 3, FAULT is 0 until a fault is recorded, and a
recorded fault has a code of R160's table. -/
abbrev State.faultOk (s : State) : Prop :=
  s.status ≠ 3#2 ∧ (¬ s.faulted → s.fault = 0#12) ∧ (s.faulted → 1 ≤ s.faultCode ∧ s.faultCode ≤ 6)

/-- The start checks of RLE_DEC pass (40_rle_decoder.md R80). -/
abbrev State.decReady (s : State) : Prop :=
  ¬ s.faulted ∧ s.dimsLegal ∧ s.pw * s.h ≤ s.caps.pkd ∧ s.slen ≤ s.caps.str ∧ s.pos ≤ s.slen

/-- The start checks of RLE_ENC pass (41_rle_encoder.md R100). -/
abbrev State.encReady (s : State) : Prop :=
  ¬ s.faulted ∧ s.dimsLegal ∧ s.pw * s.h ≤ s.caps.pkd ∧ s.pos ≤ s.caps.str

/-- The start checks of PACK and UNPACK pass (43_nibble_packer.md R126). -/
abbrev State.packReady (s : State) : Prop :=
  ¬ s.faulted ∧ s.dimsLegal ∧ s.pw * s.h ≤ s.caps.pkd ∧ s.w * s.h ≤ s.caps.pix ∧ s.w % 2 = 0

/-- `s` with a fault recorded and nothing else changed: the FAULT register `word` is STAGE, SUB, CODE in three hex digits
(10_state.md R25, 60_exceptions.md R170). -/
def State.withFault (s : State) (word : BitVec 12) : State :=
  { s with status := stFaulted, fault := word }

/-- The invariant of the machine: legal parameters (00_scope.md R8), memories in form and inside their capacities
(20_memory.md R48), FAULT and STATUS in agreement. -/
abbrev State.inv (s : State) : Prop :=
  s.caps.legal ∧ Memory.ok s.str s.caps.str ∧ Memory.ok s.pkd s.caps.pkd ∧ Memory.ok s.pix s.caps.pix ∧ s.faultOk

/-- The encoded stream from STR_POS to its end (R22). -/
def State.stream (s : State) : List Byte :=
  Memory.slice s.str s.pos (s.slen - s.pos)

/-- Storage row `r` of the packed image in PKD (R30). -/
def State.packedRow (s : State) (r : Nat) : List Byte :=
  Memory.slice s.pkd (s.packedAddr r 0) s.pw

/-- The packed image in PKD, row 0 first (R30, R136). -/
def State.packedImage (s : State) : List Byte :=
  Memory.slice s.pkd 0 (s.pw * s.h)

/-! ### The grammar of the token stream (R63, R74) -/

/-- `RowTokens e d`: the bytes `e` are a sequence of whole tokens that stands for the packed bytes `d`. -/
inductive RowTokens : List Byte → List Byte → Prop where
  | nil : RowTokens [] []
  | lit (raw : List Byte) {e d : List Byte} : 1 ≤ raw.length → raw.length ≤ 128 → RowTokens e d →
      RowTokens (litBytes raw ++ e) (raw ++ d)
  | rep (n : Nat) (v : Byte) {e d : List Byte} : 3 ≤ n → n ≤ 130 → RowTokens e d →
      RowTokens (repBytes n v ++ e) (List.replicate n v ++ d)

/-- `ImageTokens pw h e d`: the bytes `e` are `h` rows of tokens, the tokens of each standing for exactly `pw` packed bytes,
and `d` is those rows one after the other (R65, R74). -/
inductive ImageTokens (pw : Nat) : Nat → List Byte → List Byte → Prop where
  | nil : ImageTokens pw 0 [] []
  | row {h : Nat} {e d es ds : List Byte} : RowTokens e d → d.length = pw → ImageTokens pw h es ds →
      ImageTokens pw (h + 1) (e ++ es) (d ++ ds)

/-- One whole token and the packed bytes it stands for (R63). -/
def IsToken (e d : List Byte) : Prop :=
  (∃ raw : List Byte, 1 ≤ raw.length ∧ raw.length ≤ 128 ∧ e = litBytes raw ∧ d = raw) ∨
  (∃ (n : Nat) (v : Byte), 3 ≤ n ∧ n ≤ 130 ∧ e = repBytes n v ∧ d = List.replicate n v)

/-- The fault of a token with control byte `code` when `left` packed bytes are left in its row and `avail` bytes follow the
control byte in the stream: for a repeat token the missing value byte comes before the overrun, for a literal one the overrun
before the missing payload (40_rle_decoder.md R86). -/
def tokenFault (code : Byte) (left avail : Nat) : Option FaultCode :=
  if isRepeat code then
    if avail = 0 then some .unexpectedEof else if left < tokenLength code then some .corruptStream else none
  else if left < tokenLength code then some .corruptStream
  else if avail < tokenLength code then some .unexpectedEof
  else none

/-! ### Runs (42_run_finder.md R115) -/

/-- Three equal bytes stand at index `q` of the slice (R115). -/
abbrev TripleAt (s : List Byte) (q : Nat) : Prop :=
  q + 2 < s.length ∧ s.getD q 0 = s.getD (q + 1) 0 ∧ s.getD (q + 1) 0 = s.getD (q + 2) 0

/-- What R115 says of the pair: no run, or the leftmost run, maximal to the right. -/
abbrev FirstRun (s : List Byte) (r : Nat × Nat) : Prop :=
  (r.1 = 0 ∧ r.2 = s.length ∧ ∀ q, ¬ TripleAt s q) ∨
  (3 ≤ r.1 ∧ r.2 + r.1 ≤ s.length ∧ (∀ i, i < r.1 → s.getD (r.2 + i) 0 = s.getD r.2 0) ∧
    (r.2 + r.1 < s.length → s.getD (r.2 + r.1) 0 ≠ s.getD r.2 0) ∧ ∀ q, q < r.2 → ¬ TripleAt s q)

/-! ### The encoder's output as a function of the bytes -/

/-- LITSPAN of the bytes `raw` (R102); `fuel` bounds the tokens. -/
def litSpanBytes : Nat → List Byte → List Byte
  | 0, _ => []
  | fuel + 1, raw => if raw = [] then [] else litBytes (raw.take 128) ++ litSpanBytes fuel (raw.drop 128)

/-- REPSPAN of `n` copies of `v` (R103). -/
def repSpanBytes : Nat → Nat → Byte → List Byte
  | 0, _, _ => []
  | fuel + 1, n, v =>
    if n = 0 then []
    else
      (if 3 ≤ min n 130 then repBytes (min n 130) v else litBytes (List.replicate (min n 130) v))
        ++ repSpanBytes fuel (n - min n 130) v

/-- The tokens of one row or of the rest of one (R101): the literals before the first run, the run, and so on. -/
def encodeRowBytes : Nat → List Byte → List Byte
  | 0, _ => []
  | fuel + 1, row =>
    if row = [] then []
    else
      litSpanBytes (runFind row).2 (row.take (runFind row).2)
        ++ repSpanBytes (runFind row).1 (runFind row).1 (row.getD (runFind row).2 0)
        ++ encodeRowBytes fuel (row.drop ((runFind row).2 + (runFind row).1))

/-- The result of the last run-finder call on a row or on the rest of one (R108). -/
def lastRun : Nat → List Byte → Nat × Nat
  | 0, _ => (0, 0)
  | fuel + 1, row =>
    if row.drop ((runFind row).2 + (runFind row).1) = [] then runFind row
    else lastRun fuel (row.drop ((runFind row).2 + (runFind row).1))

/-- The tokens of one iteration of EncodeRow on the rest of a row: the literals before its first run, then the run (R101). -/
def stepBytes (rest : List Byte) : List Byte :=
  litSpanBytes (runFind rest).2 (rest.take (runFind rest).2)
    ++ repSpanBytes (runFind rest).1 (runFind rest).1 (rest.getD (runFind rest).2 0)

/-- The token stream of the packed image in PKD, one independent pass per row, row 0 first (R100). -/
def State.encodedImage (s : State) : List Byte :=
  (List.range s.h).flatMap (fun r => encodeRowBytes s.pw (s.packedRow r))

/-! ### Pixels and packed bytes (43_nibble_packer.md) -/

/-- The packed byte of column `c` of storage row `r`, from the pixels in PIX (R126). -/
abbrev State.packedOf (s : State) (r c : Nat) : Byte :=
  pack2 (Memory.read s.pix (s.pixAddr r (2 * c))) (Memory.read s.pix (s.pixAddr r (2 * c + 1)))

/-- The pixel byte of pixel `x` of storage row `r`, from the packed bytes in PKD (R127). -/
abbrev State.pixelOf (s : State) (r x : Nat) : Byte :=
  if x % 2 = 0 then unpackLeft (Memory.read s.pkd (s.packedAddr r (x / 2)))
  else unpackRight (Memory.read s.pkd (s.packedAddr r (x / 2)))

/-- The token stream of the pixel image in PIX: what PACK and then RLE_ENC make of it (44_scanline_buffer_controller.md
R151). -/
def State.encodedPixels (s : State) : List Byte :=
  (List.range s.h).flatMap (fun r => encodeRowBytes s.pw ((List.range s.pw).map (s.packedOf r)))

/-- The width a stream header gives: its field plus one, little-endian, unsigned (30_encoding.md R61, R62). -/
def State.headerWidth (s : State) : Nat :=
  (Memory.read s.str 0).toNat + 256 * (Memory.read s.str 1).toNat + 1

/-- The height a stream header gives. -/
def State.headerHeight (s : State) : Nat :=
  (Memory.read s.str 2).toNat + 256 * (Memory.read s.str 3).toNat + 1

end Sys2Proof.Machine
end

