-- ==== Sys2Proof/Certificates/Slice0/Obligations.lean ====
section
/-! DEFINITION. The statements for the provers. -/

open Sys2Proof Sys2Proof.Machine

/-! ### Encodings (30_encoding.md) -/

/-- Decoding an encoded well-formed instruction gives it back, whatever bytes follow, with every operand at every value the
encoding admits (30_encoding.md R63, R66, R67). -/
def Obligations.DecodeEncodeRoundTrip : Prop :=
  ∀ (i : Instr) (rest : List Byte), WellFormed i = true → decode (encSpace i) (encode i ++ rest) = .ok (i, rest)

/-- R67: length decode and length encode, the ranges of both, the two extreme encodings the source gives; and every control
byte is the encoding of the token it decodes to (R69). -/
def Obligations.TokenLengths : Prop :=
  (∀ code : Byte, code &&& 0x80#8 ≠ 0#8 →
    decodeToken code = .rep ((code &&& 0x7F#8).toNat + 3) ∧
    3 ≤ (code &&& 0x7F#8).toNat + 3 ∧ (code &&& 0x7F#8).toNat + 3 ≤ 130) ∧
  (∀ code : Byte, code &&& 0x80#8 = 0#8 →
    decodeToken code = .lit (code.toNat + 1) ∧ 1 ≤ code.toNat + 1 ∧ code.toNat + 1 ≤ 128) ∧
  (∀ n, 1 ≤ n → n ≤ 128 → (encodeByte (.lit n)).toNat = n - 1 ∧ n - 1 ≤ 0x7F) ∧
  (∀ n, 3 ≤ n → n ≤ 130 →
    (encodeByte (.rep n)).toNat = (n - 3) + 0x80 ∧ 0x80 ≤ (n - 3) + 0x80 ∧ (n - 3) + 0x80 ≤ 0xFF) ∧
  encodeByte (.lit 128) = 127#8 ∧ encodeByte (.rep 130) = 0xFF#8 ∧
  ∀ code : Byte, encodeByte (decodeToken code) = code

/-- Control bytes and opcodes written out from the spec's encodings of them (R63, R66, R67). -/
def Obligations.EncodingSamples : Prop :=
  decode .token [0x00#8] = .ok (.lit 1, []) ∧
  decode .token [0x03#8, 0x45#8] = .ok (.lit 4, [0x45#8]) ∧
  decode .token [0x7F#8] = .ok (.lit 128, []) ∧
  decode .token [0x80#8, 0x11#8] = .ok (.rep 3, [0x11#8]) ∧
  decode .token [0xA5#8] = .ok (.rep 40, []) ∧
  decode .token [0xFF#8] = .ok (.rep 130, []) ∧
  decode .command [0x0#8] = .ok (.nop, []) ∧
  decode .command [0x1#8] = .ok (.hdrRd, []) ∧
  decode .command [0x4#8] = .ok (.rleEnc, []) ∧
  decode .command [0x9#8] = .ok (.encodeImage, []) ∧
  decode .command [0xB#8] = .ok (.reservedB, []) ∧
  decode .command [0xF#8] = .ok (.reset, []) ∧
  decode .command [0x35#8] = .ok (.pack, [])

/-- A whole token is told from its bytes, and its size from its control byte alone; a token whose payload is cut short is
refused by name (R41, R63, R68, R72). -/
def Obligations.WholeTokensDecode : Prop :=
  (∀ raw rest : List Byte, 1 ≤ raw.length → raw.length ≤ 128 →
    decodeToken? (litBytes raw ++ rest) = .ok (.lit raw.length, raw, rest)) ∧
  (∀ (n : Nat) (v : Byte) (rest : List Byte), 3 ≤ n → n ≤ 130 →
    decodeToken? (repBytes n v ++ rest) = .ok (.rep n, [v], rest)) ∧
  (∀ (n : Nat) (rest : List Byte), 1 ≤ n → n ≤ 128 → rest.length < n →
    decodeToken? (encodeByte (.lit n) :: rest) = .error .payloadTruncated) ∧
  (∀ n, 3 ≤ n → n ≤ 130 → decodeToken? [encodeByte (.rep n)] = .error .payloadTruncated) ∧
  (∀ code : Byte, code &&& 0x80#8 ≠ 0#8 → 1 + payloadSize (decodeToken code) = 2) ∧
  (∀ code : Byte, code &&& 0x80#8 = 0#8 → 1 + payloadSize (decodeToken code) = code.toNat + 2)

/-! ### Step and host (10_state.md, 70_reset_and_hazards.md) -/

/-- R23: a host write to CMD runs the command its low four bits name, which is one step of the machine, the pending host action
being taken off the list and nothing else done around exec; CMD reads 0. -/
def Obligations.StepRunsCommand : Prop :=
  (∀ (s : State) (v : Nat) (rest : List HostAction),
    step { s with host := .regWrite 0x0 v :: rest } = exec (decodeCommand (v % 16)) { s with host := rest }) ∧
  (∀ (i : Instr) (s : State) (v : Nat) (rest : List HostAction), encSpace i = .command → WellFormed i = true →
    v % 16 = (encodeByte i).toNat → step { s with host := .regWrite 0x0 v :: rest } = exec i { s with host := rest }) ∧
  (∀ (s : State) (rest : List HostAction),
    step { s with host := .regRead 0x0 :: rest } = .next { s with host := rest, readBack := 0 :: s.readBack })

/-- Inside RLE_DEC, at a token boundary, the token executed is the one the control byte at STR_POS decodes to: one iteration of
the loop of R80 is exec of it at the state with CODE fetched (40_rle_decoder.md R80, R83). -/
def Obligations.DecoderRunsDecodedToken : Prop :=
  ∀ (fuel : Nat) (s : State), ¬ s.faulted → s.pos < s.slen → s.slen ≤ s.caps.str → s.r < s.h →
    s.pw * s.h ≤ s.caps.pkd →
    ∃ t, exec (decodeToken (Memory.read s.str s.pos)) { s with code := Memory.read s.str s.pos } = .next t ∧
      decodeLoop (fuel + 1) s = decodeLoop fuel t

/-- With no host action pending the core is idle: a step changes nothing (70_reset_and_hazards.md R186, 60_exceptions.md R175;
the list of pending actions is the model's, log entry 5). -/
def Obligations.IdleCore : Prop :=
  ∀ s : State, s.host = [] → step s = .next s

/-- R28: a write to a read/write register stores the value truncated to the register's width, unchecked, in every STATE; a write
to a read-only register has no effect. -/
def Obligations.HostRegisterWrite : Prop :=
  ∀ (s : State) (v : Nat) (rest : List HostAction),
    step { s with host := .regWrite 0x3 v :: rest } = .next { s with host := rest, ctrl := BitVec.ofNat 1 v } ∧
    step { s with host := .regWrite 0x4 v :: rest } = .next { s with host := rest, width := BitVec.ofNat 17 v } ∧
    step { s with host := .regWrite 0x5 v :: rest } = .next { s with host := rest, height := BitVec.ofNat 17 v } ∧
    step { s with host := .regWrite 0x6 v :: rest } = .next { s with host := rest, strLen := BitVec.ofNat 33 v } ∧
    step { s with host := .regWrite 0x7 v :: rest } = .next { s with host := rest, strPos := BitVec.ofNat 33 v } ∧
    step { s with host := .regWrite 0x8 v :: rest } = .next { s with host := rest, row := BitVec.ofNat 17 v } ∧
    step { s with host := .regWrite 0x9 v :: rest } = .next { s with host := rest, col := BitVec.ofNat 16 v } ∧
    ∀ i, i = 0x1 ∨ i = 0x2 ∨ i = 0xA ∨ i = 0xB →
      step { s with host := .regWrite i v :: rest } = .next { s with host := rest }

/-- The register map's reads (10_state.md R13), each returning the register and changing nothing; and R27: an unmapped index reads
0 and ignores writes. Returned values go to `readBack`, the model's own field (log entry 6). -/
def Obligations.HostRegisterRead : Prop :=
  ∀ (s : State) (rest : List HostAction),
    (∀ i x, (i, x) ∈ [(0x1, s.status.toNat), (0x2, s.fault.toNat), (0x3, s.ctrl.toNat), (0x4, s.width.toNat),
        (0x5, s.height.toNat), (0x6, s.strLen.toNat), (0x7, s.strPos.toNat), (0x8, s.row.toNat), (0x9, s.col.toNat),
        (0xA, s.rfLen.toNat), (0xB, s.rfPos.toNat)] →
      step { s with host := .regRead i :: rest } = .next { s with host := rest, readBack := x :: s.readBack }) ∧
    (∀ i, 0xC ≤ i →
      step { s with host := .regRead i :: rest } = .next { s with host := rest, readBack := 0 :: s.readBack } ∧
      ∀ v, step { s with host := .regWrite i v :: rest } = .next { s with host := rest })

/-- Host memory access in the three disjoint spaces: a read returns the byte and changes nothing, a write changes that byte of that
space and nothing else (10_state.md R29, R30, R32; 20_memory.md R45, R47). Outside the space the model stops by name, its own
choice (log entry 8). -/
def Obligations.HostMemoryAccess : Prop :=
  ∀ (s : State) (sp : Space) (a : Nat) (b : Byte) (rest : List HostAction),
    (a < s.caps.of sp →
      step { s with host := .memRead sp a :: rest } =
        .next { s with host := rest, readBack := (Memory.read (s.mem sp) a).toNat :: s.readBack } ∧
      ∃ t, step { s with host := .memWrite sp a b :: rest } = .next t ∧
        t = { s with host := rest, str := t.str, pkd := t.pkd, pix := t.pix } ∧
        Memory.read (t.mem sp) a = b ∧
        (∀ x, x ≠ a → Memory.read (t.mem sp) x = Memory.read (s.mem sp) x) ∧
        ∀ sp', sp' ≠ sp → t.mem sp' = s.mem sp') ∧
    (s.caps.of sp ≤ a →
      step { s with host := .memRead sp a :: rest } = .fault (.noSuchAddress sp) ∧
      step { s with host := .memWrite sp a b :: rest } = .fault (.noSuchAddress sp))

/-! ### Reset -/

/-- R35: every host-visible register after reset. -/
def Obligations.ResetRegisters : Prop :=
  State.reset.status = stIdle ∧ State.reset.fault = 0 ∧ State.reset.ctrl = 0 ∧ State.reset.width = 0 ∧
  State.reset.height = 0 ∧ State.reset.strLen = 0 ∧ State.reset.strPos = 0 ∧ State.reset.row = 0 ∧ State.reset.col = 0 ∧
  State.reset.rfLen = 0 ∧ State.reset.rfPos = 0

/-- The state after reset meets the invariant that every step keeps. It rests on the capacities and the empty memories the model
chose for reset (log entries 1 and 2). -/
def Obligations.ResetMeetsInvariant : Prop :=
  State.reset.inv

/-- R146: RESET sets every register to its reset value and leaves the memories, in every STATE, raising no fault; and every other
command is ignored while FAULTED. -/
def Obligations.ResetCommand : Prop :=
  (∀ s : State, ∃ t, exec .reset s = .next t ∧
    t.status = stIdle ∧ t.fault = 0 ∧ t.ctrl = 0 ∧ t.width = 0 ∧ t.height = 0 ∧ t.strLen = 0 ∧ t.strPos = 0 ∧
    t.row = 0 ∧ t.col = 0 ∧ t.rfLen = 0 ∧ t.rfPos = 0 ∧
    t.str = s.str ∧ t.pkd = s.pkd ∧ t.pix = s.pix ∧ t.caps = s.caps ∧ t.host = s.host ∧ t.readBack = s.readBack) ∧
  (∀ (i : Instr) (s : State), encSpace i = .command → i ≠ .reset → s.faulted → exec i s = .next s)

/-- R185: hardware reset and the RESET command have the same effect: every host-visible register 0, the memories as they were. -/
def Obligations.ResetEvents : Prop :=
  ∀ (s : State) (rest : List HostAction),
    step { s with host := .hardReset :: rest } = exec .reset { s with host := rest } ∧
    ∃ t, step { s with host := .hardReset :: rest } = .next t ∧
      t.status = stIdle ∧ t.fault = 0 ∧ t.ctrl = 0 ∧ t.width = 0 ∧ t.height = 0 ∧ t.strLen = 0 ∧ t.strPos = 0 ∧
      t.row = 0 ∧ t.col = 0 ∧ t.rfLen = 0 ∧ t.rfPos = 0 ∧ t.str = s.str ∧ t.pkd = s.pkd ∧ t.pix = s.pix

/-! ### Faults (60_exceptions.md) -/

/-- Fault entry: FAULT holds code, sub-code and stage in their fields, STATUS.STATE is FAULTED, nothing else changes
(60_exceptions.md R160, R170; 10_state.md R25). -/
def Obligations.RaiseRecordsFault : Prop :=
  (∀ (f : FaultCode) (sub op : Nat) (s : State), sub < 16 → op < 16 →
    raise f sub op s = s.withFault (raise f sub op s).fault ∧
    (raise f sub op s).faultCode = faultNumber f ∧ (raise f sub op s).faultSub = sub ∧
    (raise f sub op s).faultStage = op) ∧
  faultNumber .unexpectedEof = 1 ∧ faultNumber .corruptStream = 2 ∧ faultNumber .dimensionOverflow = 3 ∧
  faultNumber .unsupportedPixelWidth = 4 ∧ faultNumber .streamOverflow = 5 ∧ faultNumber .illegalCommand = 6

/-- R172: while FAULTED every command but RESET is ignored, host register and memory accesses still work, and FAULTED is left and
FAULT changed only by RESET or hardware reset. -/
def Obligations.FaultIsSticky : Prop :=
  (∀ (s : State) (v : Nat) (rest : List HostAction), s.faulted → v % 16 ≠ 0xF →
    step { s with host := .regWrite 0x0 v :: rest } = .next { s with host := rest }) ∧
  (∀ (s : State) (i v : Nat) (rest : List HostAction), s.faulted → i ≠ 0x0 →
    ∃ t, step { s with host := .regWrite i v :: rest } = .next t ∧ t.faulted ∧ t.fault = s.fault) ∧
  (∀ (s : State) (i : Nat) (rest : List HostAction), s.faulted →
    ∃ x, step { s with host := .regRead i :: rest } = .next { s with host := rest, readBack := x :: s.readBack }) ∧
  (∀ (s : State) (sp : Space) (a : Nat) (b : Byte) (rest : List HostAction), s.faulted → a < s.caps.of sp →
    (∃ t, step { s with host := .memRead sp a :: rest } = .next t) ∧
    ∃ t, step { s with host := .memWrite sp a b :: rest } = .next t ∧ Memory.read (t.mem sp) a = b) ∧
  (∀ s t : State, s.faulted → step s = .next t →
    (t.faulted ∧ t.fault = s.fault) ∨ (∃ rest, s.host = .hardReset :: rest) ∨
      ∃ v rest, s.host = .regWrite 0x0 v :: rest ∧ v % 16 = 0xF)

/-- R71: the reserved opcodes raise IllegalCommand(0), with the opcode as STAGE, and change nothing else; while FAULTED they are
ignored. -/
def Obligations.ReservedOpcodes : Prop :=
  (∀ s : State, ¬ s.faulted →
    exec .reservedA s = .next (s.withFault 0xA06#12) ∧ exec .reservedB s = .next (s.withFault 0xB06#12) ∧
    exec .reservedC s = .next (s.withFault 0xC06#12) ∧ exec .reservedD s = .next (s.withFault 0xD06#12) ∧
    exec .reservedE s = .next (s.withFault 0xE06#12)) ∧
  (∀ (i : Instr) (s : State), encSpace i = .command → i ≠ .reset → s.faulted → exec i s = .next s)

/-- R164: DimensionOverflow, sub-codes 0, 1 and 2, by each command that checks for it, with nothing else written; and which
sub-codes each command can raise, HDR_RD, NOP and RESET none. -/
def Obligations.DimensionTraps : Prop :=
  (∀ s : State, ¬ s.faulted → ¬ s.dimsLegal →
    exec .hdrWr s = .next (s.withFault 0x203#12) ∧ exec .rleDec s = .next (s.withFault 0x303#12) ∧
    exec .rleEnc s = .next (s.withFault 0x403#12) ∧ exec .runFind s = .next (s.withFault 0x703#12) ∧
    exec .pack s = .next (s.withFault 0x503#12) ∧ exec .unpack s = .next (s.withFault 0x603#12)) ∧
  (∀ s : State, ¬ s.faulted → s.dimsLegal → s.caps.pkd < s.pw * s.h →
    exec .rleDec s = .next (s.withFault 0x313#12) ∧ exec .rleEnc s = .next (s.withFault 0x413#12) ∧
    exec .runFind s = .next (s.withFault 0x713#12) ∧ exec .pack s = .next (s.withFault 0x513#12) ∧
    exec .unpack s = .next (s.withFault 0x613#12)) ∧
  (∀ s : State, ¬ s.faulted → s.dimsLegal → s.pw * s.h ≤ s.caps.pkd → s.caps.pix < s.w * s.h →
    exec .pack s = .next (s.withFault 0x523#12) ∧ exec .unpack s = .next (s.withFault 0x623#12)) ∧
  (∀ (i : Instr) (s t : State), ¬ s.faulted → exec i s = .next t → t.faulted → t.faultCode = 3 →
    (i = .hdrWr → t.faultSub = 0) ∧ (i = .rleDec ∨ i = .rleEnc ∨ i = .runFind → t.faultSub ≤ 1) ∧
    (i = .pack ∨ i = .unpack → t.faultSub ≤ 2) ∧ i ≠ .hdrRd ∧ i ≠ .nop ∧ i ≠ .reset)

/-- R165: an odd width at PACK or UNPACK, after the DimensionOverflow checks, with nothing else written. -/
def Obligations.OddWidthTraps : Prop :=
  ∀ s : State, ¬ s.faulted → s.dimsLegal → s.pw * s.h ≤ s.caps.pkd → s.w * s.h ≤ s.caps.pix → s.w % 2 = 1 →
    exec .pack s = .next (s.withFault 0x504#12) ∧ exec .unpack s = .next (s.withFault 0x604#12)

/-- R167: IllegalCommand, sub-code 0 for a reserved opcode and sub-code 1 for an argument out of range, with nothing else
written. -/
def Obligations.ArgumentTraps : Prop :=
  (∀ (s : State) (v : Nat) (rest : List HostAction), ¬ s.faulted → 0xA ≤ v % 16 → v % 16 ≤ 0xE →
    ∃ t : State, step { s with host := .regWrite 0x0 v :: rest } = .next t ∧
      t = State.withFault { s with host := rest } t.fault ∧ t.faultCode = 6 ∧ t.faultSub = 0 ∧ t.faultStage = v % 16) ∧
  (∀ s : State, ¬ s.faulted → s.caps.str < s.slen → exec .hdrRd s = .next (s.withFault 0x116#12)) ∧
  (∀ s : State, ¬ s.faulted → s.dimsLegal → s.pw * s.h ≤ s.caps.pkd →
    (s.caps.str < s.slen ∨ s.slen < s.pos → exec .rleDec s = .next (s.withFault 0x316#12)) ∧
    (s.caps.str < s.pos → exec .rleEnc s = .next (s.withFault 0x416#12)) ∧
    (s.h ≤ s.r ∨ s.pw < s.c → exec .runFind s = .next (s.withFault 0x716#12)))

/-! ### Whole-machine rules -/

/-- No command stops the model: every one answers a next state, in every state (20_memory.md R48: no address a command generates
is outside a memory). -/
def Obligations.CommandsAlwaysAnswer : Prop :=
  ∀ (i : Instr) (s : State), encSpace i = .command → ∃ t, exec i s = .next t

/-- Every instruction keeps the invariant: legal capacities, the memories in canonical form with nothing at or above a capacity
(20_memory.md R48), STATUS never 3 and FAULT in agreement with it (10_state.md R24, R25). -/
def Obligations.ExecKeepsInvariant : Prop :=
  ∀ (i : Instr) (s t : State), s.inv → exec i s = .next t → t.inv

/-- Every step keeps the invariant, the host's accesses included. -/
def Obligations.StepKeepsInvariant : Prop :=
  ∀ s t : State, s.inv → step s = .next t → t.inv

/-- Which command writes which space, and where (20_memory.md R50): every other byte of memory is unchanged. -/
def Obligations.MemoryFootprint : Prop :=
  ∀ (i : Instr) (s t : State), s.caps.legal → exec i s = .next t →
    (i ≠ .hdrWr → i ≠ .rleEnc → i ≠ .encodeImage → t.str = s.str) ∧
    (i = .hdrWr → ∀ a, 4 ≤ a → Memory.read t.str a = Memory.read s.str a) ∧
    (i = .rleEnc → ∀ a, a < s.pos ∨ t.pos ≤ a → Memory.read t.str a = Memory.read s.str a) ∧
    (i = .encodeImage → ∀ a, t.pos ≤ a → Memory.read t.str a = Memory.read s.str a) ∧
    ((∀ n, i ≠ .lit n) → (∀ n, i ≠ .rep n) → i ≠ .rleDec → i ≠ .pack → i ≠ .decodeImage → i ≠ .encodeImage →
      t.pkd = s.pkd) ∧
    (encSpace i = .command → ∀ a, t.pw * t.h ≤ a → Memory.read t.pkd a = Memory.read s.pkd a) ∧
    (i ≠ .unpack → i ≠ .decodeImage → t.pix = s.pix) ∧
    (∀ a, t.w * t.h ≤ a → Memory.read t.pix a = Memory.read s.pix a)

/-- Which register an instruction writes (10_state.md R13, the column "written by commands"; a token is part of RLE_DEC): every
other register is unchanged. The parameters and the model's two host fields are written by none. -/
def Obligations.RegisterFootprint : Prop :=
  ∀ (i : Instr) (s t : State), exec i s = .next t →
    (i ≠ .reset → t.ctrl = s.ctrl) ∧
    (i ≠ .hdrRd → i ≠ .decodeImage → i ≠ .reset → t.width = s.width ∧ t.height = s.height) ∧
    (i ≠ .hdrWr → i ≠ .rleEnc → i ≠ .encodeImage → i ≠ .reset → t.strLen = s.strLen) ∧
    (i = .nop ∨ i = .pack ∨ i = .unpack ∨ i = .runFind ∨ i = .reservedA ∨ i = .reservedB ∨ i = .reservedC ∨
      i = .reservedD ∨ i = .reservedE → t.strPos = s.strPos) ∧
    (i = .nop ∨ i = .hdrRd ∨ i = .hdrWr ∨ i = .runFind ∨ i = .reservedA ∨ i = .reservedB ∨ i = .reservedC ∨
      i = .reservedD ∨ i = .reservedE → t.row = s.row ∧ t.col = s.col) ∧
    (i ≠ .rleEnc → i ≠ .runFind → i ≠ .encodeImage → i ≠ .reset → t.rfLen = s.rfLen ∧ t.rfPos = s.rfPos) ∧
    (i = .nop → t.status = s.status ∧ t.fault = s.fault) ∧
    t.caps = s.caps ∧ t.host = s.host ∧ t.readBack = s.readBack

/-- What STATUS says after a command that was not ignored (10_state.md R24, R25; 70_reset_and_hazards.md R196): DONE with FAULT
unchanged, or FAULTED with a code of R160's table and the stage of a primitive command. -/
def Obligations.StatusAfterCommand : Prop :=
  ∀ (i : Instr) (s t : State), encSpace i = .command → ¬ s.faulted → exec i s = .next t →
    (i = .nop → t.status = s.status ∧ t.fault = s.fault) ∧
    (i = .reset → t.status = stIdle ∧ t.fault = 0) ∧
    (i ≠ .nop → i ≠ .reset →
      (t.status = stDone ∧ t.fault = s.fault) ∨
      (t.status = stFaulted ∧ 1 ≤ t.faultCode ∧ t.faultCode ≤ 6 ∧ t.faultStage ∉ [0x0, 0x8, 0x9, 0xF] ∧
        (i ≠ .decodeImage → i ≠ .encodeImage → t.faultStage = (encodeByte i).toNat)))

/-! ### Header and housekeeping (44_scanline_buffer_controller.md) -/

/-- R145: NOP changes nothing. -/
def Obligations.NopChangesNothing : Prop :=
  ∀ s : State, exec .nop s = .next s

/-- R141: HDR_RD, its two start checks and its effect. -/
def Obligations.HdrRdReadsHeader : Prop :=
  ∀ s : State, ¬ s.faulted →
    (s.caps.str < s.slen → exec .hdrRd s = .next (s.withFault 0x116#12)) ∧
    (s.slen ≤ s.caps.str → s.slen < 4 → exec .hdrRd s = .next (s.withFault 0x111#12)) ∧
    (s.slen ≤ s.caps.str → 4 ≤ s.slen →
      exec .hdrRd s = .next { s with
        width := BitVec.ofNat 17 s.headerWidth, height := BitVec.ofNat 17 s.headerHeight, strPos := 4, status := stDone } ∧
      1 ≤ s.headerWidth ∧ s.headerWidth ≤ 65536 ∧ 1 ≤ s.headerHeight ∧ s.headerHeight ≤ 65536)

/-- R142: HDR_WR, its two start checks and its effect. -/
def Obligations.HdrWrWritesHeader : Prop :=
  ∀ s : State, ¬ s.faulted →
    (¬ s.dimsLegal → exec .hdrWr s = .next (s.withFault 0x203#12)) ∧
    (s.dimsLegal → s.caps.str < 4 → exec .hdrWr s = .next (s.withFault 0x205#12)) ∧
    (s.dimsLegal → 4 ≤ s.caps.str →
      ∃ t, exec .hdrWr s = .next t ∧ t = { s with str := t.str, strPos := 4, strLen := 4, status := stDone } ∧
        Memory.read t.str 0 = BitVec.ofNat 8 (s.w - 1) ∧ Memory.read t.str 1 = BitVec.ofNat 8 ((s.w - 1) / 256) ∧
        Memory.read t.str 2 = BitVec.ofNat 8 (s.h - 1) ∧ Memory.read t.str 3 = BitVec.ofNat 8 ((s.h - 1) / 256) ∧
        ∀ a, 4 ≤ a → Memory.read t.str a = Memory.read s.str a)

/-- R144: HDR_WR then HDR_RD gives the dimensions back; HDR_RD then HDR_WR gives the header bytes back. -/
def Obligations.HeaderRoundTrip : Prop :=
  (∀ s : State, ¬ s.faulted → s.dimsLegal → 4 ≤ s.caps.str →
    ∃ t u, exec .hdrWr s = .next t ∧ exec .hdrRd t = .next u ∧ u.status = stDone ∧ u.width = s.width ∧
      u.height = s.height) ∧
  (∀ s : State, ¬ s.faulted → 4 ≤ s.slen → s.slen ≤ s.caps.str →
    ∃ t u, exec .hdrRd s = .next t ∧ exec .hdrWr t = .next u ∧ u.status = stDone ∧
      ∀ a, Memory.read u.str a = Memory.read s.str a)

/-! ### Run finder (42_run_finder.md) -/

/-- R115: RunFind gives the leftmost run of three or more equal bytes, maximal to the right, or `(0, n)` when there is none; the
empty slice gives (0, 0) (R119). -/
def Obligations.RunFindFirstRun : Prop :=
  (∀ s : List Byte, FirstRun s (runFind s)) ∧ runFind [] = (0, 0)

/-- R117: RUNFIND, its three start checks and its effect: the function's pair on the rest of row ROW from COL, in RF_LEN and
RF_POS, with nothing truncated and nothing else changed but STATUS. -/
def Obligations.RunFindCommand : Prop :=
  ∀ s : State, ¬ s.faulted →
    (¬ s.dimsLegal → exec .runFind s = .next (s.withFault 0x703#12)) ∧
    (s.dimsLegal → s.caps.pkd < s.pw * s.h → exec .runFind s = .next (s.withFault 0x713#12)) ∧
    (s.dimsLegal → s.pw * s.h ≤ s.caps.pkd → s.h ≤ s.r ∨ s.pw < s.c → exec .runFind s = .next (s.withFault 0x716#12)) ∧
    (s.dimsLegal → s.pw * s.h ≤ s.caps.pkd → s.r < s.h → s.c ≤ s.pw →
      ∃ t, exec .runFind s = .next t ∧ t = { s with rfLen := t.rfLen, rfPos := t.rfPos, status := stDone } ∧
        (t.rfLen.toNat, t.rfPos.toNat) = runFind (Memory.slice s.pkd (s.r * s.pw + s.c) (s.pw - s.c)))

/-- R116: RF_LEN and RF_POS hold the pair, length first, and its shape, n = PW - COL being the slice's length. -/
def Obligations.RunFindPairShape : Prop :=
  ∀ s t : State, ¬ s.faulted → exec .runFind s = .next t → ¬ t.faulted →
    t.rfLen.toNat = (runFind (Memory.slice s.pkd (s.r * s.pw + s.c) (s.pw - s.c))).1 ∧
    t.rfPos.toNat = (runFind (Memory.slice s.pkd (s.r * s.pw + s.c) (s.pw - s.c))).2 ∧
    t.rfPos.toNat + t.rfLen.toNat ≤ s.pw - s.c ∧ (t.rfLen = 0 ∨ 3 ≤ t.rfLen.toNat) ∧
    (t.rfLen = 0 → t.rfPos.toNat = s.pw - s.c) ∧ (3 ≤ t.rfLen.toNat → t.rfPos.toNat ≤ s.pw - s.c - 3) ∧
    (s.c = s.pw → t.rfLen = 0 ∧ t.rfPos = 0)

/-! ### Nibble packer (43_nibble_packer.md) -/

/-- The two functions as formulas over naturals (R125), the bits of a packed byte (30_encoding.md R64), and that only the low
nibble of a pixel byte is used (R129). -/
def Obligations.NibbleFunctions : Prop :=
  (∀ l r : Byte, (pack2 l r).toNat = ((l.toNat <<< 4) ||| (r.toNat &&& 0x0F)) &&& 0xFF) ∧
  (∀ b : Byte, (unpackLeft b).toNat = (b.toNat >>> 4) &&& 0x0F ∧ (unpackRight b).toNat = b.toNat &&& 0x0F) ∧
  (∀ l r : Byte, (pack2 l r).toNat = 16 * (l.toNat % 16) + r.toNat % 16)

/-- R140: the pixel address and the row-order translation; ExtRow is its own inverse and stays in range, and distinct pixels have
distinct addresses inside the image. -/
def Obligations.RowOrderAddressing : Prop :=
  ∀ s : State,
    (∀ r x, s.pixAddr r x = s.extRow r * s.w + x) ∧
    (s.ctrl = 0 → ∀ r, s.extRow r = r) ∧ (s.ctrl = 1 → ∀ r, s.extRow r = s.h - 1 - r) ∧
    (∀ r, r < s.h → s.extRow r < s.h ∧ s.extRow (s.extRow r) = r) ∧
    (∀ r x, r < s.h → x < s.w → s.pixAddr r x < s.w * s.h) ∧
    ∀ r x r' x', r < s.h → x < s.w → r' < s.h → x' < s.w → s.pixAddr r x = s.pixAddr r' x' → r = r' ∧ x = x'

/-- PACK: every packed byte of the image from the two pixels it stands for, in the row order CTRL tells; ROW = H, COL = 0, DONE; all
else unchanged (R126, R130, R133). -/
def Obligations.PackPacks : Prop :=
  ∀ s : State, s.packReady →
    ∃ t, exec .pack s = .next t ∧ t = { s with pkd := t.pkd, row := s.height, col := 0, status := stDone } ∧
      (∀ r c, r < s.h → c < s.pw → Memory.read t.pkd (r * s.pw + c) =
        pack2 (Memory.read s.pix (s.pixAddr r (2 * c))) (Memory.read s.pix (s.pixAddr r (2 * c + 1)))) ∧
      ∀ a, s.pw * s.h ≤ a → Memory.read t.pkd a = Memory.read s.pkd a

/-- UNPACK: both pixels of every packed byte, each in 0 to 15, in the row order CTRL tells; ROW = H, COL = 0, DONE; all else unchanged
(R127, R133). -/
def Obligations.UnpackUnpacks : Prop :=
  ∀ s : State, s.packReady →
    ∃ t, exec .unpack s = .next t ∧ t = { s with pix := t.pix, row := s.height, col := 0, status := stDone } ∧
      (∀ r c, r < s.h → c < s.pw →
        Memory.read t.pix (s.pixAddr r (2 * c)) = unpackLeft (Memory.read s.pkd (r * s.pw + c)) ∧
        Memory.read t.pix (s.pixAddr r (2 * c + 1)) = unpackRight (Memory.read s.pkd (r * s.pw + c))) ∧
      (∀ a, a < s.w * s.h → (Memory.read t.pix a).toNat < 16) ∧
      ∀ a, s.w * s.h ≤ a → Memory.read t.pix a = Memory.read s.pix a

/-- R131: PACK followed by UNPACK leaves the low nibble of every pixel byte, hence the pixels themselves when all are in 0 to 15. -/
def Obligations.PackThenUnpack : Prop :=
  ∀ s : State, s.packReady →
    ∃ t u, exec .pack s = .next t ∧ exec .unpack t = .next u ∧ u.status = stDone ∧
      (∀ a, a < s.w * s.h → Memory.read u.pix a = Memory.read s.pix a &&& 0x0F#8) ∧
      ((∀ a, a < s.w * s.h → (Memory.read s.pix a).toNat ≤ 15) →
        ∀ a, Memory.read u.pix a = Memory.read s.pix a)

/-- R132: pack2 of unpack2 of a byte is that byte, and UNPACK followed by PACK leaves the packed image as it was. -/
def Obligations.UnpackThenPack : Prop :=
  (∀ b : Byte, pack2 (unpackLeft b) (unpackRight b) = b) ∧
  ∀ s : State, s.packReady →
    ∃ t u, exec .unpack s = .next t ∧ exec .pack t = .next u ∧ u.status = stDone ∧
      ∀ a, Memory.read u.pkd a = Memory.read s.pkd a

/-! ### RLE decoder (40_rle_decoder.md) -/

/-- R81: LIT. The overrun comes before the truncation; a faulting token writes nothing of STR_POS, ROW, COL or memory; a token that
fits writes its raw bytes to the line, moves past itself and advances the row when it completes it (R84). -/
def Obligations.LitExecutes : Prop :=
  (∀ code : Byte, code &&& 0x80#8 = 0x00#8 → decodeToken code = .lit (code.toNat + 1)) ∧
  ∀ (n : Nat) (s : State), 1 ≤ n → n ≤ 128 → ¬ s.faulted → s.dimsLegal →
    (s.pw - s.c < n → exec (.lit n) s = .next (State.withFault { s with len := BitVec.ofNat 8 n } 0x302#12)) ∧
    (n ≤ s.pw - s.c → s.slen < s.pos + 1 + n →
      exec (.lit n) s = .next (State.withFault { s with len := BitVec.ofNat 8 n } 0x301#12)) ∧
    (n ≤ s.pw - s.c → s.pos + 1 + n ≤ s.slen → s.slen ≤ s.caps.str → s.r < s.h → s.pw * s.h ≤ s.caps.pkd →
      ∃ t, exec (.lit n) s = .next t ∧
        t = { s with len := BitVec.ofNat 8 n, pkd := t.pkd, strPos := t.strPos, row := t.row, col := t.col } ∧
        t.pos = s.pos + 1 + n ∧
        (∀ k, k < n → Memory.read t.pkd (s.r * s.pw + s.c + k) = Memory.read s.str (s.pos + 1 + k)) ∧
        (∀ a, a < s.r * s.pw + s.c ∨ s.r * s.pw + s.c + n ≤ a → Memory.read t.pkd a = Memory.read s.pkd a) ∧
        (if s.c + n = s.pw then t.r = s.r + 1 ∧ t.c = 0 else t.r = s.r ∧ t.c = s.c + n))

/-- R82: REP. The missing value byte comes before the overrun. -/
def Obligations.RepExecutes : Prop :=
  (∀ code : Byte, code &&& 0x80#8 = 0x80#8 → decodeToken code = .rep ((code &&& 0x7F#8).toNat + 3)) ∧
  ∀ (n : Nat) (s : State), 3 ≤ n → n ≤ 130 → ¬ s.faulted → s.dimsLegal →
    (s.slen < s.pos + 2 → exec (.rep n) s = .next (State.withFault { s with len := BitVec.ofNat 8 n } 0x301#12)) ∧
    (s.pos + 2 ≤ s.slen → s.slen ≤ s.caps.str → s.pw - s.c < n →
      exec (.rep n) s = .next (State.withFault
        { s with len := BitVec.ofNat 8 n, val := Memory.read s.str (s.pos + 1) } 0x302#12)) ∧
    (s.pos + 2 ≤ s.slen → s.slen ≤ s.caps.str → n ≤ s.pw - s.c → s.r < s.h → s.pw * s.h ≤ s.caps.pkd →
      ∃ t, exec (.rep n) s = .next t ∧
        t = { s with
          len := BitVec.ofNat 8 n, val := Memory.read s.str (s.pos + 1),
          pkd := t.pkd, strPos := t.strPos, row := t.row, col := t.col } ∧
        t.pos = s.pos + 2 ∧
        (∀ k, k < n → Memory.read t.pkd (s.r * s.pw + s.c + k) = Memory.read s.str (s.pos + 1)) ∧
        (∀ a, a < s.r * s.pw + s.c ∨ s.r * s.pw + s.c + n ≤ a → Memory.read t.pkd a = Memory.read s.pkd a) ∧
        (if s.c + n = s.pw then t.r = s.r + 1 ∧ t.c = 0 else t.r = s.r ∧ t.c = s.c + n))

/-- Where a token run on its own, outside RLE_DEC, stops or is ignored: the model's own choice (log entry 8), for a state in which the
bytes it would reach are not there, or that is FAULTED. -/
def Obligations.TokenAloneStops : Prop :=
  (∀ (n : Nat) (s : State), ¬ s.faulted → n ≤ s.pw - s.c → s.pos + 1 + n ≤ s.slen →
    (s.caps.str < s.pos + 1 + n → exec (.lit n) s = .fault (.noSuchAddress .str)) ∧
    (s.pos + 1 + n ≤ s.caps.str → s.caps.pkd < s.r * s.pw + s.c + n → exec (.lit n) s = .fault (.noSuchAddress .pkd))) ∧
  (∀ (n : Nat) (s : State), ¬ s.faulted → s.pos + 2 ≤ s.slen →
    (s.caps.str < s.pos + 2 → exec (.rep n) s = .fault (.noSuchAddress .str)) ∧
    (s.pos + 2 ≤ s.caps.str → n ≤ s.pw - s.c → s.caps.pkd < s.r * s.pw + s.c + n →
      exec (.rep n) s = .fault (.noSuchAddress .pkd))) ∧
  (∀ (n : Nat) (s : State), s.faulted → exec (.lit n) s = .next s ∧ exec (.rep n) s = .next s)

/-- Every stream of the grammar that stands for an image of the given dimensions is decoded to it, whatever tokens it is made of
(R70, R74, R80), with the state R87 gives: the image in PKD, STR_POS = STR_LEN, ROW = H, COL = 0, DONE, all else unchanged. -/
def Obligations.RleDecDecodesImage : Prop :=
  ∀ (s : State) (d : List Byte), s.decReady → ImageTokens s.pw s.h s.stream d →
    ∃ t, exec .rleDec s = .next t ∧
      t = { s with
        status := stDone, strPos := s.strLen, row := s.height, col := 0,
        code := t.code, len := t.len, val := t.val, pkd := t.pkd } ∧
      t.packedImage = d ∧ ∀ a, s.pw * s.h ≤ a → Memory.read t.pkd a = Memory.read s.pkd a

/-- A stream RLE_DEC completes on is one of the grammar, and what it leaves in PKD is the image the stream stands for: nothing else
is accepted (R65, R74, R85). -/
def Obligations.RleDecAcceptsOnlyGrammar : Prop :=
  ∀ s t : State, ¬ s.faulted → exec .rleDec s = .next t → ¬ t.faulted →
    ImageTokens s.pw s.h s.stream t.packedImage

/-- The first bad token ends the decode (R86, R88, 60_exceptions.md R169): `e` is the tokens before it, `k` whole rows and the part of
a row `d2`; their bytes are in PKD, the cursors stand at the bad token, the fault is the one the order of R86 gives. -/
def Obligations.RleDecBadToken : Prop :=
  ∀ (s : State) (k : Nat) (e1 d1 e2 d2 rest : List Byte) (code : Byte) (f : FaultCode), s.decReady → k < s.h →
    ImageTokens s.pw k e1 d1 → RowTokens e2 d2 → d2.length < s.pw → s.stream = e1 ++ e2 ++ code :: rest →
    tokenFault code (s.pw - d2.length) rest.length = some f →
    ∃ t, exec .rleDec s = .next t ∧
      t = { s with
        status := stFaulted, fault := faultWord f 0 0x3, strPos := t.strPos, row := t.row, col := t.col,
        code := t.code, len := t.len, val := t.val, pkd := t.pkd } ∧
      t.pos = s.pos + (e1 ++ e2).length ∧ t.r = k ∧ t.c = d2.length ∧
      Memory.slice t.pkd 0 (d1 ++ d2).length = d1 ++ d2 ∧
      ∀ a, (d1 ++ d2).length ≤ a → Memory.read t.pkd a = Memory.read s.pkd a

/-- R85: the stream ends with rows missing, or goes on after the last row: CorruptStream(1), the surplus byte not fetched. -/
def Obligations.RleDecSizeMismatch : Prop :=
  (∀ (s : State) (k : Nat) (e1 d1 e2 d2 : List Byte), s.decReady → k < s.h → ImageTokens s.pw k e1 d1 →
    RowTokens e2 d2 → d2.length < s.pw → s.stream = e1 ++ e2 →
    ∃ t, exec .rleDec s = .next t ∧
      t = { s with
        status := stFaulted, fault := 0x312#12, strPos := s.strLen, row := t.row, col := t.col,
        code := t.code, len := t.len, val := t.val, pkd := t.pkd } ∧
      t.r = k ∧ t.c = d2.length ∧ Memory.slice t.pkd 0 (d1 ++ d2).length = d1 ++ d2 ∧
      ∀ a, (d1 ++ d2).length ≤ a → Memory.read t.pkd a = Memory.read s.pkd a) ∧
  (∀ (s : State) (e1 d1 rest : List Byte), s.decReady → ImageTokens s.pw s.h e1 d1 → rest ≠ [] →
    s.stream = e1 ++ rest →
    ∃ t, exec .rleDec s = .next t ∧
      t = { s with
        status := stFaulted, fault := 0x312#12, strPos := t.strPos, row := s.height, col := 0,
        code := t.code, len := t.len, val := t.val, pkd := t.pkd } ∧
      t.pos = s.pos + e1.length ∧ t.packedImage = d1 ∧
      ∀ a, s.pw * s.h ≤ a → Memory.read t.pkd a = Memory.read s.pkd a)

/-- R92: RLE_DEC executes at most floor((STR_LEN - STR_POS) / 2) tokens: with one more turn of the loop than that, it has ended at a
fault or with the stream exhausted, and more turns change nothing. -/
def Obligations.RleDecTerminates : Prop :=
  ∀ (fuel : Nat) (s : State), s.dimsLegal → s.pos ≤ s.slen → s.r ≤ s.h → (s.slen - s.pos) / 2 < fuel →
    ((decodeLoop fuel s).faulted ∨ (decodeLoop fuel s).pos = s.slen) ∧
    ∀ more, decodeLoop (fuel + more) s = decodeLoop fuel s

/-- R89: if a stream decodes to the rows of one image and another to those of a second of the same width, the first followed by the
second decodes to the rows of the first and then of the second. -/
def Obligations.RowIndependence : Prop :=
  ∀ a ta b tb s : State, ¬ a.faulted → ¬ b.faulted → exec .rleDec a = .next ta → ¬ ta.faulted →
    exec .rleDec b = .next tb → ¬ tb.faulted → s.decReady → s.pw = a.pw → s.pw = b.pw → s.h = a.h + b.h →
    s.stream = a.stream ++ b.stream →
    ∃ t, exec .rleDec s = .next t ∧ t.status = stDone ∧ t.packedImage = ta.packedImage ++ tb.packedImage

/-- Stale cursors (70_reset_and_hazards.md R191): after RLE_DEC, RLE_ENC, PACK or UNPACK completes, RUNFIND faults; after RLE_DEC a
second RLE_DEC finds an empty stream. -/
def Obligations.StaleCursors : Prop :=
  (∀ (i : Instr) (s t : State), i = .rleDec ∨ i = .rleEnc ∨ i = .pack ∨ i = .unpack → s.caps.legal → ¬ s.faulted →
    exec i s = .next t → ¬ t.faulted →
    t.r = t.h ∧ t.width = s.width ∧ t.height = s.height ∧ exec .runFind t = .next (t.withFault 0x716#12)) ∧
  (∀ s t : State, ¬ s.faulted → exec .rleDec s = .next t → ¬ t.faulted →
    exec .rleDec t = .next (State.withFault { t with row := 0, col := 0 } 0x312#12))

/-! ### RLE encoder (41_rle_encoder.md) -/

/-- RLE_ENC writes exactly the greedy encoding of the packed image, row by row, at STR_POS (R100, R101, R104, R105, R107), and leaves
the state R108 gives. -/
def Obligations.RleEncEmitsGreedyStream : Prop :=
  ∀ s : State, s.encReady → s.caps.legal → s.pos + s.encodedImage.length ≤ s.caps.str →
    ∃ t, exec .rleEnc s = .next t ∧
      t = { s with
        status := stDone, str := t.str, strPos := t.strPos, strLen := t.strPos, row := s.height, col := 0,
        rfLen := t.rfLen, rfPos := t.rfPos } ∧
      t.pos = s.pos + s.encodedImage.length ∧ Memory.slice t.str s.pos s.encodedImage.length = s.encodedImage ∧
      (∀ a, a < s.pos ∨ t.pos ≤ a → Memory.read t.str a = Memory.read s.str a) ∧
      (t.rfLen.toNat, t.rfPos.toNat) = lastRun s.pw (s.packedRow (s.h - 1))

/-- R109: when the stream does not fit, the whole tokens before the first that does not are in place and that one has written nothing;
STR_POS is where it would go, STR_LEN is unchanged, ROW is the row and COL the column at which the iteration began. `head` is the
tokens of the row's iterations that came through, `pre` those of the last iteration that fitted, `tok` the one that did not. -/
def Obligations.RleEncOverflow : Prop :=
  ∀ s : State, s.encReady → s.caps.legal → s.caps.str < s.pos + s.encodedImage.length →
    ∃ (t : State) (r c k : Nat) (head pre tok d dt : List Byte),
      exec .rleEnc s = .next t ∧
      t = { s with
        status := stFaulted, fault := 0x405#12, str := t.str, strPos := t.strPos, row := t.row, col := t.col,
        rfLen := t.rfLen, rfPos := t.rfPos } ∧
      t.r = r ∧ t.c = c ∧ r < s.h ∧ c < s.pw ∧
      encodeRowBytes s.pw (s.packedRow r) = head ++ encodeRowBytes k ((s.packedRow r).drop c) ∧
      RowTokens head ((s.packedRow r).take c) ∧ pre ++ tok <+: stepBytes ((s.packedRow r).drop c) ∧
      RowTokens pre d ∧ IsToken tok dt ∧
      let out := (List.range r).flatMap (fun r => encodeRowBytes s.pw (s.packedRow r)) ++ head ++ pre
      t.pos = s.pos + out.length ∧ t.pos ≤ s.caps.str ∧ s.caps.str < t.pos + tok.length ∧
      Memory.slice t.str s.pos out.length = out ∧
      (∀ a, a < s.pos ∨ t.pos ≤ a → Memory.read t.str a = Memory.read s.str a) ∧
      (t.rfLen.toNat, t.rfPos.toNat) = runFind ((s.packedRow r).drop c)

/-- R110: the token stream is at most twice the packed image, so with room for 4 + 2 * PW * H bytes and STR_POS = 4 RLE_ENC completes. -/
def Obligations.RleEncSizeBound : Prop :=
  (∀ s : State, s.encodedImage.length ≤ 2 * (s.pw * s.h)) ∧
  ∀ s : State, ¬ s.faulted → s.dimsLegal → s.pw * s.h ≤ s.caps.pkd → s.caps.legal → s.pos = 4 →
    4 + 2 * (s.pw * s.h) ≤ s.caps.str → ∃ t, exec .rleEnc s = .next t ∧ t.status = stDone

/-- LITSPAN and REPSPAN in closed form (R102, R103), with the token counts of R111: a literal span of m bytes is ceil(m/128) literal
tokens, all but the last of length 128; a run of n is n / 130 tokens of 130 and a last one for the rest, a literal token for a
rest of 1 or 2. -/
def Obligations.SpanExpansions : Prop :=
  (∀ raw : List Byte, litSpanBytes raw.length raw =
    (List.range ((raw.length + 127) / 128)).flatMap (fun i => litBytes ((raw.drop (128 * i)).take 128))) ∧
  (∀ raw : List Byte, (litSpanBytes raw.length raw).length = raw.length + (raw.length + 127) / 128) ∧
  (∀ (n : Nat) (v : Byte), repSpanBytes n n v =
    (List.replicate (n / 130) [0xFF#8, v]).flatten ++
      (if n % 130 = 0 then [] else if n % 130 = 1 then [0x00#8, v] else if n % 130 = 2 then [0x01#8, v, v]
       else [BitVec.ofNat 8 ((n % 130 - 3) + 0x80), v]))

/-- R106, R107: the rows the spec encodes by hand. -/
def Obligations.EncoderExamples : Prop :=
  encodeRowBytes 9 [0x05#8, 0x05#8, 0x05#8, 0x07#8, 0x07#8, 0x09#8, 0x09#8, 0x09#8, 0x09#8] =
    [0x80#8, 0x05#8, 0x01#8, 0x07#8, 0x07#8, 0x81#8, 0x09#8] ∧
  encodeRowBytes 4 [0x05#8, 0x05#8, 0x07#8, 0x07#8] = [0x03#8, 0x05#8, 0x05#8, 0x07#8, 0x07#8] ∧
  encodeRowBytes 10 [0x01#8, 0x02#8, 0x02#8, 0x02#8, 0x03#8, 0x04#8, 0x04#8, 0x04#8, 0x04#8, 0x05#8] =
    [0x00#8, 0x01#8, 0x80#8, 0x02#8, 0x00#8, 0x03#8, 0x81#8, 0x04#8, 0x00#8, 0x05#8]

/-- R90: if RLE_ENC completes from STR_POS = p, then RLE_DEC started with STR_POS = p and the STR_LEN it left, in any state with the
same stream and dimensions (whatever PKD holds), completes and writes the packed image back. -/
def Obligations.RleRoundTrip : Prop :=
  ∀ s t u : State, ¬ s.faulted → s.caps.legal → exec .rleEnc s = .next t → ¬ t.faulted →
    ¬ u.faulted → u.str = t.str → u.strLen = t.strLen → u.strPos = s.strPos → u.width = t.width → u.height = t.height →
    u.caps = t.caps →
    ∃ v, exec .rleDec u = .next v ∧ v.status = stDone ∧ v.packedImage = s.packedImage

/-! ### Composites (44_scanline_buffer_controller.md) -/

/-- DECODE on a whole encoded stream (R150): dimensions from the header, the packed image and the pixel image, STR_POS = STR_LEN,
ROW = H, COL = 0, DONE, all else unchanged. -/
def Obligations.DecodeDecodesStream : Prop :=
  ∀ (s : State) (d : List Byte), ¬ s.faulted → 4 ≤ s.slen → s.slen ≤ s.caps.str → s.headerWidth % 2 = 0 →
    (s.headerWidth + 1) / 2 * s.headerHeight ≤ s.caps.pkd → s.headerWidth * s.headerHeight ≤ s.caps.pix →
    ImageTokens ((s.headerWidth + 1) / 2) s.headerHeight (Memory.slice s.str 4 (s.slen - 4)) d →
    ∃ t, exec .decodeImage s = .next t ∧
      t = { s with
        status := stDone, width := t.width, height := t.height, strPos := s.strLen, row := t.height, col := 0,
        code := t.code, len := t.len, val := t.val, pkd := t.pkd, pix := t.pix } ∧
      t.w = s.headerWidth ∧ t.h = s.headerHeight ∧ t.packedImage = d ∧
      (∀ r c, r < t.h → c < t.pw →
        Memory.read t.pix (t.pixAddr r (2 * c)) = unpackLeft (d.getD (r * t.pw + c) 0) ∧
        Memory.read t.pix (t.pixAddr r (2 * c + 1)) = unpackRight (d.getD (r * t.pw + c) 0)) ∧
      (∀ a, t.pw * t.h ≤ a → Memory.read t.pkd a = Memory.read s.pkd a) ∧
      ∀ a, t.w * t.h ≤ a → Memory.read t.pix a = Memory.read s.pix a

/-- ENCODE on a pixel image whose stream fits (R151): the header and the tokens from address 0 on, STR_POS = STR_LEN = their end, the
packed image in PKD, ROW = H, COL = 0, DONE, all else unchanged. -/
def Obligations.EncodeEncodesImage : Prop :=
  ∀ s : State, s.packReady → s.caps.legal → 4 + s.encodedPixels.length ≤ s.caps.str →
    ∃ t, exec .encodeImage s = .next t ∧
      t = { s with
        status := stDone, str := t.str, strPos := t.strPos, strLen := t.strPos, row := s.height, col := 0,
        rfLen := t.rfLen, rfPos := t.rfPos, pkd := t.pkd } ∧
      t.slen = 4 + s.encodedPixels.length ∧
      Memory.slice t.str 0 t.slen = headerBytes s.w s.h ++ s.encodedPixels ∧
      (∀ a, t.slen ≤ a → Memory.read t.str a = Memory.read s.str a) ∧
      (∀ r c, r < s.h → c < s.pw → Memory.read t.pkd (r * s.pw + c) = s.packedOf r c) ∧
      (∀ a, s.pw * s.h ≤ a → Memory.read t.pkd a = Memory.read s.pkd a) ∧
      (t.rfLen.toNat, t.rfPos.toNat) = lastRun s.pw ((List.range s.pw).map (s.packedOf (s.h - 1)))

/-- ENCODE followed by DECODE returns the pixel image, when every pixel byte is in 0 to 15 (R153). -/
def Obligations.EncodeThenDecode : Prop :=
  ∀ s t : State, ¬ s.faulted → s.caps.legal → (∀ a, a < s.w * s.h → (Memory.read s.pix a).toNat ≤ 15) →
    exec .encodeImage s = .next t → ¬ t.faulted →
    ∃ u, exec .decodeImage t = .next u ∧ u.status = stDone ∧ u.width = s.width ∧ u.height = s.height ∧
      ∀ a, Memory.read u.pix a = Memory.read s.pix a

/-- R152: a composite runs its constituents one after the other, each as if the host had issued it, stops at the first that faults,
and FAULT.STAGE names that one. -/
def Obligations.CompositesStopAtFirstFault : Prop :=
  (∀ s : State, ¬ s.faulted →
    ∃ t1 t2 t3, exec .hdrRd s = .next t1 ∧ exec .rleDec t1 = .next t2 ∧ exec .unpack t2 = .next t3 ∧
      exec .decodeImage s = .next t3 ∧
      (t1.faulted → t3 = t1 ∧ t3.faultStage = 0x1) ∧
      (¬ t1.faulted → t2.faulted → t3 = t2 ∧ t3.faultStage = 0x3) ∧
      (¬ t2.faulted → t3.faulted → t3.faultStage = 0x6)) ∧
  (∀ s : State, ¬ s.faulted →
    ∃ t1 t2 t3, exec .pack s = .next t1 ∧ exec .hdrWr t1 = .next t2 ∧ exec .rleEnc t2 = .next t3 ∧
      exec .encodeImage s = .next t3 ∧
      (t1.faulted → t3 = t1 ∧ t3.faultStage = 0x5) ∧
      (¬ t1.faulted → t2.faulted → t3 = t2 ∧ t3.faultStage = 0x2) ∧
      (¬ t2.faulted → t3.faulted → t3.faultStage = 0x4))
end

