-- ==== Sys2Proof/Laws/State.lean ====
section
/-! SUPPORT. What each named update does to each field: one lemma per field per update, all by rfl, so that no later proof
unfolds a record update. -/

namespace Sys2Proof.Machine

variable (s : State) (f : FaultCode) (sub op v : Nat)

/-! ### raise -/

@[simp] theorem raise_status : (raise f sub op s).status = stFaulted := rfl
@[simp] theorem raise_fault : (raise f sub op s).fault = faultWord f sub op := rfl
@[simp] theorem raise_ctrl : (raise f sub op s).ctrl = s.ctrl := rfl
@[simp] theorem raise_width : (raise f sub op s).width = s.width := rfl
@[simp] theorem raise_height : (raise f sub op s).height = s.height := rfl
@[simp] theorem raise_strLen : (raise f sub op s).strLen = s.strLen := rfl
@[simp] theorem raise_strPos : (raise f sub op s).strPos = s.strPos := rfl
@[simp] theorem raise_row : (raise f sub op s).row = s.row := rfl
@[simp] theorem raise_col : (raise f sub op s).col = s.col := rfl
@[simp] theorem raise_rfLen : (raise f sub op s).rfLen = s.rfLen := rfl
@[simp] theorem raise_rfPos : (raise f sub op s).rfPos = s.rfPos := rfl
@[simp] theorem raise_code : (raise f sub op s).code = s.code := rfl
@[simp] theorem raise_len : (raise f sub op s).len = s.len := rfl
@[simp] theorem raise_val : (raise f sub op s).val = s.val := rfl
@[simp] theorem raise_str : (raise f sub op s).str = s.str := rfl
@[simp] theorem raise_pkd : (raise f sub op s).pkd = s.pkd := rfl
@[simp] theorem raise_pix : (raise f sub op s).pix = s.pix := rfl
@[simp] theorem raise_caps : (raise f sub op s).caps = s.caps := rfl
@[simp] theorem raise_host : (raise f sub op s).host = s.host := rfl
@[simp] theorem raise_readBack : (raise f sub op s).readBack = s.readBack := rfl

/-! ### finish -/

@[simp] theorem finish_status : (finish s).status = stDone := rfl
@[simp] theorem finish_fault : (finish s).fault = s.fault := rfl
@[simp] theorem finish_ctrl : (finish s).ctrl = s.ctrl := rfl
@[simp] theorem finish_width : (finish s).width = s.width := rfl
@[simp] theorem finish_height : (finish s).height = s.height := rfl
@[simp] theorem finish_strLen : (finish s).strLen = s.strLen := rfl
@[simp] theorem finish_strPos : (finish s).strPos = s.strPos := rfl
@[simp] theorem finish_row : (finish s).row = s.row := rfl
@[simp] theorem finish_col : (finish s).col = s.col := rfl
@[simp] theorem finish_rfLen : (finish s).rfLen = s.rfLen := rfl
@[simp] theorem finish_rfPos : (finish s).rfPos = s.rfPos := rfl
@[simp] theorem finish_code : (finish s).code = s.code := rfl
@[simp] theorem finish_len : (finish s).len = s.len := rfl
@[simp] theorem finish_val : (finish s).val = s.val := rfl
@[simp] theorem finish_str : (finish s).str = s.str := rfl
@[simp] theorem finish_pkd : (finish s).pkd = s.pkd := rfl
@[simp] theorem finish_pix : (finish s).pix = s.pix := rfl
@[simp] theorem finish_caps : (finish s).caps = s.caps := rfl
@[simp] theorem finish_host : (finish s).host = s.host := rfl
@[simp] theorem finish_readBack : (finish s).readBack = s.readBack := rfl

/-! ### resetRegisters -/

@[simp] theorem resetRegisters_status : (resetRegisters s).status = stIdle := rfl
@[simp] theorem resetRegisters_fault : (resetRegisters s).fault = 0 := rfl
@[simp] theorem resetRegisters_ctrl : (resetRegisters s).ctrl = 0 := rfl
@[simp] theorem resetRegisters_width : (resetRegisters s).width = 0 := rfl
@[simp] theorem resetRegisters_height : (resetRegisters s).height = 0 := rfl
@[simp] theorem resetRegisters_strLen : (resetRegisters s).strLen = 0 := rfl
@[simp] theorem resetRegisters_strPos : (resetRegisters s).strPos = 0 := rfl
@[simp] theorem resetRegisters_row : (resetRegisters s).row = 0 := rfl
@[simp] theorem resetRegisters_col : (resetRegisters s).col = 0 := rfl
@[simp] theorem resetRegisters_rfLen : (resetRegisters s).rfLen = 0 := rfl
@[simp] theorem resetRegisters_rfPos : (resetRegisters s).rfPos = 0 := rfl
@[simp] theorem resetRegisters_code : (resetRegisters s).code = 0 := rfl
@[simp] theorem resetRegisters_len : (resetRegisters s).len = 0 := rfl
@[simp] theorem resetRegisters_val : (resetRegisters s).val = 0 := rfl
@[simp] theorem resetRegisters_str : (resetRegisters s).str = s.str := rfl
@[simp] theorem resetRegisters_pkd : (resetRegisters s).pkd = s.pkd := rfl
@[simp] theorem resetRegisters_pix : (resetRegisters s).pix = s.pix := rfl
@[simp] theorem resetRegisters_caps : (resetRegisters s).caps = s.caps := rfl
@[simp] theorem resetRegisters_host : (resetRegisters s).host = s.host := rfl
@[simp] theorem resetRegisters_readBack : (resetRegisters s).readBack = s.readBack := rfl

/-! ### answerHost, setMem -/

theorem answerHost_eq : answerHost v s = { s with readBack := v :: s.readBack } := rfl

@[simp] theorem mem_setMem (sp : Space) (m : Memory) : (s.setMem sp m).mem sp = m := by cases sp <;> rfl

theorem mem_setMem_of_ne {sp sp' : Space} (m : Memory) (h : sp' ≠ sp) : (s.setMem sp m).mem sp' = s.mem sp' := by
  cases sp <;> cases sp' <;> first | rfl | exact absurd rfl h

/-! ### The STATUS codes differ -/

theorem stDone_ne_stFaulted : stDone ≠ stFaulted := by decide

theorem stIdle_ne_stFaulted : stIdle ≠ stFaulted := by decide

end Sys2Proof.Machine
end

