-- ==== Sys2Proof/Laws/Command.lean ====
section
/-! SUPPORT. What a primitive command can do, said once: ignored while FAULTED, the first failing start check, or the
body; and what the start checks of R168 say when they pass. -/

namespace Sys2Proof.Machine

variable {s : State} {op : Nat} {checks : State → List Check} {body : State → State}

theorem command_of_faulted (h : s.faulted) : command op checks body s = s := by
  simp [command, h]

theorem command_of_pass (h : ¬ s.faulted) (hk : firstFailure (checks s) = none) : command op checks body s = body s := by
  simp [command, h, hk]

theorem command_of_fail (h : ¬ s.faulted) {k : Check} (hk : firstFailure (checks s) = some k) :
    command op checks body s = raise k.code k.sub op s := by
  simp [command, h, hk]

/-- The three things a primitive command can do. -/
theorem command_cases (op : Nat) (checks : State → List Check) (body : State → State) (s : State) :
    (s.faulted ∧ command op checks body s = s) ∨
    (¬ s.faulted ∧ (∃ k ∈ checks s, k.fails = true ∧ command op checks body s = raise k.code k.sub op s)) ∨
    (¬ s.faulted ∧ (∀ k ∈ checks s, k.fails = false) ∧ command op checks body s = body s) := by
  have hff : ∀ ks : List Check, (∃ k ∈ ks, k.fails = true ∧ firstFailure ks = some k) ∨
      ((∀ k ∈ ks, k.fails = false) ∧ firstFailure ks = none) := by
    intro ks
    induction ks with
    | nil => exact .inr ⟨by simp, rfl⟩
    | cons k ks ih =>
      cases hk : k.fails with
      | true => exact .inl ⟨k, by simp, hk, by simp [firstFailure, hk]⟩
      | false =>
        rcases ih with ⟨k', hm, hf, he⟩ | ⟨ha, he⟩
        · exact .inl ⟨k', by simp [hm], hf, by simp [firstFailure, hk, he]⟩
        · exact .inr ⟨by simpa [hk] using ha, by simp [firstFailure, hk, he]⟩
  by_cases h : s.faulted
  · exact .inl ⟨h, command_of_faulted h⟩
  · rcases hff (checks s) with ⟨k, hm, hf, he⟩ | ⟨ha, he⟩
    · exact .inr (.inl ⟨h, k, hm, hf, command_of_fail h he⟩)
    · exact .inr (.inr ⟨h, ha, command_of_pass h he⟩)

theorem dimsCheck_passes (s : State) : (dimsCheck s).fails = false ↔ s.dimsLegal := by
  simp only [dimsCheck, decide_eq_false_iff_not]; omega

theorem pkdCheck_passes (s : State) : (pkdCheck s).fails = false ↔ s.pw * s.h ≤ s.caps.pkd := by
  simp only [pkdCheck, decide_eq_false_iff_not]; omega

theorem pixCheck_passes (s : State) : (pixCheck s).fails = false ↔ s.w * s.h ≤ s.caps.pix := by
  simp only [pixCheck, decide_eq_false_iff_not]; omega

theorem evenCheck_passes (s : State) : (evenCheck s).fails = false ↔ s.w % 2 = 0 := by
  simp only [evenCheck, decide_eq_false_iff_not]; omega

theorem pw_eq (s : State) : s.pw = (s.w + 1) / 2 := by
  simp [State.pw, Nat.shiftRight_eq_div_pow]

/-- A legal width makes PW a number of 1 to 32768 (R14). -/
theorem pw_bounds {s : State} (h : s.dimsLegal) : 1 ≤ s.pw ∧ s.pw ≤ 32768 := by
  rw [pw_eq]; omega

end Sys2Proof.Machine
end

