-- ==== Sys2Proof/Laws/Memory.lean ====
section
/-! SUPPORT. What reading gives after every memory operation, and that each keeps the canonical form and the bound on the
listed addresses. The read laws hold for every list, canonical or not. -/

namespace Sys2Proof.Machine

/-! ### Reading after an operation -/

@[simp] theorem Memory.read_nil (a : Nat) : Memory.read [] a = Memory.unlisted := rfl

theorem Memory.read_erase (m : Memory) (a x : Nat) :
    Memory.read (Memory.erase m a) x = if x = a then Memory.unlisted else Memory.read m x := by
  induction m with
  | nil => simp [Memory.erase]
  | cons e m ih =>
    obtain ⟨k, v⟩ := e
    by_cases hk : k = a
    · subst hk
      by_cases hx : x = k
      · subst hx; simpa [Memory.erase] using ih
      · simp [Memory.erase, ih, hx, Memory.read, Ne.symm hx]
    · by_cases hx : x = a
      · subst hx; simp [Memory.erase, hk, Memory.read, ih]
      · simp [Memory.erase, hk, Memory.read, ih, hx]

theorem Memory.read_place (m : Memory) (a x : Nat) (b : Byte) (ha : ∀ e ∈ m, e.1 ≠ a) :
    Memory.read (Memory.place m a b) x = if x = a then b else Memory.read m x := by
  induction m with
  | nil => simp [Memory.place, Memory.read, eq_comm]
  | cons e m ih =>
    obtain ⟨k, v⟩ := e
    have hk : k ≠ a := ha (k, v) (by simp)
    have ih := ih (fun e he => ha e (by simp [he]))
    by_cases hlt : a < k
    · simp [Memory.place, hlt, Memory.read, eq_comm]
    · by_cases hx : x = a
      · subst hx; simp [Memory.place, hlt, Memory.read, hk, ih]
      · simp [Memory.place, hlt, Memory.read, ih, hx]

theorem Memory.erase_ne (m : Memory) (a : Nat) : ∀ e ∈ Memory.erase m a, e.1 ≠ a := by
  induction m with
  | nil => simp [Memory.erase]
  | cons e m ih =>
    obtain ⟨k, v⟩ := e
    by_cases hk : k = a
    · simpa [Memory.erase, hk] using ih
    · simp only [Memory.erase, hk, if_false, List.mem_cons, forall_eq_or_imp]
      exact ⟨hk, ih⟩

/-- A read after a write: the byte written at its address, the old byte everywhere else. -/
theorem Memory.read_write (m : Memory) (a x : Nat) (b : Byte) :
    Memory.read (Memory.write m a b) x = if x = a then b else Memory.read m x := by
  unfold Memory.write
  split
  next h => rw [Memory.read_erase, h]
  next => rw [Memory.read_place _ _ _ _ (Memory.erase_ne m a), Memory.read_erase]; split <;> simp_all

/-- Reading after a fill: the filled bytes in the range, the old bytes outside it. -/
theorem Memory.read_fill (m : Memory) (a n x : Nat) (f : Nat → Byte) :
    Memory.read (Memory.fill m a n f) x = if a ≤ x ∧ x < a + n then f (x - a) else Memory.read m x := by
  induction n with
  | zero => simp [Memory.fill]
  | succ n ih =>
    rw [Memory.fill, Memory.read_write, ih]
    by_cases hx : x = a + n
    · simp [hx]
    · have : (a ≤ x ∧ x < a + (n + 1)) ↔ (a ≤ x ∧ x < a + n) := by omega
      simp [hx, this]

theorem Memory.read_fill_of_lt {m : Memory} {a n x : Nat} {f : Nat → Byte} (h : x < a) :
    Memory.read (Memory.fill m a n f) x = Memory.read m x := by
  rw [Memory.read_fill, if_neg (by omega)]

theorem Memory.read_fill_of_ge {m : Memory} {a n x : Nat} {f : Nat → Byte} (h : a + n ≤ x) :
    Memory.read (Memory.fill m a n f) x = Memory.read m x := by
  rw [Memory.read_fill, if_neg (by omega)]

theorem Memory.read_fill_at {m : Memory} {a n k : Nat} {f : Nat → Byte} (h : k < n) :
    Memory.read (Memory.fill m a n f) (a + k) = f k := by
  rw [Memory.read_fill, if_pos (by omega), Nat.add_sub_cancel_left]

theorem Memory.fill_congr {m : Memory} {a n : Nat} {f g : Nat → Byte} (h : ∀ k, k < n → f k = g k) :
    Memory.fill m a n f = Memory.fill m a n g := by
  induction n with
  | zero => rfl
  | succ n ih => rw [Memory.fill, Memory.fill, ih (fun k hk => h k (by omega)), h n (by omega)]

/-- Two fills, the second where the first ends, are one. -/
theorem Memory.fill_add (m : Memory) (a n k : Nat) (f : Nat → Byte) :
    Memory.fill m a (n + k) f = Memory.fill (Memory.fill m a n f) (a + n) k (fun j => f (n + j)) := by
  induction k with
  | zero => rfl
  | succ k ih => rw [← Nat.add_assoc, Memory.fill, Memory.fill, ih, Nat.add_assoc]

/-- Filling two lists one after the other is filling their concatenation. -/
theorem Memory.fill_append (m : Memory) (a : Nat) (bs cs : List Byte) :
    Memory.fill (Memory.fill m a bs.length (fun k => bs.getD k 0)) (a + bs.length) cs.length (fun k => cs.getD k 0) =
      Memory.fill m a (bs ++ cs).length (fun k => (bs ++ cs).getD k 0) := by
  rw [List.length_append, Memory.fill_add]
  rw [Memory.fill_congr (m := m) (f := fun k => bs.getD k 0) (g := fun k => (bs ++ cs).getD k 0)
    (fun k hk => by rw [List.getD_append _ _ _ _ hk])]
  exact Memory.fill_congr (fun k _ => by
    rw [List.getD_append_right _ _ _ _ (Nat.le_add_right _ _), Nat.add_sub_cancel_left])

/-! ### Slices -/

@[simp] theorem Memory.length_slice (m : Memory) (a n : Nat) : (Memory.slice m a n).length = n := by
  simp [Memory.slice]

@[simp] theorem Memory.slice_zero (m : Memory) (a : Nat) : Memory.slice m a 0 = [] := by
  simp [Memory.slice]

@[simp] theorem Memory.getElem_slice (m : Memory) (a n k : Nat) (h : k < (Memory.slice m a n).length) :
    (Memory.slice m a n)[k] = Memory.read m (a + k) := by
  simp [Memory.slice]

theorem Memory.slice_add (m : Memory) (a n k : Nat) :
    Memory.slice m a (n + k) = Memory.slice m a n ++ Memory.slice m (a + n) k := by
  apply List.ext_getElem
  · simp
  · intro i h1 h2
    rw [List.getElem_append]
    split
    · simp
    next h =>
      have hn : n ≤ i := by simpa using h
      simp only [Memory.getElem_slice, Memory.length_slice]
      congr 1; omega

theorem Memory.slice_succ (m : Memory) (a n : Nat) :
    Memory.slice m a (n + 1) = Memory.read m a :: Memory.slice m (a + 1) n := by
  rw [Nat.add_comm, Memory.slice_add]; simp [Memory.slice]

theorem Memory.slice_congr {m m' : Memory} {a n : Nat}
    (h : ∀ x, a ≤ x → x < a + n → Memory.read m x = Memory.read m' x) : Memory.slice m a n = Memory.slice m' a n := by
  apply List.ext_getElem
  · simp
  · intro i h1 _
    simp only [Memory.length_slice] at h1
    simpa using h _ (by omega) (by omega)

theorem Memory.take_slice (m : Memory) (a n k : Nat) (h : k ≤ n) :
    (Memory.slice m a n).take k = Memory.slice m a k := by
  obtain ⟨j, rfl⟩ := Nat.exists_eq_add_of_le h
  rw [Memory.slice_add, List.take_left' (by simp)]

theorem Memory.drop_slice (m : Memory) (a n k : Nat) (h : k ≤ n) :
    (Memory.slice m a n).drop k = Memory.slice m (a + k) (n - k) := by
  obtain ⟨j, rfl⟩ := Nat.exists_eq_add_of_le h
  rw [Memory.slice_add, List.drop_left' (by simp), Nat.add_sub_cancel_left]

/-- The slice a list was filled into is that list. -/
theorem Memory.slice_fill (m : Memory) (a : Nat) (bs : List Byte) :
    Memory.slice (Memory.fill m a bs.length (fun k => bs.getD k 0)) a bs.length = bs := by
  apply List.ext_getElem
  · simp
  · intro i h1 h2
    simp only [Memory.getElem_slice]
    rw [Memory.read_fill_at h2]
    simp [h2]

/-- A slice read at an index. -/
theorem Memory.getD_slice {m : Memory} {a n k : Nat} (h : k < n) (b : Byte) :
    (Memory.slice m a n).getD k b = Memory.read m (a + k) := by
  rw [List.getD_eq_getElem _ _ (by simpa using h), Memory.getElem_slice]

/-! ### The canonical form -/

theorem Memory.wf_nil : Memory.wf [] := ⟨List.Pairwise.nil, by simp⟩

/-- The memories of the reset state are in canonical form. -/
theorem reset_wf : Memory.wf State.reset.str ∧ Memory.wf State.reset.pkd ∧ Memory.wf State.reset.pix :=
  ⟨Memory.wf_nil, Memory.wf_nil, Memory.wf_nil⟩

theorem Memory.mem_erase {m : Memory} {a : Nat} {e : Host.Cell} (h : e ∈ Memory.erase m a) : e ∈ m := by
  induction m with
  | nil => exact h
  | cons e' m ih =>
    obtain ⟨k, v⟩ := e'
    unfold Memory.erase at h
    split at h
    · exact List.mem_cons_of_mem _ (ih h)
    · rcases List.mem_cons.mp h with h | h
      · simp [h]
      · exact List.mem_cons_of_mem _ (ih h)

theorem Memory.wf_erase {m : Memory} (a : Nat) (h : Memory.wf m) : Memory.wf (Memory.erase m a) := by
  refine ⟨?_, fun c hc => h.2 c (Memory.mem_erase hc)⟩
  replace h := h.1
  induction m with
  | nil => exact h
  | cons e m ih =>
    obtain ⟨k, v⟩ := e
    rw [List.pairwise_cons] at h
    unfold Memory.erase
    split
    · exact ih h.2
    · exact List.pairwise_cons.mpr ⟨fun e' he' => h.1 e' (Memory.mem_erase he'), ih h.2⟩

theorem Memory.mem_place {m : Memory} {a : Nat} {b : Byte} {e : Host.Cell} (h : e ∈ Memory.place m a b) :
    e = (a, b) ∨ e ∈ m := by
  induction m with
  | nil => simpa [Memory.place] using h
  | cons e' m ih =>
    obtain ⟨k, v⟩ := e'
    unfold Memory.place at h
    split at h
    · simpa using h
    · rcases List.mem_cons.mp h with h | h
      · simp [h]
      · rcases ih h with h | h <;> simp [h]

theorem Memory.wf_place {m : Memory} {a : Nat} {b : Byte} (hb : b ≠ Memory.unlisted) (ha : ∀ e ∈ m, e.1 ≠ a)
    (h : Memory.wf m) : Memory.wf (Memory.place m a b) := by
  constructor
  · have h := h.1
    induction m with
    | nil => simp [Memory.place]
    | cons e m ih =>
      obtain ⟨k, v⟩ := e
      have hk : k ≠ a := ha (k, v) (by simp)
      have h' := List.pairwise_cons.mp h
      unfold Memory.place
      split
      next hlt =>
        refine List.pairwise_cons.mpr ⟨fun e' he' => ?_, h⟩
        rcases List.mem_cons.mp he' with rfl | he'
        · exact hlt
        · exact Nat.lt_trans hlt (h'.1 e' he')
      next hlt =>
        refine List.pairwise_cons.mpr ⟨fun e' he' => ?_, ih (fun e he => ha e (by simp [he])) ⟨h'.2, ?_⟩ h'.2⟩
        · rcases Memory.mem_place he' with rfl | he'
          · show k < a; omega
          · exact h'.1 e' he'
        · rename_i hw; exact fun c hc => hw.2 c (by simp [hc])
  · intro c hc
    rcases Memory.mem_place hc with rfl | hc
    · exact hb
    · exact h.2 c hc

theorem Memory.wf_write {m : Memory} (a : Nat) (b : Byte) (h : Memory.wf m) : Memory.wf (Memory.write m a b) := by
  unfold Memory.write
  split
  · exact Memory.wf_erase a h
  next hb => exact Memory.wf_place hb (Memory.erase_ne m a) (Memory.wf_erase a h)

theorem Memory.wf_fill {m : Memory} (a n : Nat) (f : Nat → Byte) (h : Memory.wf m) : Memory.wf (Memory.fill m a n f) := by
  induction n with
  | zero => exact h
  | succ n ih => exact Memory.wf_write _ _ ih

theorem Memory.wf_write16 {m : Memory} (a v : Nat) (h : Memory.wf m) : Memory.wf (Memory.write16 m a v) :=
  Memory.wf_write _ _ (Memory.wf_write _ _ h)

/-- In canonical form, equal reads mean equal lists: equal memories are equal data. -/
theorem Memory.wf_ext {m m' : Memory} (h : Memory.wf m) (h' : Memory.wf m')
    (hr : ∀ a, Memory.read m a = Memory.read m' a) : m = m' := by
  have below : ∀ {l : Memory} {a : Nat}, (∀ e ∈ l, a < e.1) → Memory.read l a = Memory.unlisted := by
    intro l a hl
    induction l with
    | nil => rfl
    | cons e l ih =>
      have := hl e (by simp)
      simp only [Memory.read, if_neg (Nat.ne_of_gt this)]
      exact ih (fun e he => hl e (by simp [he]))
  induction m generalizing m' with
  | nil =>
    cases m' with
    | nil => rfl
    | cons e m' =>
      have := hr e.1
      simp only [Memory.read, if_true] at this
      exact absurd this.symm (h'.2 e (by simp))
  | cons e m ih =>
    cases m' with
    | nil =>
      have := hr e.1
      simp only [Memory.read, if_true] at this
      exact absurd this (h.2 e (by simp))
    | cons e' m' =>
      obtain ⟨k, v⟩ := e
      obtain ⟨k', v'⟩ := e'
      have hp := List.pairwise_cons.mp h.1
      have hp' := List.pairwise_cons.mp h'.1
      have hv : v ≠ Memory.unlisted := h.2 (k, v) (by simp)
      have hv' : v' ≠ Memory.unlisted := h'.2 (k', v') (by simp)
      have hk : k = k' := by
        rcases Nat.lt_trichotomy k k' with hlt | heq | hlt
        · have := hr k
          rw [below (l := (k', v') :: m') (a := k)] at this
          · exact absurd (by simpa [Memory.read] using this) hv
          · intro e he
            rcases List.mem_cons.mp he with rfl | he
            · exact hlt
            · exact Nat.lt_trans hlt (hp'.1 e he)
        · exact heq
        · have := hr k'
          rw [below (l := (k, v) :: m) (a := k')] at this
          · exact absurd (by simpa [Memory.read] using this.symm) hv'
          · intro e he
            rcases List.mem_cons.mp he with rfl | he
            · exact hlt
            · exact Nat.lt_trans hlt (hp.1 e he)
      subst hk
      have hvv : v = v' := by simpa [Memory.read] using hr k
      subst hvv
      congr 1
      refine ih ⟨hp.2, fun c hc => h.2 c (by simp [hc])⟩ ⟨hp'.2, fun c hc => h'.2 c (by simp [hc])⟩ (fun a => ?_)
      by_cases ha : k = a
      · subst ha; rw [below hp.1, below hp'.1]
      · simpa [Memory.read, ha] using hr a

/-! ### The bound on the listed addresses -/

theorem Memory.below_write {m : Memory} {cap a : Nat} (b : Byte) (h : Memory.below m cap) (ha : a < cap) :
    Memory.below (Memory.write m a b) cap := by
  unfold Memory.write
  split
  · exact fun e he => h e (Memory.mem_erase he)
  · intro e he
    rcases Memory.mem_place he with rfl | he
    · exact ha
    · exact h e (Memory.mem_erase he)

theorem Memory.below_fill {m : Memory} {cap a n : Nat} (f : Nat → Byte) (h : Memory.below m cap) (ha : a + n ≤ cap) :
    Memory.below (Memory.fill m a n f) cap := by
  induction n with
  | zero => exact h
  | succ n ih => exact Memory.below_write _ (ih (by omega)) (by omega)

end Sys2Proof.Machine
end

