-- ==== Sys2Proof/Laws/Decoder.lean ====
section
/-! SUPPORT. The RLE decoder: what a token does, what the loop does on a row of tokens and on an image of rows, and that a
stream the loop accepts is one of the grammar. -/

namespace Sys2Proof.Machine

/-! ### Control bytes (30_encoding.md R63, R67, R69) -/

theorem tokenLength_bounds (code : Byte) :
    (isRepeat code = true → 3 ≤ tokenLength code ∧ tokenLength code ≤ 130) ∧
    (isRepeat code = false → 1 ≤ tokenLength code ∧ tokenLength code ≤ 128) := by
  revert code; decide +kernel

theorem control_of_lit {n : Nat} (h1 : 1 ≤ n) (h2 : n ≤ 128) :
    isRepeat (encodeByte (.lit n)) = false ∧ tokenLength (encodeByte (.lit n)) = n := by
  interval_cases n <;> decide

theorem control_of_rep {n : Nat} (h1 : 3 ≤ n) (h2 : n ≤ 130) :
    isRepeat (encodeByte (.rep n)) = true ∧ tokenLength (encodeByte (.rep n)) = n := by
  interval_cases n <;> decide

theorem lit_of_control {code : Byte} (h : isRepeat code = false) : encodeByte (.lit (tokenLength code)) = code := by
  revert code; decide +kernel

theorem rep_of_control {code : Byte} (h : isRepeat code = true) : encodeByte (.rep (tokenLength code)) = code := by
  revert code; decide +kernel

/-! ### Row advance -/

theorem rowAdvance_of_eq {s : State} (h : s.c = s.pw) :
    rowAdvance s = { s with row := BitVec.ofNat 17 (s.r + 1), col := 0 } := by
  simp [rowAdvance, h]

theorem rowAdvance_of_ne {s : State} (h : s.c ≠ s.pw) : rowAdvance s = s := by
  simp [rowAdvance, h]

/-! ### The frame of the decoder -/

/-- `t` differs from `s` only in what the decoder may write: STATUS, FAULT, STR_POS, ROW, COL, CODE, LEN, VAL and PKD
(40_rle_decoder.md R80). -/
abbrev DecFrame (s t : State) : Prop :=
  t = { s with
    status := t.status, fault := t.fault, strPos := t.strPos, row := t.row, col := t.col,
    code := t.code, len := t.len, val := t.val, pkd := t.pkd }

theorem DecFrame.refl (s : State) : DecFrame s s := rfl

theorem DecFrame.trans {s t u : State} (h1 : DecFrame s t) (h2 : DecFrame t u) : DecFrame s u := by
  unfold DecFrame at *
  rw [h1] at h2
  exact h2

theorem rowAdvance_frame (s : State) : DecFrame s (rowAdvance s) := by
  unfold rowAdvance; split <;> rfl

theorem litToken_frame (n : Nat) (s : State) : DecFrame s (litToken n s) := by
  unfold litToken
  dsimp only
  split
  · rfl
  · split
    · rfl
    · exact DecFrame.trans (by rfl) (rowAdvance_frame _)

theorem repToken_frame (n : Nat) (s : State) : DecFrame s (repToken n s) := by
  unfold repToken
  dsimp only
  split
  · rfl
  · split
    · rfl
    · exact DecFrame.trans (by rfl) (rowAdvance_frame _)

theorem runToken_frame (s : State) : DecFrame s (runToken s) := by
  unfold runToken; split
  · exact repToken_frame _ _
  · exact litToken_frame _ _

theorem decodeLoop_frame (fuel : Nat) (s : State) : DecFrame s (decodeLoop fuel s) := by
  induction fuel generalizing s with
  | zero => rfl
  | succ fuel ih =>
    unfold decodeLoop
    split
    · rfl
    · split
      · rfl
      · exact (DecFrame.trans (t := fetchControl s) rfl (runToken_frame _)).trans (ih _)

theorem decodeEnd_frame (s : State) : DecFrame s (decodeEnd s) := by
  unfold decodeEnd
  split
  · rfl
  · split <;> rfl

theorem rleDecCmd_frame (s : State) : DecFrame s (rleDecCmd s) := by
  rcases command_cases 0x3 _ rleDecBody s with ⟨_, h⟩ | ⟨_, k, _, _, h⟩ | ⟨_, _, h⟩
  · unfold rleDecCmd; rw [h]
  · unfold rleDecCmd; rw [h]; rfl
  · unfold rleDecCmd; rw [h]
    exact (DecFrame.trans (t := { s with row := 0, col := 0 }) rfl (decodeLoop_frame _ _)).trans (decodeEnd_frame _)

/-! ### What a token does: it overruns its row, it is truncated, or it fits (R81, R82, R86) -/

theorem litToken_overrun {n : Nat} {s : State} (h : n > s.pw - s.c) :
    litToken n s = raise .corruptStream 0 0x3 { s with len := BitVec.ofNat 8 n } :=
  if_pos h

theorem litToken_truncated {n : Nat} {s : State} (h : n ≤ s.pw - s.c) (h' : s.pos + 1 + n > s.slen) :
    litToken n s = raise .unexpectedEof 0 0x3 { s with len := BitVec.ofNat 8 n } :=
  (if_neg (show ¬ n > s.pw - s.c by omega)).trans (if_pos h')

theorem litToken_fits {n : Nat} {s : State} (h : n ≤ s.pw - s.c) (h' : s.pos + 1 + n ≤ s.slen) :
    litToken n s = litEmit n { s with len := BitVec.ofNat 8 n } :=
  (if_neg (show ¬ n > s.pw - s.c by omega)).trans (if_neg (show ¬ s.pos + 1 + n > s.slen by omega))

theorem repToken_truncated {n : Nat} {s : State} (h : s.pos + 2 > s.slen) :
    repToken n s = raise .unexpectedEof 0 0x3 { s with len := BitVec.ofNat 8 n } :=
  if_pos h

theorem repToken_overrun {n : Nat} {s : State} (h : s.pos + 2 ≤ s.slen) (h' : n > s.pw - s.c) :
    repToken n s = raise .corruptStream 0 0x3
      { s with len := BitVec.ofNat 8 n, val := Memory.read s.str (s.pos + 1) } :=
  (if_neg (show ¬ s.pos + 2 > s.slen by omega)).trans (if_pos h')

theorem repToken_fits {n : Nat} {s : State} (h : s.pos + 2 ≤ s.slen) (h' : n ≤ s.pw - s.c) :
    repToken n s = repEmit n { s with len := BitVec.ofNat 8 n, val := Memory.read s.str (s.pos + 1) } :=
  (if_neg (show ¬ s.pos + 2 > s.slen by omega)).trans (if_neg (show ¬ n > s.pw - s.c by omega))

/-- The state after a token that stands for the bytes `d` and takes `size` stream bytes, before the row advance. -/
def emitted (s : State) (d : List Byte) (size : Nat) (code len val : Byte) : State :=
  { s with
    code := code, len := len, val := val
    pkd := Memory.fill s.pkd (s.lineAddr s.c) d.length (fun k => d.getD k 0)
    strPos := BitVec.ofNat 33 (s.pos + size)
    col := BitVec.ofNat 16 (s.c + d.length) }

theorem emitted_eq (s : State) (d : List Byte) (size : Nat) (code len val : Byte) :
    emitted s d size code len val =
      { s with
        code := code, len := len, val := val
        pkd := Memory.fill s.pkd (s.lineAddr s.c) d.length (fun k => d.getD k 0)
        strPos := BitVec.ofNat 33 (s.pos + size)
        col := BitVec.ofNat 16 (s.c + d.length) } := rfl

theorem litEmit_eq {s : State} {raw : List Byte} (h : Memory.slice s.str (s.pos + 1) raw.length = raw) :
    litEmit raw.length s = rowAdvance (emitted s raw (raw.length + 1) s.code s.len s.val) := by
  have hfill : Memory.fill s.pkd (s.lineAddr s.c) raw.length (fun k => Memory.read s.str (s.pos + 1 + k)) =
      Memory.fill s.pkd (s.lineAddr s.c) raw.length (fun k => raw.getD k 0) := by
    apply Memory.fill_congr
    intro k hk
    rw [← Memory.getD_slice hk 0, h]
  unfold litEmit emitted
  rw [hfill, show s.pos + 1 + raw.length = s.pos + (raw.length + 1) by omega]

theorem repEmit_eq (n : Nat) (s : State) :
    repEmit n s = rowAdvance (emitted s (List.replicate n s.val) 2 s.code s.len s.val) := by
  have hfill : Memory.fill s.pkd (s.lineAddr s.c) n (fun _ => s.val) =
      Memory.fill s.pkd (s.lineAddr s.c) n (fun k => (List.replicate n s.val).getD k 0) := by
    apply Memory.fill_congr
    intro k hk
    simp [hk]
  unfold repEmit emitted
  rw [hfill, List.length_replicate]

/-- A literal token that fits its row and the stream (R81). -/
theorem runToken_lit {s : State} {raw : List Byte} (h1 : 1 ≤ raw.length) (h2 : raw.length ≤ 128)
    (hs : Memory.slice s.str s.pos (litBytes raw).length = litBytes raw)
    (hrow : s.c + raw.length ≤ s.pw) (hend : s.pos + (litBytes raw).length ≤ s.slen) :
    ∃ code len val, runToken (fetchControl s) = rowAdvance (emitted s raw (litBytes raw).length code len val) := by
  have hlen : (litBytes raw).length = raw.length + 1 := by simp [litBytes]
  rw [hlen] at hs hend ⊢
  rw [Memory.slice_succ] at hs
  obtain ⟨hcode, hraw⟩ := List.cons.inj hs
  obtain ⟨hshape, hn⟩ := control_of_lit h1 h2
  refine ⟨encodeByte (.lit raw.length), BitVec.ofNat 8 raw.length, s.val, ?_⟩
  have hrun : runToken (fetchControl s) = litToken raw.length (fetchControl s) := by
    unfold runToken
    rw [show (fetchControl s).code = encodeByte (.lit raw.length) from hcode, hshape, hn]
    simp
  rw [hrun, litToken_fits (s := fetchControl s) (show raw.length ≤ s.pw - s.c by omega)
    (show s.pos + 1 + raw.length ≤ s.slen by omega)]
  rw [litEmit_eq (s := { fetchControl s with len := BitVec.ofNat 8 raw.length }) hraw]
  show rowAdvance (emitted { s with code := _, len := _ } raw _ (Memory.read s.str s.pos) _ s.val) = _
  rw [hcode]
  rfl

/-- A repeat token that fits its row and the stream (R82). -/
theorem runToken_rep {s : State} {n : Nat} {v : Byte} (h1 : 3 ≤ n) (h2 : n ≤ 130)
    (hs : Memory.slice s.str s.pos (repBytes n v).length = repBytes n v)
    (hrow : s.c + n ≤ s.pw) (hend : s.pos + (repBytes n v).length ≤ s.slen) :
    ∃ code len val, runToken (fetchControl s) =
      rowAdvance (emitted s (List.replicate n v) (repBytes n v).length code len val) := by
  have hlen : (repBytes n v).length = 2 := rfl
  rw [hlen] at hs hend ⊢
  rw [Memory.slice_succ, Memory.slice_succ] at hs
  obtain ⟨hcode, hs⟩ := List.cons.inj hs
  obtain ⟨hval, -⟩ := List.cons.inj hs
  obtain ⟨hshape, hn⟩ := control_of_rep h1 h2
  refine ⟨encodeByte (.rep n), BitVec.ofNat 8 n, v, ?_⟩
  have hrun : runToken (fetchControl s) = repToken n (fetchControl s) := by
    unfold runToken
    rw [show (fetchControl s).code = encodeByte (.rep n) from hcode, hshape, hn]
    simp
  rw [hrun, repToken_fits (s := fetchControl s) (show s.pos + 2 ≤ s.slen by omega) (show n ≤ s.pw - s.c by omega),
    repEmit_eq]
  show rowAdvance (emitted { s with code := _, len := _, val := _ } (List.replicate n (Memory.read s.str (s.pos + 1))) _
    (Memory.read s.str s.pos) _ (Memory.read s.str (s.pos + 1))) = _
  rw [hcode, hval]
  rfl

theorem IsToken.cons {e d e' d' : List Byte} (h : IsToken e d) (h' : RowTokens e' d') : RowTokens (e ++ e') (d ++ d') := by
  rcases h with ⟨raw, h1, h2, rfl, rfl⟩ | ⟨n, v, h1, h2, rfl, rfl⟩
  · exact .lit _ h1 h2 h'
  · exact .rep n v h1 h2 h'

theorem IsToken.length_pos {e d : List Byte} (h : IsToken e d) : 1 ≤ d.length ∧ 2 ≤ e.length := by
  rcases h with ⟨raw, h1, h2, rfl, rfl⟩ | ⟨n, v, h1, h2, rfl, rfl⟩
  · simp [litBytes]; omega
  · simp [repBytes]; omega

/-- A row of tokens is empty, or a token and a row of tokens. -/
theorem RowTokens.cases_token {e d : List Byte} (h : RowTokens e d) :
    (e = [] ∧ d = []) ∨ ∃ e1 d1 e2 d2, IsToken e1 d1 ∧ RowTokens e2 d2 ∧ e = e1 ++ e2 ∧ d = d1 ++ d2 := by
  cases h with
  | nil => exact .inl ⟨rfl, rfl⟩
  | lit raw h1 h2 h => exact .inr ⟨_, _, _, _, .inl ⟨raw, h1, h2, rfl, rfl⟩, h, rfl, rfl⟩
  | rep n v h1 h2 h => exact .inr ⟨_, _, _, _, .inr ⟨n, v, h1, h2, rfl, rfl⟩, h, rfl, rfl⟩

/-- Tokens of no bytes are no tokens. -/
theorem RowTokens.nil_of_nil {e : List Byte} (h : RowTokens e []) : e = [] := by
  rcases h.cases_token with ⟨h, -⟩ | ⟨e1, d1, e2, d2, ht, -, -, hd⟩
  · exact h
  · have := ht.length_pos.1
    simp [(List.append_eq_nil_iff.mp hd.symm).1] at this

/-- A token that fits its row and the stream is executed. -/
theorem runToken_token {s : State} {e d : List Byte} (h : IsToken e d) (hs : Memory.slice s.str s.pos e.length = e)
    (hrow : s.c + d.length ≤ s.pw) (hend : s.pos + e.length ≤ s.slen) :
    ∃ code len val, runToken (fetchControl s) = rowAdvance (emitted s d e.length code len val) := by
  rcases h with ⟨raw, h1, h2, rfl, rfl⟩ | ⟨n, v, h1, h2, rfl, rfl⟩
  · exact runToken_lit h1 h2 hs hrow hend
  · exact runToken_rep h1 h2 hs (by simpa using hrow) hend

/-- What the decoder does at a token boundary: the token faults and nothing but CODE, LEN, VAL is written, or it is a whole
token that fits (R86, R88). -/
theorem runToken_cases (s : State) :
    (∃ f code len val, (f = .unexpectedEof ∨ f = .corruptStream) ∧
      tokenFault (Memory.read s.str s.pos) (s.pw - s.c) (s.slen - (s.pos + 1)) = some f ∧
      runToken (fetchControl s) = raise f 0 0x3 { s with code := code, len := len, val := val }) ∨
    (s.slen ≤ s.pos) ∨
    ∃ e d code len val, IsToken e d ∧ Memory.slice s.str s.pos e.length = e ∧ s.c + d.length ≤ s.pw ∧
      s.pos + e.length ≤ s.slen ∧ runToken (fetchControl s) = rowAdvance (emitted s d e.length code len val) := by
  have hcode : (fetchControl s).code = Memory.read s.str s.pos := rfl
  obtain ⟨brep, blit⟩ := tokenLength_bounds (Memory.read s.str s.pos)
  rcases Nat.lt_or_ge s.pos s.slen with hp | hp
  swap
  · exact .inr (.inl hp)
  cases hr : isRepeat (Memory.read s.str s.pos) with
  | true =>
    have hb := brep hr
    have hrun : runToken (fetchControl s) = repToken (tokenLength (Memory.read s.str s.pos)) (fetchControl s) := by
      unfold runToken; rw [hcode, hr]; rfl
    by_cases h1 : s.pos + 2 > s.slen
    · left
      rw [hrun, repToken_truncated (s := fetchControl s) h1]
      exact ⟨_, _, _, _, .inl rfl, by rw [tokenFault, if_pos hr, if_pos (by omega)], rfl⟩
    by_cases h2 : tokenLength (Memory.read s.str s.pos) > s.pw - s.c
    · left
      rw [hrun, repToken_overrun (s := fetchControl s) (show s.pos + 2 ≤ s.slen by omega) h2]
      exact ⟨_, _, _, _, .inr rfl, by rw [tokenFault, if_pos hr, if_neg (by omega), if_pos h2], rfl⟩
    right; right
    have ht : IsToken (repBytes (tokenLength (Memory.read s.str s.pos)) (Memory.read s.str (s.pos + 1)))
        (List.replicate (tokenLength (Memory.read s.str s.pos)) (Memory.read s.str (s.pos + 1))) :=
      .inr ⟨_, _, hb.1, hb.2, rfl, rfl⟩
    have hs : Memory.slice s.str s.pos 2 = repBytes (tokenLength (Memory.read s.str s.pos)) (Memory.read s.str (s.pos + 1)) := by
      rw [Memory.slice_succ, Memory.slice_succ, repBytes, rep_of_control hr]; simp
    have hrow : s.c + (List.replicate (tokenLength (Memory.read s.str s.pos)) (Memory.read s.str (s.pos + 1))).length ≤ s.pw := by
      rw [List.length_replicate]; omega
    obtain ⟨code, len, val, he⟩ := runToken_token ht hs hrow (show s.pos + 2 ≤ s.slen by omega)
    exact ⟨_, _, code, len, val, ht, hs, hrow, show s.pos + 2 ≤ s.slen by omega, he⟩
  | false =>
    have hb := blit hr
    have hr' : ¬ isRepeat (Memory.read s.str s.pos) = true := by rw [hr]; simp
    have hrun : runToken (fetchControl s) = litToken (tokenLength (Memory.read s.str s.pos)) (fetchControl s) := by
      unfold runToken; rw [hcode, hr]; rfl
    by_cases h2 : tokenLength (Memory.read s.str s.pos) > s.pw - s.c
    · left
      rw [hrun, litToken_overrun (s := fetchControl s) h2]
      exact ⟨_, _, _, _, .inr rfl, by rw [tokenFault, if_neg hr', if_pos h2], rfl⟩
    by_cases h1 : s.pos + 1 + tokenLength (Memory.read s.str s.pos) > s.slen
    · left
      rw [hrun, litToken_truncated (s := fetchControl s)
        (show tokenLength (Memory.read s.str s.pos) ≤ s.pw - s.c by omega) h1]
      exact ⟨_, _, _, _, .inl rfl, by rw [tokenFault, if_neg hr', if_neg (by omega), if_pos (by omega)], rfl⟩
    right; right
    obtain ⟨raw, hraw⟩ : ∃ raw, raw = Memory.slice s.str (s.pos + 1) (tokenLength (Memory.read s.str s.pos)) := ⟨_, rfl⟩
    have hl : raw.length = tokenLength (Memory.read s.str s.pos) := by rw [hraw, Memory.length_slice]
    have ht : IsToken (litBytes raw) raw := .inl ⟨raw, by omega, by omega, rfl, rfl⟩
    have he : (litBytes raw).length = tokenLength (Memory.read s.str s.pos) + 1 := by simp [litBytes, hl]
    have hs : Memory.slice s.str s.pos (litBytes raw).length = litBytes raw := by
      rw [he, Memory.slice_succ, litBytes, hl, lit_of_control hr, ← hraw]
    have hrow : s.c + raw.length ≤ s.pw := by omega
    have hend : s.pos + (litBytes raw).length ≤ s.slen := by omega
    obtain ⟨code, len, val, he⟩ := runToken_token ht hs hrow hend
    exact ⟨_, _, code, len, val, ht, hs, hrow, hend, he⟩

/-! ### The loop -/

theorem decodeLoop_stop {fuel : Nat} {s : State} (h : s.faulted ∨ s.pos = s.slen) : decodeLoop fuel s = s := by
  cases fuel with
  | zero => rfl
  | succ fuel => exact if_pos h

theorem decodeLoop_surplus {fuel : Nat} {s : State} (hf : ¬ s.faulted) (hp : s.pos ≠ s.slen) (hr : s.r = s.h) :
    decodeLoop (fuel + 1) s = raise .corruptStream 1 0x3 s :=
  (if_neg (by simp [hf, hp])).trans (if_pos hr)

theorem decodeLoop_run {fuel : Nat} {s : State} (hf : ¬ s.faulted) (hp : s.pos ≠ s.slen) (hr : s.r ≠ s.h) :
    decodeLoop (fuel + 1) s = decodeLoop fuel (runToken (fetchControl s)) :=
  (if_neg (by simp [hf, hp])).trans (if_neg hr)

theorem emitted_pos {s : State} {d : List Byte} {size : Nat} {code len val : Byte} (h : s.pos + size ≤ s.slen) :
    (emitted s d size code len val).pos = s.pos + size := by
  have := s.strLen.isLt
  show (BitVec.ofNat 33 (s.pos + size)).toNat = _
  rw [BitVec.toNat_ofNat, Nat.mod_eq_of_lt (lt_of_le_of_lt h this)]

theorem emitted_c {s : State} {d : List Byte} {size : Nat} {code len val : Byte} (h : s.c + d.length ≤ s.pw)
    (hpw : s.pw ≤ 32768) : (emitted s d size code len val).c = s.c + d.length := by
  show (BitVec.ofNat 16 (s.c + d.length)).toNat = _
  rw [BitVec.toNat_ofNat, Nat.mod_eq_of_lt (by omega)]

/-- The state after a row of tokens that stands for the bytes `d` and takes `size` stream bytes. -/
def rowDone (s : State) (d : List Byte) (size : Nat) (code len val : Byte) : State :=
  { s with
    code := code, len := len, val := val
    pkd := Memory.fill s.pkd (s.lineAddr s.c) d.length (fun k => d.getD k 0)
    strPos := BitVec.ofNat 33 (s.pos + size)
    row := BitVec.ofNat 17 (s.r + 1)
    col := 0 }

/-- The loop on the tokens that complete the current row. -/
theorem decodeLoop_row {e d : List Byte} (h : RowTokens e d) {s : State} (hd : d ≠ []) (hf : ¬ s.faulted)
    (hpw : s.pw ≤ 32768) (hr : s.r ≠ s.h) (hrow : s.c + d.length = s.pw) (hend : s.pos + e.length ≤ s.slen)
    (hs : Memory.slice s.str s.pos e.length = e) :
    ∃ k code len val, k ≤ e.length ∧
      ∀ fuel, decodeLoop (k + fuel) s = decodeLoop fuel (rowDone s d e.length code len val) := by
  obtain ⟨n, hn⟩ : ∃ n, n = d.length := ⟨_, rfl⟩
  induction n using Nat.strongRecOn generalizing e d s with
  | _ n ih =>
    rcases h.cases_token with ⟨-, h0⟩ | ⟨e1, d1, e2, d2, ht, h2, rfl, rfl⟩
    · exact absurd h0 hd
    rw [List.length_append] at hrow hend hs hn
    rw [Memory.slice_add] at hs
    obtain ⟨hs1, hs2⟩ := List.append_inj hs (by simp)
    have hpos := ht.length_pos
    obtain ⟨code, len, val, hrun⟩ := runToken_token ht hs1 (by omega) (by omega)
    have hstep : ∀ fuel, decodeLoop (1 + fuel) s = decodeLoop fuel (rowAdvance (emitted s d1 e1.length code len val)) := by
      intro fuel
      rw [Nat.add_comm, decodeLoop_run hf (by omega) hr, hrun]
    have hc := emitted_c (s := s) (d := d1) (size := e1.length) (code := code) (len := len) (val := val) (by omega) hpw
    have hp := emitted_pos (s := s) (d := d1) (size := e1.length) (code := code) (len := len) (val := val) (by omega)
    by_cases h0 : d2 = []
    · subst h0
      obtain rfl := h2.nil_of_nil
      simp only [List.append_nil, List.length_nil, Nat.add_zero] at *
      rw [rowAdvance_of_eq (s := emitted s d1 e1.length code len val) (by rw [hc]; exact hrow)] at hstep
      exact ⟨1, code, len, val, by omega, hstep⟩
    · have hd2 : 1 ≤ d2.length := List.length_pos_iff.mpr h0
      rw [rowAdvance_of_ne (s := emitted s d1 e1.length code len val) (by rw [hc]; show _ ≠ s.pw; omega)] at hstep
      obtain ⟨k, code', len', val', hk, hloop⟩ := ih d2.length (by omega) h2
        (s := emitted s d1 e1.length code len val) h0 hf hpw hr
        (by rw [hc]; show _ = s.pw; omega) (by rw [hp]; show _ ≤ s.slen; omega)
        (by rw [hp]; exact hs2) rfl
      refine ⟨1 + k, code', len', val', by rw [List.length_append]; omega, fun fuel => ?_⟩
      rw [Nat.add_assoc, hstep, hloop]
      congr 1
      have hfill : Memory.fill (Memory.fill s.pkd (s.lineAddr s.c) d1.length (fun k => d1.getD k 0))
          (s.lineAddr (s.c + d1.length)) d2.length (fun k => d2.getD k 0) =
          Memory.fill s.pkd (s.lineAddr s.c) (d1 ++ d2).length (fun k => (d1 ++ d2).getD k 0) := by
        rw [show s.lineAddr (s.c + d1.length) = s.lineAddr s.c + d1.length from (Nat.add_assoc _ _ _).symm,
          Memory.fill_append]
      unfold rowDone
      rw [hp, hc]
      show State.mk _ _ _ _ _ _ _ _ _ _ _ _ _ _ _ _ _ _ _ _ = State.mk _ _ _ _ _ _ _ _ _ _ _ _ _ _ _ _ _ _ _ _
      congr 1
      · rw [List.length_append, Nat.add_assoc]


/-- The loop on tokens that do not complete the current row. -/
theorem decodeLoop_partial {e d : List Byte} (h : RowTokens e d) {s : State} (hf : ¬ s.faulted)
    (hpw : s.pw ≤ 32768) (hr : s.r ≠ s.h) (hrow : s.c + d.length < s.pw) (hend : s.pos + e.length ≤ s.slen)
    (hs : Memory.slice s.str s.pos e.length = e) :
    ∃ k code len val, k ≤ e.length ∧
      ∀ fuel, decodeLoop (k + fuel) s = decodeLoop fuel (emitted s d e.length code len val) := by
  obtain ⟨n, hn⟩ : ∃ n, n = d.length := ⟨_, rfl⟩
  induction n using Nat.strongRecOn generalizing e d s with
  | _ n ih =>
    rcases h.cases_token with ⟨rfl, rfl⟩ | ⟨e1, d1, e2, d2, ht, h2, rfl, rfl⟩
    · refine ⟨0, s.code, s.len, s.val, by simp, fun fuel => ?_⟩
      rw [Nat.zero_add]
      congr 1
      unfold emitted State.pos State.c
      simp only [List.length_nil, Nat.add_zero, Memory.fill, BitVec.ofNat_toNat, BitVec.setWidth_eq]
    rw [List.length_append] at hrow hend hs hn
    rw [Memory.slice_add] at hs
    obtain ⟨hs1, hs2⟩ := List.append_inj hs (by simp)
    have hpos := ht.length_pos
    obtain ⟨code, len, val, hrun⟩ := runToken_token ht hs1 (by omega) (by omega)
    have hstep : ∀ fuel, decodeLoop (1 + fuel) s = decodeLoop fuel (rowAdvance (emitted s d1 e1.length code len val)) := by
      intro fuel
      rw [Nat.add_comm, decodeLoop_run hf (by omega) hr, hrun]
    have hc := emitted_c (s := s) (d := d1) (size := e1.length) (code := code) (len := len) (val := val) (by omega) hpw
    have hp := emitted_pos (s := s) (d := d1) (size := e1.length) (code := code) (len := len) (val := val) (by omega)
    rw [rowAdvance_of_ne (s := emitted s d1 e1.length code len val) (by rw [hc]; show _ ≠ s.pw; omega)] at hstep
    obtain ⟨k, code', len', val', hk, hloop⟩ := ih d2.length (by omega) h2
      (s := emitted s d1 e1.length code len val) hf hpw hr
      (by rw [hc]; show _ < s.pw; omega) (by rw [hp]; show _ ≤ s.slen; omega)
      (by rw [hp]; exact hs2) rfl
    refine ⟨1 + k, code', len', val', by rw [List.length_append]; omega, fun fuel => ?_⟩
    rw [Nat.add_assoc, hstep, hloop]
    congr 1
    have hfill : Memory.fill (Memory.fill s.pkd (s.lineAddr s.c) d1.length (fun k => d1.getD k 0))
        (s.lineAddr (s.c + d1.length)) d2.length (fun k => d2.getD k 0) =
        Memory.fill s.pkd (s.lineAddr s.c) (d1 ++ d2).length (fun k => (d1 ++ d2).getD k 0) := by
      rw [show s.lineAddr (s.c + d1.length) = s.lineAddr s.c + d1.length from (Nat.add_assoc _ _ _).symm,
        Memory.fill_append]
    rw [emitted_eq (emitted s d1 e1.length code len val), hp, hc]
    unfold emitted
    show State.mk _ _ _ _ _ _ _ _ _ _ _ _ _ _ _ _ _ _ _ _ = State.mk _ _ _ _ _ _ _ _ _ _ _ _ _ _ _ _ _ _ _ _
    congr 1
    · rw [List.length_append, Nat.add_assoc]
    · rw [List.length_append, Nat.add_assoc]

/-- The state after `n` whole rows that stand for the bytes `d` and take `size` stream bytes. -/
def rowsDone (s : State) (n : Nat) (d : List Byte) (size : Nat) (code len val : Byte) : State :=
  { s with
    code := code, len := len, val := val
    pkd := Memory.fill s.pkd (s.lineAddr 0) d.length (fun k => d.getD k 0)
    strPos := BitVec.ofNat 33 (s.pos + size)
    row := BitVec.ofNat 17 (s.r + n)
    col := 0 }

theorem rowsDone_pos {s : State} {n size : Nat} {d : List Byte} {code len val : Byte} (h : s.pos + size ≤ s.slen) :
    (rowsDone s n d size code len val).pos = s.pos + size := by
  have := s.strLen.isLt
  show (BitVec.ofNat 33 (s.pos + size)).toNat = _
  rw [BitVec.toNat_ofNat, Nat.mod_eq_of_lt (lt_of_le_of_lt h this)]

theorem rowsDone_r {s : State} {n size : Nat} {d : List Byte} {code len val : Byte} (h : s.r + n ≤ 65536) :
    (rowsDone s n d size code len val).r = s.r + n := by
  show (BitVec.ofNat 17 (s.r + n)).toNat = _
  rw [BitVec.toNat_ofNat, Nat.mod_eq_of_lt (by omega)]

/-- The loop on whole rows of tokens. -/
theorem decodeLoop_rows {n : Nat} {e d : List Byte} {s : State} (h : ImageTokens s.pw n e d) (hf : ¬ s.faulted)
    (hd : s.dimsLegal) (hr : s.r + n ≤ s.h) (hc : s.col = 0) (hend : s.pos + e.length ≤ s.slen)
    (hs : Memory.slice s.str s.pos e.length = e) :
    ∃ k code len val, k ≤ e.length ∧
      ∀ fuel, decodeLoop (k + fuel) s = decodeLoop fuel (rowsDone s n d e.length code len val) := by
  obtain ⟨pw, hpw⟩ : ∃ pw, pw = s.pw := ⟨_, rfl⟩
  rw [← hpw] at h
  induction h generalizing s with
  | nil =>
    refine ⟨0, s.code, s.len, s.val, by simp, fun fuel => ?_⟩
    rw [Nat.zero_add]
    congr 1
    unfold rowsDone State.pos State.r
    simp only [List.length_nil, Nat.add_zero, Memory.fill, BitVec.ofNat_toNat, BitVec.setWidth_eq]
    rw [← hc]
  | @row n e d es ds hrow hlen _ ih =>
    rw [List.length_append] at hend hs
    rw [Memory.slice_add] at hs
    obtain ⟨hs1, hs2⟩ := List.append_inj hs (by simp)
    have hb := pw_bounds hd
    have hc0 : s.c = 0 := by unfold State.c; rw [hc]; rfl
    obtain ⟨k, code, len, val, hk, hloop⟩ := decodeLoop_row hrow (s := s)
      (by rintro rfl; simp at hlen; omega) hf hb.2 (by omega) (by rw [hc0]; omega) (by omega) hs1
    have hlt : s.pos + e.length < 2 ^ 33 := by have := s.strLen.isLt; unfold State.slen at hend; omega
    have hp : (rowDone s d e.length code len val).pos = s.pos + e.length := by
      show (BitVec.ofNat 33 (s.pos + e.length)).toNat = _
      rw [BitVec.toNat_ofNat, Nat.mod_eq_of_lt hlt]
    have hr' : (rowDone s d e.length code len val).r = s.r + 1 := by
      show (BitVec.ofNat 17 (s.r + 1)).toNat = _
      have : s.h ≤ 65536 := hd.2.2.2
      rw [BitVec.toNat_ofNat, Nat.mod_eq_of_lt (by omega)]
    obtain ⟨k', code', len', val', hk', hloop'⟩ := ih (s := rowDone s d e.length code len val) hf hd
      (by rw [hr']; show _ ≤ s.h; omega) rfl (by rw [hp]; show _ ≤ s.slen; omega) (by rw [hp]; exact hs2) hpw
    refine ⟨k + k', code', len', val', by rw [List.length_append]; omega, fun fuel => ?_⟩
    rw [Nat.add_assoc, hloop, hloop']
    congr 1
    have hfill : Memory.fill (Memory.fill s.pkd (s.lineAddr s.c) d.length (fun k => d.getD k 0))
        ((s.r + 1) * s.pw + 0) ds.length (fun k => ds.getD k 0) =
        Memory.fill s.pkd (s.lineAddr 0) (d ++ ds).length (fun k => (d ++ ds).getD k 0) := by
      rw [hc0, show (s.r + 1) * s.pw + 0 = s.lineAddr 0 + d.length by
        rw [hlen, hpw]; unfold State.lineAddr State.packedAddr; ring]
      rw [Memory.fill_append]
    unfold rowsDone State.lineAddr State.packedAddr
    rw [hp, hr']
    show State.mk _ _ _ _ _ _ _ _ _ _ _ _ _ _ _ _ _ _ _ _ = State.mk _ _ _ _ _ _ _ _ _ _ _ _ _ _ _ _ _ _ _ _
    congr 1
    · rw [List.length_append, Nat.add_assoc]
    · congr 1; omega

theorem ImageTokens.length_eq {pw n : Nat} {e d : List Byte} (h : ImageTokens pw n e d) : d.length = n * pw := by
  induction h with
  | nil => simp
  | row _ hl _ ih => rw [List.length_append, hl, ih]; ring

/-! ### The end of the loop -/

theorem decodeLoop_slen (fuel : Nat) (s : State) : (decodeLoop fuel s).slen = s.slen := by
  rw [decodeLoop_frame fuel s]; rfl

theorem decodeLoop_pw (fuel : Nat) (s : State) : (decodeLoop fuel s).pw = s.pw := by
  rw [decodeLoop_frame fuel s]; rfl

theorem decodeLoop_h (fuel : Nat) (s : State) : (decodeLoop fuel s).h = s.h := by
  rw [decodeLoop_frame fuel s]; rfl

/-- Facts of the state after a token that fits: where the cursors are. -/
theorem rowAdvance_emitted {s : State} {d : List Byte} {size : Nat} {code len val : Byte} (hd : s.dimsLegal)
    (hr : s.r < s.h) (hrow : s.c + d.length ≤ s.pw) (hend : s.pos + size ≤ s.slen) :
    (rowAdvance (emitted s d size code len val)).pos = s.pos + size ∧
    (rowAdvance (emitted s d size code len val)).status = s.status ∧
    (if s.c + d.length = s.pw then
      (rowAdvance (emitted s d size code len val)).r = s.r + 1 ∧ (rowAdvance (emitted s d size code len val)).c = 0
     else
      (rowAdvance (emitted s d size code len val)).r = s.r ∧
      (rowAdvance (emitted s d size code len val)).c = s.c + d.length) := by
  have hb := pw_bounds hd
  have hc := emitted_c (s := s) (d := d) (size := size) (code := code) (len := len) (val := val) hrow hb.2
  have hp := emitted_pos (s := s) (d := d) (size := size) (code := code) (len := len) (val := val) hend
  split
  next h =>
    rw [rowAdvance_of_eq (s := emitted s d size code len val) (by rw [hc]; exact h)]
    refine ⟨hp, rfl, ?_, rfl⟩
    show (BitVec.ofNat 17 (s.r + 1)).toNat = _
    rw [BitVec.toNat_ofNat, Nat.mod_eq_of_lt (by have := hd.2.2.2; omega)]
  next h =>
    rw [rowAdvance_of_ne (s := emitted s d size code len val) (by rw [hc]; exact h)]
    exact ⟨hp, rfl, rfl, hc⟩

theorem rowAdvance_emitted_frame (s : State) (d : List Byte) (size : Nat) (code len val : Byte) :
    DecFrame s (rowAdvance (emitted s d size code len val)) :=
  DecFrame.trans (t := emitted s d size code len val) rfl (rowAdvance_frame _)

/-- With more fuel than stream bytes the loop ends at a fault or with the stream exhausted (R92). -/
theorem decodeLoop_ends {fuel : Nat} {s : State} (hd : s.dimsLegal) (hp : s.pos ≤ s.slen)
    (hfuel : s.slen - s.pos < fuel) (hr : s.r ≤ s.h) :
    (decodeLoop fuel s).faulted ∨ (decodeLoop fuel s).pos = s.slen := by
  induction fuel generalizing s with
  | zero => omega
  | succ fuel ih =>
    by_cases hf : s.faulted
    · exact .inl (by rw [decodeLoop_stop (.inl hf)]; exact hf)
    by_cases he : s.pos = s.slen
    · exact .inr (by rw [decodeLoop_stop (.inr he)]; exact he)
    by_cases hrow : s.r = s.h
    · exact .inl (by rw [decodeLoop_surplus hf he hrow]; rfl)
    rw [decodeLoop_run hf he hrow]
    rcases runToken_cases s with ⟨f, code, len, val, -, -, h⟩ | h | ⟨e, d, code, len, val, ht, _, hfit, hend, hrun⟩
    · exact .inl (by rw [h, decodeLoop_stop (.inl rfl)]; rfl)
    · omega
    · rw [hrun]
      obtain ⟨h1, -, h3⟩ := rowAdvance_emitted (code := code) (len := len) (val := val) hd (by omega) hfit hend
      have hfr := rowAdvance_emitted_frame s d e.length code len val
      have hsl : (rowAdvance (emitted s d e.length code len val)).slen = s.slen := by rw [hfr]; rfl
      have hh : (rowAdvance (emitted s d e.length code len val)).h = s.h := by rw [hfr]; rfl
      have hdl : (rowAdvance (emitted s d e.length code len val)).dimsLegal := by rw [hfr]; exact hd
      have := ht.length_pos.2
      rw [← hsl]
      exact ih hdl (by omega) (by omega) (by rw [hh]; split at h3 <;> omega)

/-- A stream the loop consumes without fault up to the last row is one of the grammar (R74). -/
theorem decodeLoop_sound {fuel : Nat} {s : State} (hd : s.dimsLegal) (hp : s.pos ≤ s.slen) (hr : s.r ≤ s.h)
    (hc : s.c < s.pw) (hf : ¬ (decodeLoop fuel s).faulted) (he : (decodeLoop fuel s).pos = s.slen)
    (hh : (decodeLoop fuel s).r = s.h) :
    (s.r = s.h ∧ s.pos = s.slen) ∨
    (s.r < s.h ∧ ∃ e1 d1 e2 d2, RowTokens e1 d1 ∧ s.c + d1.length = s.pw ∧ ImageTokens s.pw (s.h - s.r - 1) e2 d2 ∧
      s.stream = e1 ++ e2) := by
  induction fuel generalizing s with
  | zero => exact .inl ⟨hh, he⟩
  | succ fuel ih =>
    by_cases hf0 : s.faulted
    · rw [decodeLoop_stop (.inl hf0)] at hf; exact absurd hf0 hf
    by_cases he0 : s.pos = s.slen
    · rw [decodeLoop_stop (.inr he0)] at hh; exact .inl ⟨hh, he0⟩
    by_cases hrow : s.r = s.h
    · rw [decodeLoop_surplus hf0 he0 hrow] at hf; exact absurd rfl hf
    rw [decodeLoop_run hf0 he0 hrow] at hf he hh
    rcases runToken_cases s with ⟨f, code, len, val, -, -, h⟩ | h | ⟨e, d, code, len, val, ht, hs, hfit, hend, hrun⟩
    · rw [h, decodeLoop_stop (.inl rfl)] at hf; exact absurd rfl hf
    · omega
    right
    refine ⟨by omega, ?_⟩
    rw [hrun] at hf he hh
    obtain ⟨h1, -, h3⟩ := rowAdvance_emitted (code := code) (len := len) (val := val) hd (by omega) hfit hend
    have hfr := rowAdvance_emitted_frame s d e.length code len val
    obtain ⟨t, ht'⟩ : ∃ t, t = rowAdvance (emitted s d e.length code len val) := ⟨_, rfl⟩
    rw [← ht'] at hf he hh h1 h3 hfr
    have hsl : t.slen = s.slen := by rw [hfr]; rfl
    have hth : t.h = s.h := by rw [hfr]; rfl
    have htpw : t.pw = s.pw := by rw [hfr]; rfl
    have hstr : t.str = s.str := by rw [hfr]
    have hdl : t.dimsLegal := by rw [hfr]; exact hd
    have hpos := ht.length_pos
    have hb := pw_bounds hd
    have hst : s.stream = e ++ t.stream := by
      unfold State.stream
      rw [hsl, h1, hstr, show s.slen - s.pos = e.length + (s.slen - (s.pos + e.length)) by omega, Memory.slice_add, hs]
    have ih := ih hdl (by omega) (by rw [hth]; split at h3 <;> omega) (by rw [htpw]; split at h3 <;> omega)
      hf (by rw [hsl]; exact he) (by rw [hth]; exact hh)
    rw [hth, hsl, htpw, h1] at ih
    split at h3
    next hfull =>
      rcases ih with ⟨hr1, hp1⟩ | ⟨hr1, e1, d1, e2, d2, hrt, hl, hit, hse⟩
      · refine ⟨e, d, [], [], by simpa using ht.cons .nil, hfull, ?_, ?_⟩
        · rw [show s.h - s.r - 1 = 0 by omega]; exact .nil
        · rw [hst]; congr 1; unfold State.stream; rw [h1, hsl, hp1, Nat.sub_self, Memory.slice_zero]
      · refine ⟨e, d, e1 ++ e2, d1 ++ d2, by simpa using ht.cons .nil, hfull, ?_, by rw [hst, hse]⟩
        rw [show s.h - s.r - 1 = (s.h - t.r - 1) + 1 by omega]
        exact .row hrt (by omega) hit
    next hpart =>
      rcases ih with ⟨hr1, -⟩ | ⟨-, e1, d1, e2, d2, hrt, hl, hit, hse⟩
      · omega
      · refine ⟨e ++ e1, d ++ d1, e2, d2, ht.cons hrt, ?_, ?_, by rw [hst, hse, List.append_assoc]⟩
        · rw [List.length_append]; omega
        · rw [show s.h - s.r - 1 = s.h - t.r - 1 by omega]; exact hit


/-- What the loop does to PKD is fills inside the image: a property that those keep, the loop keeps (20_memory.md R48). -/
theorem decodeLoop_pkd {P : Memory → Prop} {s0 : State}
    (hP : ∀ m a n f, P m → a + n ≤ s0.pw * s0.h → P (Memory.fill m a n f))
    {fuel : Nat} {s : State} (hpw : s.pw = s0.pw) (hh : s.h = s0.h) (hd : s.dimsLegal) (hp : s.pos ≤ s.slen)
    (hr : s.r ≤ s.h) (h : P s.pkd) : P (decodeLoop fuel s).pkd := by
  induction fuel generalizing s with
  | zero => exact h
  | succ fuel ih =>
    by_cases hf : s.faulted
    · rw [decodeLoop_stop (.inl hf)]; exact h
    by_cases he : s.pos = s.slen
    · rw [decodeLoop_stop (.inr he)]; exact h
    by_cases hrow : s.r = s.h
    · rw [decodeLoop_surplus hf he hrow]; exact h
    rw [decodeLoop_run hf he hrow]
    rcases runToken_cases s with ⟨f, code, len, val, -, -, hrun⟩ | hrun | ⟨e, d, code, len, val, ht, _, hfit, hend, hrun⟩
    · rw [hrun, decodeLoop_stop (.inl rfl)]; exact h
    · omega
    · rw [hrun]
      obtain ⟨h1, -, h3⟩ := rowAdvance_emitted (code := code) (len := len) (val := val) hd (by omega) hfit hend
      have hfr := rowAdvance_emitted_frame s d e.length code len val
      have hsl : (rowAdvance (emitted s d e.length code len val)).slen = s.slen := by rw [hfr]; rfl
      have hth : (rowAdvance (emitted s d e.length code len val)).h = s.h := by rw [hfr]; rfl
      have htpw : (rowAdvance (emitted s d e.length code len val)).pw = s.pw := by rw [hfr]; rfl
      have hdl : (rowAdvance (emitted s d e.length code len val)).dimsLegal := by rw [hfr]; exact hd
      have hpk : (rowAdvance (emitted s d e.length code len val)).pkd = (emitted s d e.length code len val).pkd := by
        unfold rowAdvance; split <;> rfl
      refine ih (by rw [htpw]; exact hpw) (by rw [hth]; exact hh) hdl (by omega) (by rw [hth]; split at h3 <;> omega) ?_
      rw [hpk]
      refine hP _ _ _ _ h ?_
      have h1 : (s.r + 1) * s.pw ≤ s.h * s.pw := Nat.mul_le_mul_right _ (by omega)
      have h2 : (s.r + 1) * s.pw = s.r * s.pw + s.pw := by ring
      rw [← hpw, ← hh, Nat.mul_comm s.pw]
      show s.r * s.pw + s.c + d.length ≤ _
      omega

end Sys2Proof.Machine
end

