-- ==== Sys2Proof/Laws/RunFinder.lean ====
section
/-! SUPPORT. The run finder: the loop's invariant, and what it gives for the encoder. -/

namespace Sys2Proof.Machine

/-- The scan keeps: the candidate run is `cnt` copies of `cur` at `start`, and no run begins before it. -/
theorem runScan_firstRun (s : List Byte) (rest : List Byte) (cur : Byte) (start cnt : Nat)
    (hrest : rest = s.drop (start + cnt)) (hlen : start + cnt ≤ s.length) (hcnt : 1 ≤ cnt)
    (hcur : ∀ i, i < cnt → s.getD (start + i) 0 = cur) (hno : ∀ q, q < start → ¬ TripleAt s q) :
    FirstRun s (runScan cur start cnt rest) := by
  induction rest generalizing cur start cnt with
  | nil =>
    have hn : start + cnt = s.length := by
      have := List.drop_eq_nil_iff.mp hrest.symm
      omega
    unfold runScan
    split
    next h3 =>
      right
      have h0 := hcur 0 (by omega)
      refine ⟨h3, by omega, fun i hi => ?_, by omega, hno⟩
      rw [hcur i hi, ← h0, Nat.add_zero]
    next h3 =>
      left
      refine ⟨rfl, hn, fun q hq => ?_⟩
      by_cases hqs : q < start
      · exact hno q hqs hq
      · have := hq.1; omega
  | cons b bs ih =>
    have hlt : start + cnt < s.length := by
      by_contra h
      rw [List.drop_eq_nil_iff.mpr (by omega)] at hrest
      exact absurd hrest (by simp)
    have hd := List.drop_eq_getElem_cons hlt
    rw [hd] at hrest
    obtain ⟨hb, hbs⟩ := List.cons.inj hrest
    have hb' : s.getD (start + cnt) 0 = b := by rw [List.getD_eq_getElem _ _ hlt, hb]
    unfold runScan
    split
    next heq =>
      exact ih cur start (cnt + 1) (by rw [hbs, Nat.add_assoc]) (by omega) (by omega)
        (fun i hi => by
          by_cases hic : i < cnt
          · exact hcur i hic
          · rw [show i = cnt by omega, hb', heq]) hno
    next hne =>
      split
      next h3 =>
        right
        have h0 := hcur 0 (by omega)
        refine ⟨h3, by omega, fun i hi => ?_, fun _ => ?_, hno⟩
        · rw [hcur i hi, ← h0, Nat.add_zero]
        · show s.getD (start + cnt) 0 ≠ s.getD start 0
          rw [hb', show s.getD start 0 = cur from h0]; exact hne
      next h3 =>
        refine ih b (start + cnt) 1 hbs (by omega) (by omega) (fun i hi => ?_) (fun q hq => ?_)
        · rw [show i = 0 by omega, Nat.add_zero, hb']
        · by_cases hqs : q < start
          · exact hno q hqs
          · rintro ⟨-, h1, h2⟩
            have hqc : s.getD q 0 = cur := by
              have := hcur (q - start) (by omega)
              rwa [Nat.add_sub_cancel' (by omega)] at this
            rcases (show start + cnt = q + 1 ∨ start + cnt = q + 2 by omega) with h | h
            · rw [h] at hb'; exact hne (by rw [← hb', ← h1, hqc])
            · rw [h] at hb'; exact hne (by rw [← hb', ← h2, ← h1, hqc])

/-- RunFind reports the first run, or that there is none (R115). -/
theorem runFind_firstRun (s : List Byte) : FirstRun s (runFind s) := by
  cases s with
  | nil => exact .inl ⟨rfl, rfl, fun q hq => absurd hq.1 (by simp)⟩
  | cons b bs =>
    exact runScan_firstRun (b :: bs) bs b 0 1 (by simp) (by simp) (by omega)
      (fun i hi => by rw [show i = 0 by omega]; rfl) (fun q hq => by omega)

/-- The bounds of R116: the run lies in the slice, and the pair is never (0, 0) on a non-empty slice. -/
theorem runFind_bounds (s : List Byte) : (runFind s).2 + (runFind s).1 ≤ s.length ∧
    (s ≠ [] → 1 ≤ (runFind s).2 + (runFind s).1) := by
  rcases runFind_firstRun s with ⟨h1, h2, -⟩ | ⟨h1, h2, -⟩
  · rw [h1, h2]
    exact ⟨by omega, fun h => by have := List.length_pos_iff.mpr h; omega⟩
  · exact ⟨h2, fun _ => by omega⟩

/-- The slice is its literal prefix, the run, and the rest. -/
theorem runFind_split (s : List Byte) :
    s = s.take (runFind s).2 ++ List.replicate (runFind s).1 (s.getD (runFind s).2 0)
      ++ s.drop ((runFind s).2 + (runFind s).1) := by
  have hb := (runFind_bounds s).1
  have hmid : (s.drop (runFind s).2).take (runFind s).1 = List.replicate (runFind s).1 (s.getD (runFind s).2 0) := by
    apply List.ext_getElem
    · simp; omega
    · intro i h1 h2
      simp only [List.length_replicate] at h2
      rcases runFind_firstRun s with ⟨h0, -⟩ | ⟨-, -, hrun, -⟩
      · omega
      · have := hrun i h2
        rw [List.getD_eq_getElem _ _ (by omega)] at this
        simp only [List.getElem_take, List.getElem_drop, List.getElem_replicate]
        exact this
  rw [← hmid, List.append_assoc]
  conv_lhs => rw [← List.take_append_drop (runFind s).2 s]
  congr 1
  conv_lhs => rw [← List.take_append_drop (runFind s).1 (s.drop (runFind s).2)]
  rw [List.drop_drop]

end Sys2Proof.Machine
end

