-- ==== Sys2Proof/Laws/Encoder.lean ====
section
/-! SUPPORT. The RLE encoder: every part of it appends bytes to the stream, or stops at the first token that does not fit,
with the tokens before it in place (41_rle_encoder.md R105, R109). -/

namespace Sys2Proof.Machine

/-! ### Frames -/

/-- `t` differs from `s` only in what emitting tokens may write. -/
abbrev SpanFrame (s t : State) : Prop :=
  t = { s with status := t.status, fault := t.fault, str := t.str, strPos := t.strPos }

/-- `t` differs from `s` only in what encoding columns may write. -/
abbrev ColsFrame (s t : State) : Prop :=
  t = { s with
    status := t.status, fault := t.fault, str := t.str, strPos := t.strPos,
    rfLen := t.rfLen, rfPos := t.rfPos, col := t.col }

/-- `t` differs from `s` only in what RLE_ENC may write (R100). -/
abbrev EncFrame (s t : State) : Prop :=
  t = { s with
    status := t.status, fault := t.fault, str := t.str, strPos := t.strPos, strLen := t.strLen,
    rfLen := t.rfLen, rfPos := t.rfPos, col := t.col, row := t.row }

theorem SpanFrame.trans {s t u : State} (h1 : SpanFrame s t) (h2 : SpanFrame t u) : SpanFrame s u := by
  unfold SpanFrame at *
  rw [h1] at h2
  exact h2

theorem ColsFrame.trans {s t u : State} (h1 : ColsFrame s t) (h2 : ColsFrame t u) : ColsFrame s u := by
  unfold ColsFrame at *
  rw [h1] at h2
  exact h2

theorem EncFrame.trans {s t u : State} (h1 : EncFrame s t) (h2 : EncFrame t u) : EncFrame s u := by
  unfold EncFrame at *
  rw [h1] at h2
  exact h2

theorem SpanFrame.cols {s t : State} (h : SpanFrame s t) : ColsFrame s t := by
  unfold SpanFrame ColsFrame at *
  rw [h]

theorem ColsFrame.enc {s t : State} (h : ColsFrame s t) : EncFrame s t := by
  unfold ColsFrame EncFrame at *
  rw [h]

theorem emitLit_frame (p k : Nat) (s : State) : SpanFrame s (emitLit p k s) := by
  unfold emitLit; split <;> rfl

theorem emitRep_frame (k : Nat) (v : Byte) (s : State) : SpanFrame s (emitRep k v s) := by
  unfold emitRep; split <;> rfl

theorem litSpan_frame (fuel p rem : Nat) (s : State) : SpanFrame s (litSpan fuel p rem s) := by
  induction fuel generalizing p rem s with
  | zero => rfl
  | succ fuel ih =>
    unfold litSpan; split
    · rfl
    · exact (emitLit_frame _ _ _).trans (ih _ _ _)

theorem repSpan_frame (fuel q rem : Nat) (v : Byte) (s : State) : SpanFrame s (repSpan fuel q rem v s) := by
  induction fuel generalizing q rem s with
  | zero => rfl
  | succ fuel ih =>
    unfold repSpan; split
    · rfl
    · refine SpanFrame.trans ?_ (ih _ _ _)
      split
      · exact emitRep_frame _ _ _
      · exact emitLit_frame _ _ _

theorem encodeSpans_frame (s : State) : SpanFrame s (encodeSpans s) :=
  (litSpan_frame _ _ _ _).trans (repSpan_frame _ _ _ _ _)

theorem encodeStep_frame (s : State) : ColsFrame s (encodeStep s) := by
  unfold encodeStep
  dsimp only
  refine ColsFrame.trans (t := findRun s.c s) rfl ?_
  refine ColsFrame.trans (encodeSpans_frame (findRun s.c s)).cols ?_
  split <;> rfl

theorem encodeCols_frame (fuel : Nat) (s : State) : ColsFrame s (encodeCols fuel s) := by
  induction fuel generalizing s with
  | zero => rfl
  | succ fuel ih =>
    unfold encodeCols; split
    · rfl
    · exact (encodeStep_frame s).trans (ih _)

theorem encodeRow_frame (s : State) : EncFrame s (encodeRow s) := by
  unfold encodeRow nextRow
  refine (encodeCols_frame s.pw s).enc.trans ?_
  split <;> rfl

theorem encodeRows_frame (fuel : Nat) (s : State) : EncFrame s (encodeRows fuel s) := by
  induction fuel generalizing s with
  | zero => rfl
  | succ fuel ih =>
    unfold encodeRows; split
    · rfl
    · exact (encodeRow_frame s).trans (ih _)

theorem rleEncCmd_frame (s : State) : EncFrame s (rleEncCmd s) := by
  unfold rleEncCmd
  rcases command_cases 0x4 (fun s => [dimsCheck s, pkdCheck s, argCheck (decide (s.pos > s.caps.str))]) rleEncBody s
    with ⟨_, h⟩ | ⟨_, k, _, _, h⟩ | ⟨_, _, h⟩
  · rw [h]
  · rw [h]; rfl
  · rw [h]
    refine EncFrame.trans (t := { s with row := 0, col := 0 }) rfl ((encodeRows_frame s.h _).trans ?_)
    unfold rleEncBody encodeEnd; split <;> rfl

/-! ### Appending to the stream -/

theorem RowTokens.append {e d e' d' : List Byte} (h : RowTokens e d) (h' : RowTokens e' d') :
    RowTokens (e ++ e') (d ++ d') := by
  induction h with
  | nil => exact h'
  | lit raw h1 h2 _ ih => rw [List.append_assoc, List.append_assoc]; exact .lit raw h1 h2 ih
  | rep n v h1 h2 _ ih => rw [List.append_assoc, List.append_assoc]; exact .rep n v h1 h2 ih

/-- `s` with the bytes `bs` at STR_POS and STR_POS past them. -/
def appended (bs : List Byte) (s : State) : State :=
  { s with
    str := Memory.fill s.str s.pos bs.length (fun k => bs.getD k 0)
    strPos := BitVec.ofNat 33 (s.pos + bs.length) }

theorem appended_nil (s : State) : appended [] s = s := by
  unfold appended State.pos
  simp [Memory.fill]

theorem appended_pos {bs : List Byte} {s : State} (h : s.pos + bs.length < 2 ^ 33) :
    (appended bs s).pos = s.pos + bs.length := by
  show (BitVec.ofNat 33 (s.pos + bs.length)).toNat = _
  rw [BitVec.toNat_ofNat, Nat.mod_eq_of_lt h]

theorem appended_append {bs cs : List Byte} {s : State} (h : s.pos + bs.length < 2 ^ 33) :
    appended cs (appended bs s) = appended (bs ++ cs) s := by
  have hp := appended_pos h
  have hs : Memory.fill (appended bs s).str (s.pos + bs.length) cs.length (fun k => cs.getD k 0) =
      (appended (bs ++ cs) s).str := Memory.fill_append _ _ _ _
  have hq : BitVec.ofNat 33 (s.pos + bs.length + cs.length) = (appended (bs ++ cs) s).strPos := by
    unfold appended; rw [List.length_append, Nat.add_assoc]
  conv_lhs => rw [appended, hp, hs, hq]
  rfl

/-- Emitting the tokens `bs` from `s` gives `t`: appended when they fit, else `StreamOverflow` at the first token that does not
fit, the whole tokens before it in place (R105, R109). -/
def SpanOut (s t : State) (bs : List Byte) : Prop :=
  (s.pos + bs.length ≤ s.caps.str ∧ t = appended bs s) ∨
  (s.caps.str < s.pos + bs.length ∧
    ∃ pre tok d dt, pre ++ tok <+: bs ∧ RowTokens pre d ∧ IsToken tok dt ∧ s.pos + pre.length ≤ s.caps.str ∧
      s.caps.str < s.pos + pre.length + tok.length ∧ t = raise .streamOverflow 0 0x4 (appended pre s))

theorem SpanOut.nil {s : State} (h : s.pos ≤ s.caps.str) : SpanOut s s [] :=
  .inl ⟨by simpa using h, (appended_nil s).symm⟩

theorem SpanOut.trans {s t u : State} {bs cs ds : List Byte} (hcap : s.caps.str < 2 ^ 33) (hf : ¬ s.faulted)
    (hw : RowTokens bs ds)
    (h1 : SpanOut s t bs) (h2 : ¬ t.faulted → SpanOut t u cs) (h3 : t.faulted → u = t) : SpanOut s u (bs ++ cs) := by
  rcases h1 with ⟨hle, rfl⟩ | ⟨hlt, pre, tok, d, dt, hpre, hd, htok, hple, hplt, rfl⟩
  · have hp := appended_pos (bs := bs) (s := s) (by omega)
    have ht : ¬ (appended bs s).faulted := hf
    rcases h2 ht with ⟨hle2, rfl⟩ | ⟨hlt2, pre, tok, d, dt, hpre, hd, htok, hple, hplt, rfl⟩
    · rw [hp] at hle2
      refine .inl ⟨by rw [List.length_append]; change _ ≤ s.caps.str at hle2; omega, appended_append (by omega)⟩
    · rw [hp] at hlt2 hple hplt
      change s.caps.str < _ at hlt2 hplt
      change _ ≤ s.caps.str at hple
      refine .inr ⟨by rw [List.length_append]; omega, bs ++ pre, tok, ds ++ d, dt, ?_, hw.append hd, htok,
        by rw [List.length_append]; omega, by rw [List.length_append]; omega, ?_⟩
      · rw [List.append_assoc]; exact (List.prefix_append_right_inj bs).mpr hpre
      · rw [appended_append (by omega)]
  · rw [h3 rfl]
    exact .inr ⟨by rw [List.length_append]; omega, pre, tok, d, dt, hpre.trans (List.prefix_append _ _), hd, htok, hple, hplt,
      rfl⟩

theorem Memory.fill_one (m : Memory) (a : Nat) (f : Nat → Byte) : Memory.fill m a 1 f = Memory.write m a (f 0) := rfl

theorem emitLit_out {p k : Nat} {s : State} (h1 : 1 ≤ k) (h2 : k ≤ 128) (hp : s.pos ≤ s.caps.str) :
    SpanOut s (emitLit p k s) (litBytes (s.lineSlice p k)) := by
  have hlen : (litBytes (s.lineSlice p k)).length = k + 1 := by simp [litBytes, State.lineSlice]
  have hl : (s.lineSlice p k).length = k := by simp [State.lineSlice]
  unfold emitLit
  split
  next h =>
    exact .inr ⟨by rw [hlen]; omega, [], litBytes (s.lineSlice p k), [], s.lineSlice p k, List.prefix_rfl, .nil,
      .inl ⟨_, by omega, by omega, rfl, rfl⟩, by simpa using hp, by rw [hlen]; simp; omega, by rw [appended_nil]⟩
  next h =>
    refine .inl ⟨by rw [hlen]; omega, ?_⟩
    unfold appended
    rw [hlen, show s.pos + 1 + k = s.pos + (k + 1) by omega]
    have : Memory.fill (Memory.write s.str s.pos (encodeByte (.lit k))) (s.pos + 1) k (fun j => s.line (p + j)) =
        Memory.fill s.str s.pos (k + 1) (fun j => (litBytes (s.lineSlice p k)).getD j 0) := by
      rw [Nat.add_comm k 1, Memory.fill_add, Memory.fill_one]
      unfold litBytes
      rw [hl]
      refine Memory.fill_congr (fun j hj => ?_)
      rw [Nat.add_comm 1 j, List.getD_cons_succ, State.lineSlice, Memory.getD_slice hj]
      show Memory.read s.pkd (s.r * s.pw + (p + j)) = Memory.read s.pkd (s.r * s.pw + p + j)
      rw [Nat.add_assoc]
    rw [this]

theorem emitRep_out {k : Nat} {v : Byte} {s : State} (h1 : 3 ≤ k) (h2 : k ≤ 130) (hp : s.pos ≤ s.caps.str) :
    SpanOut s (emitRep k v s) (repBytes k v) := by
  unfold emitRep
  split
  next h =>
    exact .inr ⟨by simpa [repBytes] using h, [], repBytes k v, [], List.replicate k v, List.prefix_rfl, .nil,
      .inr ⟨k, v, h1, h2, rfl, rfl⟩, by simpa using hp, by simpa [repBytes] using h, by rw [appended_nil]⟩
  next h => exact .inl ⟨by simp [repBytes]; omega, rfl⟩

theorem SpanOut.pos_le {s t : State} {bs : List Byte} (hcap : s.caps.str < 2 ^ 33) (h : SpanOut s t bs) :
    t.pos ≤ t.caps.str := by
  rcases h with ⟨hle, rfl⟩ | ⟨-, pre, tok, d, dt, -, -, -, hple, -, rfl⟩
  · rw [appended_pos (by omega)]; exact hle
  · show (appended pre s).pos ≤ s.caps.str
    rw [appended_pos (by omega)]; exact hple

theorem lineSlice_frame {s t : State} (h : SpanFrame s t) (p n : Nat) : t.lineSlice p n = s.lineSlice p n := by
  rw [h]; rfl

theorem line_frame {s t : State} (h : SpanFrame s t) (p : Nat) : t.line p = s.line p := by
  rw [h]; rfl

theorem litSpan_of_faulted {fuel p rem : Nat} {s : State} (h : s.faulted) : litSpan fuel p rem s = s := by
  cases fuel <;> simp [litSpan, h]

theorem repSpan_of_faulted {fuel q rem : Nat} {v : Byte} {s : State} (h : s.faulted) : repSpan fuel q rem v s = s := by
  cases fuel <;> simp [repSpan, h]

theorem litSpanBytes_tokens {fuel : Nat} {raw : List Byte} (h : raw.length ≤ fuel) :
    RowTokens (litSpanBytes fuel raw) raw := by
  induction fuel generalizing raw with
  | zero =>
    obtain rfl := List.length_eq_zero_iff.mp (Nat.le_zero.mp h)
    exact .nil
  | succ fuel ih =>
    unfold litSpanBytes
    split
    next h0 => subst h0; exact .nil
    next h0 =>
      have hpos := List.length_pos_iff.mpr h0
      have := RowTokens.lit (raw.take 128) (by rw [List.length_take]; omega) (by rw [List.length_take]; omega)
        (ih (raw := raw.drop 128) (by rw [List.length_drop]; omega))
      rwa [List.take_append_drop] at this

theorem repSpanBytes_tokens {fuel n : Nat} (v : Byte) (h : n ≤ fuel) :
    RowTokens (repSpanBytes fuel n v) (List.replicate n v) := by
  induction fuel generalizing n with
  | zero =>
    obtain rfl := Nat.le_zero.mp h
    exact .nil
  | succ fuel ih =>
    unfold repSpanBytes
    split
    next h0 => subst h0; exact .nil
    next h0 =>
      have hrest := ih (n := n - min n 130) (by omega)
      have hsplit : List.replicate n v = List.replicate (min n 130) v ++ List.replicate (n - min n 130) v := by
        rw [List.replicate_append_replicate]; congr 1; omega
      rw [hsplit]
      split
      next h3 => exact .rep _ v h3 (by omega) hrest
      next h3 => exact .lit _ (by rw [List.length_replicate]; omega) (by rw [List.length_replicate]; omega) hrest

/-- LITSPAN emits the bytes of its expansion (R102). -/
theorem litSpan_out {fuel p rem : Nat} {s : State} (hcap : s.caps.str < 2 ^ 33) (hf : ¬ s.faulted)
    (hp : s.pos ≤ s.caps.str) : SpanOut s (litSpan fuel p rem s) (litSpanBytes fuel (s.lineSlice p rem)) := by
  induction fuel generalizing p rem s with
  | zero => exact .nil hp
  | succ fuel ih =>
    by_cases h0 : rem = 0
    · subst h0
      simp only [litSpan, litSpanBytes, State.lineSlice, Memory.slice_zero, or_true, if_true]
      exact .nil hp
    · have hne : s.lineSlice p rem ≠ [] := by
        intro h
        have := congrArg List.length h
        simp [State.lineSlice] at this
        exact h0 this
      have htake : (s.lineSlice p rem).take 128 = s.lineSlice p (min rem 128) := by
        unfold State.lineSlice
        rw [← Memory.take_slice s.pkd _ rem (min rem 128) (by omega)]
        rcases Nat.le_total rem 128 with h | h
        · rw [Nat.min_eq_left h, List.take_of_length_le (by simpa using h), List.take_of_length_le (by simp)]
        · rw [Nat.min_eq_right h]
      have hdrop : (s.lineSlice p rem).drop 128 = s.lineSlice (p + min rem 128) (rem - min rem 128) := by
        unfold State.lineSlice
        rw [show s.lineAddr (p + min rem 128) = s.lineAddr p + min rem 128 from (Nat.add_assoc _ _ _).symm,
          ← Memory.drop_slice s.pkd _ rem (min rem 128) (by omega)]
        rcases Nat.le_total rem 128 with h | h
        · rw [Nat.min_eq_left h, List.drop_eq_nil_of_le (by simpa using h), List.drop_eq_nil_of_le (by simp)]
        · rw [Nat.min_eq_right h]
      rw [litSpan, if_neg (by simp [hf, h0]), litSpanBytes, if_neg hne, htake, hdrop]
      have h1 := emitLit_out (p := p) (k := min rem 128) (by omega) (by omega) hp
      have hw := RowTokens.lit (s.lineSlice p (min rem 128)) (by simp [State.lineSlice]; omega)
        (by simp [State.lineSlice]) .nil
      rw [List.append_nil, List.append_nil] at hw
      refine h1.trans hcap hf hw (fun ht => ?_) (fun ht => litSpan_of_faulted ht)
      have hfr := emitLit_frame p (min rem 128) s
      rw [← lineSlice_frame hfr]
      exact ih (by rw [hfr]; exact hcap) ht (h1.pos_le hcap)

/-- REPSPAN emits the bytes of its expansion (R103). -/
theorem repSpan_out {fuel q rem : Nat} {v : Byte} {s : State} (hcap : s.caps.str < 2 ^ 33) (hf : ¬ s.faulted)
    (hp : s.pos ≤ s.caps.str) (hrun : ∀ j, j < rem → s.line (q + j) = v) :
    SpanOut s (repSpan fuel q rem v s) (repSpanBytes fuel rem v) := by
  induction fuel generalizing q rem s with
  | zero => exact .nil hp
  | succ fuel ih =>
    by_cases h0 : rem = 0
    · subst h0
      simp only [repSpan, repSpanBytes, or_true, if_true]
      exact .nil hp
    · rw [repSpan, if_neg (by simp [hf, h0]), repSpanBytes, if_neg h0]
      have h1 : SpanOut s (if 3 ≤ min rem 130 then emitRep (min rem 130) v s else emitLit q (min rem 130) s)
          (if 3 ≤ min rem 130 then repBytes (min rem 130) v else litBytes (List.replicate (min rem 130) v)) := by
        split
        next h3 => exact emitRep_out h3 (by omega) hp
        next h3 =>
          have : s.lineSlice q (min rem 130) = List.replicate (min rem 130) v := by
            apply List.ext_getElem
            · simp [State.lineSlice]
            · intro i hi _
              simp only [State.lineSlice, Memory.length_slice] at hi
              simp only [State.lineSlice, Memory.getElem_slice, List.getElem_replicate]
              rw [← hrun i (by omega)]
              show _ = Memory.read s.pkd (s.r * s.pw + (q + i))
              rw [← Nat.add_assoc]; rfl
          rw [← this]
          exact emitLit_out (by omega) (by omega) hp
      have hfr : SpanFrame s (if 3 ≤ min rem 130 then emitRep (min rem 130) v s else emitLit q (min rem 130) s) := by
        split
        · exact emitRep_frame _ _ _
        · exact emitLit_frame _ _ _
      have hw : RowTokens
          (if 3 ≤ min rem 130 then repBytes (min rem 130) v else litBytes (List.replicate (min rem 130) v))
          (List.replicate (min rem 130) v) := by
        split
        next h3 => simpa using RowTokens.rep _ v h3 (by omega) .nil
        next h3 => simpa using RowTokens.lit (List.replicate (min rem 130) v) (by simp; omega) (by simp; omega) .nil
      refine h1.trans hcap hf hw (fun ht => ?_) (fun ht => repSpan_of_faulted ht)
      refine ih (by rw [hfr]; exact hcap) ht (h1.pos_le hcap) (fun j hj => ?_)
      rw [line_frame hfr, Nat.add_assoc]
      exact hrun _ (by omega)


/-! ### Rows -/

/-- `s` with the registers that encoding a row moves. -/
def cursors (rl rp cc : BitVec 16) (rr : BitVec 17) (s : State) : State :=
  { s with rfLen := rl, rfPos := rp, col := cc, row := rr }

/-- As `SpanOut`, with the run finder's registers and the cursors moved besides. -/
def EncOut (s t : State) (bs : List Byte) : Prop :=
  (s.pos + bs.length ≤ s.caps.str ∧ ∃ rl rp cc rr, t = cursors rl rp cc rr (appended bs s)) ∨
  (s.caps.str < s.pos + bs.length ∧
    ∃ pre rl rp cc rr, pre <+: bs ∧ s.pos + pre.length ≤ s.caps.str ∧
      t = raise .streamOverflow 0 0x4 (cursors rl rp cc rr (appended pre s)))

theorem EncOut.nil {s : State} (h : s.pos ≤ s.caps.str) : EncOut s s [] :=
  .inl ⟨by simpa using h, s.rfLen, s.rfPos, s.col, s.row, by rw [appended_nil]; rfl⟩

theorem EncOut.cursors {s t : State} {bs : List Byte} (h : EncOut s t bs) (rl rp cc : BitVec 16) (rr : BitVec 17) :
    EncOut s (cursors rl rp cc rr t) bs := by
  rcases h with ⟨hle, _, _, _, _, rfl⟩ | ⟨hlt, pre, _, _, _, _, hpre, hple, rfl⟩
  · exact .inl ⟨hle, rl, rp, cc, rr, rfl⟩
  · exact .inr ⟨hlt, pre, rl, rp, cc, rr, hpre, hple, rfl⟩

theorem EncOut.trans {s t u : State} {bs cs : List Byte} (hcap : s.caps.str < 2 ^ 33) (hf : ¬ s.faulted)
    (h1 : EncOut s t bs) (h2 : ¬ t.faulted → EncOut t u cs) (h3 : t.faulted → u = t) : EncOut s u (bs ++ cs) := by
  rcases h1 with ⟨hle, a, b, c, d, rfl⟩ | ⟨hlt, pre, a, b, c, d, hpre, hple, rfl⟩
  · have hp : (Machine.cursors a b c d (appended bs s)).pos = s.pos + bs.length := appended_pos (by omega)
    have happ : ∀ cs, appended cs (Machine.cursors a b c d (appended bs s)) =
        Machine.cursors a b c d (appended (bs ++ cs) s) := by
      intro cs
      rw [← appended_append (by omega)]
      rfl
    have ht : ¬ (Machine.cursors a b c d (appended bs s)).faulted := hf
    rcases h2 ht with ⟨hle2, a', b', c', d', rfl⟩ | ⟨hlt2, pre, a', b', c', d', hpre, hple, rfl⟩
    · rw [hp] at hle2
      change _ ≤ s.caps.str at hle2
      exact .inl ⟨by rw [List.length_append]; omega, a', b', c', d', by rw [happ]; rfl⟩
    · rw [hp] at hlt2 hple
      change s.caps.str < _ at hlt2
      change _ ≤ s.caps.str at hple
      exact .inr ⟨by rw [List.length_append]; omega, bs ++ pre, a', b', c', d',
        (List.prefix_append_right_inj bs).mpr hpre, by rw [List.length_append]; omega, by rw [happ]; rfl⟩
  · rw [h3 rfl]
    exact .inr ⟨by rw [List.length_append]; omega, pre, a, b, c, d, hpre.trans (List.prefix_append _ _), hple, rfl⟩

theorem EncOut.pos_le {s t : State} {bs : List Byte} (hcap : s.caps.str < 2 ^ 33) (h : EncOut s t bs) :
    t.pos ≤ t.caps.str := by
  rcases h with ⟨hle, a, b, c, d, rfl⟩ | ⟨-, pre, a, b, c, d, -, hple, rfl⟩
  · show (appended bs s).pos ≤ s.caps.str
    rw [appended_pos (by omega)]; exact hle
  · show (appended pre s).pos ≤ s.caps.str
    rw [appended_pos (by omega)]; exact hple

/-- The rest of the row from column `c` on. -/
abbrev restOf (s : State) : List Byte :=
  s.lineSlice s.c (s.pw - s.c)

theorem restOf_length (s : State) : (restOf s).length = s.pw - s.c := by
  simp [restOf, State.lineSlice]

theorem findRun_regs (s : State) (hpw : s.pw ≤ 32768) :
    (findRun s.c s).rfLen.toNat = (runFind (restOf s)).1 ∧ (findRun s.c s).rfPos.toNat = (runFind (restOf s)).2 := by
  have hb := (runFind_bounds (restOf s)).1
  rw [restOf_length] at hb
  constructor
  · show (BitVec.ofNat 16 (runFind (restOf s)).1).toNat = _
    rw [BitVec.toNat_ofNat, Nat.mod_eq_of_lt (by omega)]
  · show (BitVec.ofNat 16 (runFind (restOf s)).2).toNat = _
    rw [BitVec.toNat_ofNat, Nat.mod_eq_of_lt (by omega)]

theorem line_of_restOf {s : State} {j : Nat} (h : j < s.pw - s.c) : s.line (s.c + j) = (restOf s).getD j 0 := by
  rw [restOf, State.lineSlice, Memory.getD_slice h]
  show Memory.read s.pkd (s.r * s.pw + (s.c + j)) = _
  rw [← Nat.add_assoc]; rfl

theorem encodeSpans_out {s : State} (hcap : s.caps.str < 2 ^ 33) (hf : ¬ s.faulted) (hp : s.pos ≤ s.caps.str)
    (hpw : s.pw ≤ 32768) :
    SpanOut (findRun s.c s) (encodeSpans (findRun s.c s)) (stepBytes (restOf s)) := by
  obtain ⟨hl, hr⟩ := findRun_regs s hpw
  have hb := (runFind_bounds (restOf s)).1
  have hlen := restOf_length s
  rw [hlen] at hb
  unfold encodeSpans stepBytes
  rw [hl, hr]
  have htake : (restOf s).take (runFind (restOf s)).2 = (findRun s.c s).lineSlice s.c (runFind (restOf s)).2 :=
    Memory.take_slice _ _ _ _ (by omega)
  rw [htake]
  refine SpanOut.trans (t := litSpan (runFind (restOf s)).2 (findRun s.c s).c (runFind (restOf s)).2 (findRun s.c s))
    hcap hf (litSpanBytes_tokens (by simp [State.lineSlice])) (litSpan_out hcap hf hp) (fun ht => ?_) (fun ht => repSpan_of_faulted ht)
  have hfr := litSpan_frame (runFind (restOf s)).2 (findRun s.c s).c (runFind (restOf s)).2 (findRun s.c s)
  have hv : (runFind (restOf s)).1 = 0 ∨
      (findRun s.c s).line ((findRun s.c s).c + (runFind (restOf s)).2) = (restOf s).getD (runFind (restOf s)).2 0 := by
    rcases Nat.eq_zero_or_pos (runFind (restOf s)).1 with h | h
    · exact .inl h
    · exact .inr (line_of_restOf (s := s) (by omega))
  have hout := repSpan_out (fuel := (runFind (restOf s)).1) (q := (findRun s.c s).c + (runFind (restOf s)).2)
    (rem := (runFind (restOf s)).1) (v := (findRun s.c s).line ((findRun s.c s).c + (runFind (restOf s)).2))
    (s := litSpan (runFind (restOf s)).2 (findRun s.c s).c (runFind (restOf s)).2 (findRun s.c s))
    (by rw [hfr]; exact hcap) ht
    (SpanOut.pos_le (s := findRun s.c s) hcap (litSpan_out (s := findRun s.c s) hcap hf hp)) (fun j hj => by
      rw [line_frame hfr]
      rcases runFind_firstRun (restOf s) with ⟨h0, -⟩ | ⟨-, -, hrun, -⟩
      · omega
      · have e1 := line_of_restOf (s := s) (j := (runFind (restOf s)).2 + j) (by omega)
        have e2 := line_of_restOf (s := s) (j := (runFind (restOf s)).2) (by omega)
        rw [← Nat.add_assoc] at e1
        show s.line (s.c + (runFind (restOf s)).2 + j) = s.line (s.c + (runFind (restOf s)).2)
        rw [e1, e2]; exact hrun j hj)
  rcases hv with h0 | hv
  · rw [h0] at hout ⊢
    exact hout
  · rw [hv] at hout ⊢
    exact hout

theorem encodeStep_out {s : State} (hcap : s.caps.str < 2 ^ 33) (hf : ¬ s.faulted) (hp : s.pos ≤ s.caps.str)
    (hpw : s.pw ≤ 32768) : EncOut s (encodeStep s) (stepBytes (restOf s)) := by
  have hout : EncOut s (encodeSpans (findRun s.c s)) (stepBytes (restOf s)) := by
    rcases encodeSpans_out hcap hf hp hpw with ⟨hle, h⟩ | ⟨hlt, pre, tok, d, dt, hpre, -, -, hple, -, h⟩
    · exact .inl ⟨hle, (findRun s.c s).rfLen, (findRun s.c s).rfPos, s.col, s.row, by rw [h]; rfl⟩
    · exact .inr ⟨hlt, pre, (findRun s.c s).rfLen, (findRun s.c s).rfPos, s.col, s.row,
        (List.prefix_append pre tok).trans hpre, hple, by rw [h]; rfl⟩
  unfold encodeStep
  dsimp only
  split
  · exact hout
  · exact hout.cursors _ _ _ _

/-- Where an iteration that did not fault leaves COL and the run finder's registers (R104). -/
theorem encodeStep_cursors {s : State} (hpw : s.pw ≤ 32768) (hc : s.c ≤ s.pw) (hf : ¬ (encodeStep s).faulted) :
    (encodeStep s).c = s.c + (runFind (restOf s)).2 + (runFind (restOf s)).1 ∧
    (encodeStep s).rfLen.toNat = (runFind (restOf s)).1 ∧ (encodeStep s).rfPos.toNat = (runFind (restOf s)).2 := by
  obtain ⟨hl, hr⟩ := findRun_regs s hpw
  have hfr := encodeSpans_frame (findRun s.c s)
  have hb := (runFind_bounds (restOf s)).1
  rw [restOf_length] at hb
  have hne : ¬ (encodeSpans (findRun s.c s)).faulted := by
    intro h
    apply hf
    unfold encodeStep
    rw [if_pos h]; exact h
  have e : encodeStep s = { encodeSpans (findRun s.c s) with
      col := BitVec.ofNat 16 (s.c + (findRun s.c s).rfPos.toNat + (findRun s.c s).rfLen.toNat) } := by
    unfold encodeStep
    rw [if_neg hne]
    conv_lhs => rw [hfr]
    conv_rhs => rw [hfr]
    rfl
  rw [hl, hr] at e
  refine ⟨?_, ?_, ?_⟩
  · rw [e]
    show (BitVec.ofNat 16 _).toNat = _
    rw [BitVec.toNat_ofNat, Nat.mod_eq_of_lt (by omega)]
  · rw [e, ← hl]; show (encodeSpans (findRun s.c s)).rfLen.toNat = _; rw [hfr]
  · rw [e, ← hr]; show (encodeSpans (findRun s.c s)).rfPos.toNat = _; rw [hfr]

theorem encodeCols_stop {fuel : Nat} {s : State} (h : s.faulted ∨ s.c ≥ s.pw) : encodeCols fuel s = s := by
  cases fuel with
  | zero => rfl
  | succ fuel => exact if_pos h

theorem encodeCols_run {fuel : Nat} {s : State} (hf : ¬ s.faulted) (hc : s.c < s.pw) :
    encodeCols (fuel + 1) s = encodeCols fuel (encodeStep s) :=
  if_neg (by rintro (h | h); exacts [hf h, by omega])

theorem encodeStep_keeps (s : State) : (encodeStep s).pw = s.pw ∧ (encodeStep s).row = s.row ∧
    (encodeStep s).pkd = s.pkd ∧ (encodeStep s).caps = s.caps := by
  have h := encodeStep_frame s
  exact ⟨by rw [h]; rfl, by rw [h], by rw [h], by rw [h]⟩

/-- The rest of the row after an iteration. -/
theorem restOf_encodeStep {s : State} (hpw : s.pw ≤ 32768) (hc : s.c ≤ s.pw) (hf : ¬ (encodeStep s).faulted) :
    restOf (encodeStep s) = (restOf s).drop ((runFind (restOf s)).2 + (runFind (restOf s)).1) := by
  obtain ⟨h1, h2, h3, -⟩ := encodeStep_keeps s
  obtain ⟨hcc, -⟩ := encodeStep_cursors hpw hc hf
  have hb := (runFind_bounds (restOf s)).1
  rw [restOf_length] at hb
  have hr : (encodeStep s).r = s.r := by unfold State.r; rw [h2]
  have hd := Memory.drop_slice s.pkd (s.lineAddr s.c) (s.pw - s.c) ((runFind (restOf s)).2 + (runFind (restOf s)).1) hb
  show Memory.slice (encodeStep s).pkd ((encodeStep s).r * (encodeStep s).pw + (encodeStep s).c)
    ((encodeStep s).pw - (encodeStep s).c) = _
  rw [h1, h3, hr, hcc]
  refine Eq.trans ?_ hd.symm
  rw [show s.r * s.pw + (s.c + (runFind (restOf s)).2 + (runFind (restOf s)).1) =
    s.lineAddr s.c + ((runFind (restOf s)).2 + (runFind (restOf s)).1) by
      unfold State.lineAddr State.packedAddr; omega,
    show s.pw - (s.c + (runFind (restOf s)).2 + (runFind (restOf s)).1) =
      s.pw - s.c - ((runFind (restOf s)).2 + (runFind (restOf s)).1) by omega]

theorem restOf_eq_nil {s : State} : restOf s = [] ↔ s.pw ≤ s.c := by
  rw [← List.length_eq_zero_iff, restOf_length]; omega

/-- EncodeRow's loop emits the row's tokens (R101). -/
theorem encodeCols_out {fuel : Nat} {s : State} (hcap : s.caps.str < 2 ^ 33) (hf : ¬ s.faulted) (hp : s.pos ≤ s.caps.str)
    (hpw : s.pw ≤ 32768) (hc : s.c ≤ s.pw) : EncOut s (encodeCols fuel s) (encodeRowBytes fuel (restOf s)) := by
  induction fuel generalizing s with
  | zero => exact .nil hp
  | succ fuel ih =>
    by_cases he : s.pw ≤ s.c
    · rw [encodeCols_stop (.inr he), encodeRowBytes, if_pos (restOf_eq_nil.mpr he)]
      exact .nil hp
    · rw [encodeCols_run hf (by omega), encodeRowBytes, if_neg (by rw [restOf_eq_nil]; exact he)]
      have h1 := encodeStep_out hcap hf hp hpw
      refine h1.trans hcap hf (fun ht => ?_) (fun ht => encodeCols_stop (.inl ht))
      obtain ⟨k1, -, -, k4⟩ := encodeStep_keeps s
      have hcur := (encodeStep_cursors hpw hc ht).1
      have hb := (runFind_bounds (restOf s)).1
      rw [restOf_length] at hb
      rw [← restOf_encodeStep hpw hc ht]
      exact ih (by rw [k4]; exact hcap) ht (h1.pos_le hcap) (by rw [k1]; exact hpw) (by rw [k1, hcur]; omega)

/-- With a column of fuel per column left, EncodeRow's loop ends at a fault or with the row done, the run finder's registers
holding its last result (R108, R112). -/
theorem encodeCols_end {fuel : Nat} {s : State} (hf : ¬ s.faulted) (hpw : s.pw ≤ 32768) (hc : s.c < s.pw)
    (hfuel : s.pw - s.c ≤ fuel) (hr : ¬ (encodeCols fuel s).faulted) :
    (encodeCols fuel s).c = s.pw ∧
    ((encodeCols fuel s).rfLen.toNat, (encodeCols fuel s).rfPos.toNat) = lastRun fuel (restOf s) := by
  induction fuel generalizing s with
  | zero => omega
  | succ fuel ih =>
    rw [encodeCols_run hf hc] at hr ⊢
    have ht : ¬ (encodeStep s).faulted := by
      intro h
      rw [encodeCols_stop (.inl h)] at hr
      exact hr h
    obtain ⟨k1, -, -, k4⟩ := encodeStep_keeps s
    obtain ⟨hcur, hl, hp⟩ := encodeStep_cursors hpw (by omega) ht
    have hrest := restOf_encodeStep hpw (by omega) ht
    have hb := runFind_bounds (restOf s)
    have hb2 := hb.2 (by rw [Ne, restOf_eq_nil]; omega)
    have hb1 := hb.1
    rw [restOf_length] at hb1
    unfold lastRun
    rw [← hrest]
    by_cases he : s.pw ≤ (encodeStep s).c
    · rw [encodeCols_stop (.inr (by rw [k1]; exact he)), if_pos (by rw [restOf_eq_nil, k1]; exact he), hl, hp]
      exact ⟨by omega, rfl⟩
    · rw [if_neg (by rw [restOf_eq_nil, k1]; exact he), ← k1]
      exact ih ht (by rw [k1]; exact hpw) (by rw [k1]; omega) (by rw [k1]; omega) hr

theorem restOf_row {s : State} (hc : s.c = 0) : restOf s = s.packedRow s.r := by
  unfold restOf
  rw [hc, Nat.sub_zero]; rfl

/-- EncodeRow emits its row's tokens (R101). -/
theorem encodeRow_out {s : State} (hcap : s.caps.str < 2 ^ 33) (hf : ¬ s.faulted) (hp : s.pos ≤ s.caps.str)
    (hpw : s.pw ≤ 32768) (hc : s.c = 0) : EncOut s (encodeRow s) (encodeRowBytes s.pw (s.packedRow s.r)) := by
  rw [← restOf_row hc]
  have h := encodeCols_out (fuel := s.pw) hcap hf hp hpw (by omega)
  unfold encodeRow nextRow
  split
  · exact h
  · exact h.cursors _ _ _ _

theorem encodeRow_end {s : State} (hf : ¬ s.faulted) (hpw : s.pw ≤ 32768) (hpw1 : 1 ≤ s.pw) (hc : s.c = 0)
    (hr : ¬ (encodeRow s).faulted) :
    (encodeRow s).row = BitVec.ofNat 17 (s.r + 1) ∧ (encodeRow s).col = 0 ∧
    ((encodeRow s).rfLen.toNat, (encodeRow s).rfPos.toNat) = lastRun s.pw (s.packedRow s.r) := by
  have hne : ¬ (encodeCols s.pw s).faulted := by
    intro h
    apply hr
    unfold encodeRow nextRow
    rw [if_pos h]; exact h
  have he := (encodeCols_end (fuel := s.pw) hf hpw (by omega) (by omega) hne).2
  rw [restOf_row hc] at he
  have e : encodeRow s = { encodeCols s.pw s with row := BitVec.ofNat 17 ((encodeCols s.pw s).r + 1), col := 0 } := by
    unfold encodeRow nextRow; rw [if_neg hne]
  have hrow : (encodeCols s.pw s).r = s.r := by rw [encodeCols_frame s.pw s]; rfl
  rw [hrow] at e
  rw [e]
  exact ⟨rfl, rfl, he⟩

theorem encodeRows_stop {fuel : Nat} {s : State} (h : s.faulted ∨ s.r ≥ s.h) : encodeRows fuel s = s := by
  cases fuel with
  | zero => rfl
  | succ fuel => exact if_pos h

theorem encodeRows_run {fuel : Nat} {s : State} (hf : ¬ s.faulted) (hr : s.r < s.h) :
    encodeRows (fuel + 1) s = encodeRows fuel (encodeRow s) :=
  if_neg (by rintro (h | h); exacts [hf h, by omega])

/-- The row loop emits the tokens of its rows (R100). -/
theorem encodeRows_out {fuel : Nat} {s : State} (hcap : s.caps.str < 2 ^ 33) (hf : ¬ s.faulted) (hp : s.pos ≤ s.caps.str)
    (hd : s.dimsLegal) (hc : s.col = 0) (hr : s.r + fuel ≤ s.h) :
    EncOut s (encodeRows fuel s) ((List.range' s.r fuel).flatMap (fun r => encodeRowBytes s.pw (s.packedRow r))) := by
  induction fuel generalizing s with
  | zero => exact .nil hp
  | succ fuel ih =>
    have hb := pw_bounds hd
    have hc0 : s.c = 0 := by unfold State.c; rw [hc]; rfl
    rw [encodeRows_run hf (by omega), List.range'_succ, List.flatMap_cons]
    have h1 := encodeRow_out hcap hf hp hb.2 hc0
    refine h1.trans hcap hf (fun ht => ?_) (fun ht => encodeRows_stop (.inl ht))
    obtain ⟨hrow, hcol, -⟩ := encodeRow_end hf hb.2 hb.1 hc0 ht
    have hfr := encodeRow_frame s
    have hpw : (encodeRow s).pw = s.pw := by rw [hfr]; rfl
    have hh : (encodeRow s).h = s.h := by rw [hfr]; rfl
    have hr1 : (encodeRow s).r = s.r + 1 := by
      show (encodeRow s).row.toNat = _
      rw [hrow, BitVec.toNat_ofNat, Nat.mod_eq_of_lt (by have := hd.2.2.2; omega)]
    have hpk : (encodeRow s).packedRow = s.packedRow := by
      funext r; unfold State.packedRow State.packedAddr; rw [hpw, show (encodeRow s).pkd = s.pkd by rw [hfr]]
    have := ih (s := encodeRow s) (by rw [hfr]; exact hcap) ht (h1.pos_le hcap) (by rw [hfr]; exact hd) hcol
      (by rw [hr1, hh]; omega)
    rw [hr1, hpw, hpk] at this
    exact this

theorem encodeRows_end {fuel : Nat} {s : State} (hf : ¬ s.faulted) (hd : s.dimsLegal) (hc : s.col = 0)
    (hr : s.r + fuel ≤ s.h) (h1 : 1 ≤ fuel) (ht : ¬ (encodeRows fuel s).faulted) :
    (encodeRows fuel s).row = BitVec.ofNat 17 (s.r + fuel) ∧ (encodeRows fuel s).col = 0 ∧
    ((encodeRows fuel s).rfLen.toNat, (encodeRows fuel s).rfPos.toNat) =
      lastRun s.pw (s.packedRow (s.r + fuel - 1)) := by
  induction fuel generalizing s with
  | zero => omega
  | succ fuel ih =>
    have hb := pw_bounds hd
    have hc0 : s.c = 0 := by unfold State.c; rw [hc]; rfl
    rw [encodeRows_run hf (by omega)] at ht ⊢
    have hne : ¬ (encodeRow s).faulted := by
      intro h
      rw [encodeRows_stop (.inl h)] at ht
      exact ht h
    obtain ⟨hrow, hcol, hlast⟩ := encodeRow_end hf hb.2 hb.1 hc0 hne
    have hfr := encodeRow_frame s
    have hpw : (encodeRow s).pw = s.pw := by rw [hfr]; rfl
    have hh : (encodeRow s).h = s.h := by rw [hfr]; rfl
    have hr1 : (encodeRow s).r = s.r + 1 := by
      show (encodeRow s).row.toNat = _
      rw [hrow, BitVec.toNat_ofNat, Nat.mod_eq_of_lt (by have := hd.2.2.2; omega)]
    have hpk : (encodeRow s).packedRow = s.packedRow := by
      funext r; unfold State.packedRow State.packedAddr; rw [hpw, show (encodeRow s).pkd = s.pkd by rw [hfr]]
    by_cases h0 : fuel = 0
    · subst h0
      exact ⟨hrow, hcol, by rw [Nat.zero_add, Nat.add_sub_cancel]; exact hlast⟩
    · have := ih (s := encodeRow s) hne (by rw [hfr]; exact hd) hcol (by rw [hr1, hh]; omega) (by omega) ht
      rw [hr1, hpw, hpk, show s.r + 1 + fuel = s.r + (fuel + 1) by omega] at this
      exact this

theorem stepBytes_tokens (rest : List Byte) :
    RowTokens (stepBytes rest)
      (rest.take (runFind rest).2 ++ List.replicate (runFind rest).1 (rest.getD (runFind rest).2 0)) := by
  have hb := (runFind_bounds rest).1
  exact (litSpanBytes_tokens (by simp)).append (repSpanBytes_tokens _ (Nat.le_refl _))

/-! ### Where a stream that does not fit stops (R109) -/

/-- An iteration that faults: the whole tokens before the one that does not fit are in place, and COL is where it began. -/
theorem encodeStep_overflow {s : State} (hcap : s.caps.str < 2 ^ 33) (hf : ¬ s.faulted) (hp : s.pos ≤ s.caps.str)
    (hpw : s.pw ≤ 32768) (ht : (encodeStep s).faulted) :
    ∃ pre tok d dt, pre ++ tok <+: stepBytes (restOf s) ∧ RowTokens pre d ∧ IsToken tok dt ∧
      s.pos + pre.length ≤ s.caps.str ∧ s.caps.str < s.pos + pre.length + tok.length ∧
      encodeStep s = raise .streamOverflow 0 0x4 (cursors (BitVec.ofNat 16 (runFind (restOf s)).1)
        (BitVec.ofNat 16 (runFind (restOf s)).2) s.col s.row (appended pre s)) := by
  rcases encodeSpans_out hcap hf hp hpw with ⟨hle, h⟩ | ⟨hlt, pre, tok, d, dt, hpre, hd, htok, hple, hplt, h⟩
  · exfalso
    have hne : ¬ (encodeSpans (findRun s.c s)).faulted := by rw [h]; exact hf
    unfold encodeStep at ht
    rw [if_neg hne, h] at ht
    exact hf ht
  · refine ⟨pre, tok, d, dt, hpre, hd, htok, hple, hplt, ?_⟩
    have hfl : (encodeSpans (findRun s.c s)).faulted := by rw [h]; rfl
    unfold encodeStep
    rw [if_pos hfl, h]
    rfl

/-- EncodeRow's loop, when it faults: `head` is the tokens of the iterations that came through, `c` where the last began. -/
theorem encodeCols_overflow {fuel : Nat} {s : State} (hcap : s.caps.str < 2 ^ 33) (hf : ¬ s.faulted)
    (hp : s.pos ≤ s.caps.str) (hpw : s.pw ≤ 32768) (hc : s.c ≤ s.pw) (ht : (encodeCols fuel s).faulted) :
    ∃ head pre tok d dt c k, s.c ≤ c ∧ c < s.pw ∧
      encodeRowBytes fuel (restOf s) = head ++ encodeRowBytes k ((restOf s).drop (c - s.c)) ∧
      RowTokens head ((restOf s).take (c - s.c)) ∧
      pre ++ tok <+: stepBytes ((restOf s).drop (c - s.c)) ∧ RowTokens pre d ∧ IsToken tok dt ∧
      s.pos + (head ++ pre).length ≤ s.caps.str ∧ s.caps.str < s.pos + (head ++ pre).length + tok.length ∧
      encodeCols fuel s = raise .streamOverflow 0 0x4
        (cursors (BitVec.ofNat 16 (runFind ((restOf s).drop (c - s.c))).1)
          (BitVec.ofNat 16 (runFind ((restOf s).drop (c - s.c))).2) (BitVec.ofNat 16 c) s.row
          (appended (head ++ pre) s)) := by
  induction fuel generalizing s with
  | zero => exact absurd ht hf
  | succ fuel ih =>
    by_cases he : s.pw ≤ s.c
    · rw [encodeCols_stop (.inr he)] at ht
      exact absurd ht hf
    · rw [encodeCols_run hf (by omega)] at ht ⊢
      have hne : restOf s ≠ [] := by rw [Ne, restOf_eq_nil]; exact he
      by_cases hs : (encodeStep s).faulted
      · obtain ⟨pre, tok, d, dt, hpre, hd, htok, hple, hplt, h⟩ := encodeStep_overflow hcap hf hp hpw hs
        refine ⟨[], pre, tok, d, dt, s.c, fuel + 1, Nat.le_refl _, by omega, by simp, ?_, by simpa using hpre, hd, htok,
          by simpa using hple, by simpa using hplt, ?_⟩
        · rw [Nat.sub_self, List.take_zero]; exact .nil
        · rw [encodeCols_stop (.inl hs), h, Nat.sub_self, List.drop_zero, List.nil_append]
          have : BitVec.ofNat 16 s.c = s.col := by simp [State.c]
          rw [this]
      · obtain ⟨k1, k2, k3, k4⟩ := encodeStep_keeps s
        have hcur := (encodeStep_cursors hpw (by omega) hs).1
        have hb := runFind_bounds (restOf s)
        have hb2 := hb.2 hne
        have hb1 := hb.1
        rw [restOf_length] at hb1
        have hrest := restOf_encodeStep hpw (by omega) hs
        have h1 := encodeStep_out hcap hf hp hpw
        obtain ⟨head, pre, tok, d, dt, c, k, hc1, hc2, hbytes, hhead, hpre, hd, htok, hple, hplt, h⟩ :=
          ih (s := encodeStep s) (by rw [k4]; exact hcap) hs (h1.pos_le hcap) (by rw [k1]; exact hpw)
            (by rw [k1, hcur]; omega) ht
        rcases h1 with ⟨hle, a, b, e, f, hst⟩ | ⟨_, _, _, _, _, _, _, _, hst⟩
        · have hpos : (encodeStep s).pos = s.pos + (stepBytes (restOf s)).length := by
            rw [hst]; exact appended_pos (by omega)
          rw [k1] at hc2
          rw [hcur] at hc1
          rw [hpos, k4] at hple hplt
          rw [List.length_append] at hple hplt
          have hdrop : (restOf (encodeStep s)).drop (c - (encodeStep s).c) = (restOf s).drop (c - s.c) := by
            rw [hrest, hcur, List.drop_drop]; congr 1; omega
          rw [hdrop] at hbytes hpre h
          refine ⟨stepBytes (restOf s) ++ head, pre, tok, d, dt, c, k, by omega, hc2, ?_, ?_, hpre, hd, htok,
            by rw [List.length_append, List.length_append]; omega,
            by rw [List.length_append, List.length_append]; omega, ?_⟩
          · rw [encodeRowBytes, if_neg hne, List.append_assoc (stepBytes _), ← hbytes, hrest]
            rfl
          · have hh := (stepBytes_tokens (restOf s)).append hhead
            rw [hrest, hcur] at hh
            have hsplit := runFind_split (restOf s)
            have htk : (restOf s).take (c - s.c) = (restOf s).take (runFind (restOf s)).2 ++
                List.replicate (runFind (restOf s)).1 ((restOf s).getD (runFind (restOf s)).2 0) ++
                ((restOf s).drop ((runFind (restOf s)).2 + (runFind (restOf s)).1)).take
                  (c - (s.c + (runFind (restOf s)).2 + (runFind (restOf s)).1)) := by
              conv_lhs => rw [hsplit]
              rw [List.take_append]
              have hl : ((restOf s).take (runFind (restOf s)).2 ++
                List.replicate (runFind (restOf s)).1 ((restOf s).getD (runFind (restOf s)).2 0)).length =
                  (runFind (restOf s)).2 + (runFind (restOf s)).1 := by
                rw [List.length_append, List.length_take, List.length_replicate, restOf_length]; omega
              rw [List.take_of_length_le (by omega), hl]
              congr 2; omega
            rw [htk]; exact hh
          · rw [h]
            have hrow : (encodeStep s).row = s.row := k2
            rw [hrow, hst]
            have happ : ∀ cs, appended cs (cursors a b e f (appended (stepBytes (restOf s)) s)) =
                cursors a b e f (appended (stepBytes (restOf s) ++ cs) s) := by
              intro cs
              rw [← appended_append (by omega)]
              rfl
            rw [happ, List.append_assoc]
            rfl
        · rw [hst] at hs; exact absurd rfl hs

/-- The row loop, when it faults (R109): `r` is the row being encoded. -/
theorem encodeRows_overflow {fuel : Nat} {s : State} (hcap : s.caps.str < 2 ^ 33) (hf : ¬ s.faulted)
    (hp : s.pos ≤ s.caps.str) (hd : s.dimsLegal) (hc : s.col = 0) (hr : s.r + fuel ≤ s.h)
    (ht : (encodeRows fuel s).faulted) :
    ∃ head pre tok d dt r c k, s.r ≤ r ∧ r < s.r + fuel ∧ c < s.pw ∧
      encodeRowBytes s.pw (s.packedRow r) = head ++ encodeRowBytes k ((s.packedRow r).drop c) ∧
      RowTokens head ((s.packedRow r).take c) ∧
      pre ++ tok <+: stepBytes ((s.packedRow r).drop c) ∧ RowTokens pre d ∧ IsToken tok dt ∧
      s.pos + ((List.range' s.r (r - s.r)).flatMap (fun r => encodeRowBytes s.pw (s.packedRow r)) ++ head ++ pre).length
        ≤ s.caps.str ∧
      s.caps.str < s.pos + ((List.range' s.r (r - s.r)).flatMap (fun r => encodeRowBytes s.pw (s.packedRow r))
        ++ head ++ pre).length + tok.length ∧
      encodeRows fuel s = raise .streamOverflow 0 0x4
        (cursors (BitVec.ofNat 16 (runFind ((s.packedRow r).drop c)).1)
          (BitVec.ofNat 16 (runFind ((s.packedRow r).drop c)).2) (BitVec.ofNat 16 c) (BitVec.ofNat 17 r)
          (appended ((List.range' s.r (r - s.r)).flatMap (fun r => encodeRowBytes s.pw (s.packedRow r))
            ++ head ++ pre) s)) := by
  induction fuel generalizing s with
  | zero => exact absurd ht hf
  | succ fuel ih =>
    have hb := pw_bounds hd
    have hc0 : s.c = 0 := by unfold State.c; rw [hc]; rfl
    rw [encodeRows_run hf (by omega)] at ht ⊢
    by_cases hs : (encodeRow s).faulted
    · have hcf : (encodeCols s.pw s).faulted := by
        by_contra hn
        unfold encodeRow nextRow at hs
        rw [if_neg hn] at hs
        exact hn hs
      obtain ⟨head, pre, tok, d, dt, c, k, -, hc2, hbytes, hhead, hpre, hdd, htok, hple, hplt, h⟩ :=
        encodeCols_overflow hcap hf hp hb.2 (by omega) hcf
      rw [restOf_row hc0, hc0, Nat.sub_zero] at hbytes hhead hpre h
      refine ⟨head, pre, tok, d, dt, s.r, c, k, Nat.le_refl _, by omega, hc2, hbytes, hhead, hpre, hdd, htok,
        by simpa using hple, by simpa using hplt, ?_⟩
      rw [encodeRows_stop (.inl hs)]
      unfold encodeRow nextRow
      rw [if_pos hcf, h, Nat.sub_self]
      have : BitVec.ofNat 17 s.r = s.row := by simp [State.r]
      rw [this]
      rfl
    · obtain ⟨hrow, hcol, -⟩ := encodeRow_end hf hb.2 hb.1 hc0 hs
      have hfr := encodeRow_frame s
      have hpw : (encodeRow s).pw = s.pw := by rw [hfr]; rfl
      have hh : (encodeRow s).h = s.h := by rw [hfr]; rfl
      have hcaps : (encodeRow s).caps = s.caps := by rw [hfr]
      have hr1 : (encodeRow s).r = s.r + 1 := by
        show (encodeRow s).row.toNat = _
        rw [hrow, BitVec.toNat_ofNat, Nat.mod_eq_of_lt (by have := hd.2.2.2; omega)]
      have hpk : (encodeRow s).packedRow = s.packedRow := by
        funext r; unfold State.packedRow State.packedAddr; rw [hpw, show (encodeRow s).pkd = s.pkd by rw [hfr]]
      have h1 := encodeRow_out hcap hf hp hb.2 hc0
      obtain ⟨head, pre, tok, d, dt, r, c, k, hrr, hrr2, hc2, hbytes, hhead, hpre, hdd, htok, hple, hplt, h⟩ :=
        ih (s := encodeRow s) (by rw [hcaps]; exact hcap) hs (h1.pos_le hcap) (by rw [hfr]; exact hd) hcol
          (by rw [hr1, hh]; omega) ht
      rcases h1 with ⟨hle, a, b, e, f, hst⟩ | ⟨_, _, _, _, _, _, _, _, hst⟩
      · have hpos : (encodeRow s).pos = s.pos + (encodeRowBytes s.pw (s.packedRow s.r)).length := by
          rw [hst]; exact appended_pos (by omega)
        rw [hr1, hpw, hpk] at hple hplt h
        rw [hpw, hpk] at hbytes
        rw [hpk] at hhead hpre
        rw [hpw] at hc2
        rw [hr1] at hrr hrr2
        rw [hpos, hcaps] at hple hplt
        have hsplit : (List.range' s.r (r - s.r)).flatMap (fun r => encodeRowBytes s.pw (s.packedRow r)) =
            encodeRowBytes s.pw (s.packedRow s.r) ++
              (List.range' (s.r + 1) (r - (s.r + 1))).flatMap (fun r => encodeRowBytes s.pw (s.packedRow r)) := by
          rw [show r - s.r = (r - (s.r + 1)) + 1 by omega, List.range'_succ, List.flatMap_cons]
        rw [List.length_append, List.length_append] at hple hplt
        refine ⟨head, pre, tok, d, dt, r, c, k, by omega, by omega, hc2, hbytes, hhead, hpre, hdd, htok, ?_, ?_, ?_⟩
        · rw [hsplit]; simp only [List.length_append]; omega
        · rw [hsplit]; simp only [List.length_append]; omega
        · rw [h, hst, hsplit]
          have happ : ∀ cs, appended cs (cursors a b e f (appended (encodeRowBytes s.pw (s.packedRow s.r)) s)) =
              cursors a b e f (appended (encodeRowBytes s.pw (s.packedRow s.r) ++ cs) s) := by
            intro cs
            rw [← appended_append (by omega)]
            rfl
          rw [happ]
          simp only [List.append_assoc]
          rfl
      · rw [hst] at hs; exact absurd rfl hs

/-! ### The emitted bytes are tokens of the grammar (R63), and how many they are (R110, R111) -/

/-- The tokens of a row stand for the row: what makes the round trip (R90). -/
theorem encodeRowBytes_tokens {fuel : Nat} {row : List Byte} (h : row.length ≤ fuel) :
    RowTokens (encodeRowBytes fuel row) row := by
  induction fuel generalizing row with
  | zero =>
    obtain rfl := List.length_eq_zero_iff.mp (Nat.le_zero.mp h)
    exact .nil
  | succ fuel ih =>
    unfold encodeRowBytes
    split
    next h0 => subst h0; exact .nil
    next h0 =>
      have hb := (runFind_bounds row).2 h0
      have h2 := (stepBytes_tokens row).append
        (ih (row := row.drop ((runFind row).2 + (runFind row).1)) (by rw [List.length_drop]; omega))
      rw [← runFind_split row] at h2
      exact h2

theorem rows_tokens {pw : Nat} (row : Nat → List Byte) (hrow : ∀ r, (row r).length = pw) (a n : Nat) :
    ImageTokens pw n ((List.range' a n).flatMap (fun r => encodeRowBytes pw (row r)))
      ((List.range' a n).flatMap row) := by
  induction n generalizing a with
  | zero => exact .nil
  | succ n ih =>
    rw [List.range'_succ, List.flatMap_cons, List.flatMap_cons]
    exact .row (encodeRowBytes_tokens (by rw [hrow])) (hrow a) (ih (a + 1))

/-- Tokens cost at most twice the bytes they stand for (R110). -/
theorem RowTokens.size_le {e d : List Byte} (h : RowTokens e d) : e.length ≤ 2 * d.length := by
  induction h with
  | nil => simp
  | lit raw h1 _ _ ih => simp [litBytes]; omega
  | rep n v h1 _ _ ih => simp [repBytes]; omega

theorem ImageTokens.size_le {pw n : Nat} {e d : List Byte} (h : ImageTokens pw n e d) : e.length ≤ 2 * d.length := by
  induction h with
  | nil => simp
  | row hr _ _ ih => have := hr.size_le; rw [List.length_append, List.length_append]; omega

end Sys2Proof.Machine
end

