-- ==== Sys2Proof/Laws/Packer.lean ====
section
/-! SUPPORT. The nibble packer: the two nibble functions, and the contents of memory after the rows of PACK and UNPACK. -/

namespace Sys2Proof.Machine

/-! ### Nibbles (43_nibble_packer.md R125, R129, R132) -/

theorem unpackLeft_pack2 (l r : Byte) : unpackLeft (pack2 l r) = l &&& 0x0F#8 := by
  unfold unpackLeft pack2
  ext i hi
  have : i = 0 ∨ i = 1 ∨ i = 2 ∨ i = 3 ∨ i = 4 ∨ i = 5 ∨ i = 6 ∨ i = 7 := by omega
  rcases this with rfl | rfl | rfl | rfl | rfl | rfl | rfl | rfl <;> simp

theorem unpackRight_pack2 (l r : Byte) : unpackRight (pack2 l r) = r &&& 0x0F#8 := by
  unfold unpackRight pack2
  ext i hi
  have : i = 0 ∨ i = 1 ∨ i = 2 ∨ i = 3 ∨ i = 4 ∨ i = 5 ∨ i = 6 ∨ i = 7 := by omega
  rcases this with rfl | rfl | rfl | rfl | rfl | rfl | rfl | rfl <;> simp

theorem pack2_unpack (b : Byte) : pack2 (unpackLeft b) (unpackRight b) = b := by
  revert b; decide +kernel

theorem and_0F_of_lt {b : Byte} (h : b.toNat < 16) : b &&& 0x0F#8 = b := by
  revert b; decide +kernel

theorem unpack_lt (b : Byte) : (unpackLeft b).toNat < 16 ∧ (unpackRight b).toNat < 16 := by
  revert b; decide +kernel

/-! ### Rows of PACK -/

theorem packRows_frame (n first : Nat) (s : State) :
    overRows packRow n first s =
      { s with row := (overRows packRow n first s).row, pkd := (overRows packRow n first s).pkd } := by
  induction n generalizing first s with
  | zero => rfl
  | succ n ih =>
    unfold overRows
    have h := ih (first + 1) (packRow first s)
    conv_lhs => rw [h]
    rfl

theorem unpackRows_frame (n first : Nat) (s : State) :
    overRows unpackRow n first s =
      { s with row := (overRows unpackRow n first s).row, pix := (overRows unpackRow n first s).pix } := by
  induction n generalizing first s with
  | zero => rfl
  | succ n ih =>
    unfold overRows
    have h := ih (first + 1) (unpackRow first s)
    conv_lhs => rw [h]
    rfl

theorem packRow_read (r a : Nat) (s : State) :
    Memory.read (packRow r s).pkd a =
      if r * s.pw ≤ a ∧ a < r * s.pw + s.pw then s.packedOf r (a - r * s.pw) else Memory.read s.pkd a := by
  show Memory.read (Memory.fill s.pkd (r * s.pw + 0) s.pw _) a = _
  rw [Memory.read_fill, Nat.add_zero]

theorem mul_add_lt {r r' c w : Nat} (h : r < r') (hc : c < w) : r * w + c < r' * w :=
  calc r * w + c < r * w + w := by omega
    _ = (r + 1) * w := by ring
    _ ≤ r' * w := Nat.mul_le_mul_right _ h

/-- After the rows `first .. first + n - 1` of PACK, each of their packed bytes holds its two pixels. -/
theorem packRows_read {n first r c : Nat} {s : State} (hr : first ≤ r) (hr' : r < first + n) (hc : c < s.pw) :
    Memory.read (overRows packRow n first s).pkd (r * s.pw + c) = s.packedOf r c := by
  induction n generalizing first s with
  | zero => omega
  | succ n ih =>
    unfold overRows
    by_cases h : r = first
    · subst h
      have key : ∀ (k f : Nat) (t : State), t.pw = s.pw → r < f →
          Memory.read (overRows packRow k f t).pkd (r * s.pw + c) = Memory.read t.pkd (r * s.pw + c) := by
        intro k
        induction k with
        | zero => intro f t _ _; rfl
        | succ k ihk =>
          intro f t ht hf
          unfold overRows
          rw [ihk (f + 1) (packRow f t) ht (by omega), packRow_read, ht, if_neg]
          have := mul_add_lt hf hc
          omega
      rw [key n (r + 1) (packRow r s) rfl (by omega), packRow_read, if_pos (by omega), Nat.add_sub_cancel_left]
    · exact ih (s := packRow first s) (by omega) (by omega) hc

/-- PACK's rows touch no byte at or above their end. -/
theorem packRows_read_above {n first a : Nat} {s : State} (ha : (first + n) * s.pw ≤ a) :
    Memory.read (overRows packRow n first s).pkd a = Memory.read s.pkd a := by
  induction n generalizing first s with
  | zero => rfl
  | succ n ih =>
    unfold overRows
    rw [ih (s := packRow first s) (by show (first + 1 + n) * s.pw ≤ a; rw [show first + 1 + n = first + (n + 1) by omega]; exact ha),
      packRow_read, if_neg]
    have : (first + 1) * s.pw ≤ (first + (n + 1)) * s.pw := Nat.mul_le_mul_right _ (by omega)
    have h2 : (first + 1) * s.pw = first * s.pw + s.pw := by ring
    omega

theorem packRows_ok {n first cap : Nat} {s : State} (h : Memory.ok s.pkd cap) (hcap : (first + n) * s.pw ≤ cap) :
    Memory.ok (overRows packRow n first s).pkd cap := by
  induction n generalizing first s with
  | zero => exact h
  | succ n ih =>
    unfold overRows
    have h1 : (first + 1) * s.pw ≤ (first + (n + 1)) * s.pw := Nat.mul_le_mul_right _ (by omega)
    have h2 : (first + 1) * s.pw = first * s.pw + s.pw := by ring
    refine ih (s := packRow first s) ?_ (by show (first + 1 + n) * s.pw ≤ cap; rw [show first + 1 + n = first + (n + 1) by omega]; exact hcap)
    exact ⟨Memory.wf_fill _ _ _ h.1, Memory.below_fill _ h.2 (by show first * s.pw + 0 + s.pw ≤ cap; omega)⟩

/-! ### Rows of UNPACK -/

theorem extRow_lt {s : State} {r : Nat} (h : r < s.h) : s.extRow r < s.h := by
  unfold State.extRow; split <;> omega

theorem extRow_inj {s : State} {r r' : Nat} (h : r < s.h) (h' : r' < s.h) (he : s.extRow r = s.extRow r') : r = r' := by
  unfold State.extRow at he; split at he <;> omega

theorem extRow_extRow {s : State} {r : Nat} (h : r < s.h) : s.extRow (s.extRow r) = r := by
  unfold State.extRow; split <;> omega

theorem unpackRow_read (r a : Nat) (s : State) :
    Memory.read (unpackRow r s).pix a =
      if s.extRow r * s.w ≤ a ∧ a < s.extRow r * s.w + 2 * s.pw then s.pixelOf r (a - s.extRow r * s.w)
      else Memory.read s.pix a := by
  show Memory.read (Memory.fill s.pix (s.extRow r * s.w + 0) (2 * s.pw) _) a = _
  rw [Memory.read_fill, Nat.add_zero]

theorem two_pw {s : State} (h : s.w % 2 = 0) : 2 * s.pw = s.w := by
  rw [pw_eq]; omega

/-- After the rows `first .. first + n - 1` of UNPACK, each of their pixels is in PIX. -/
theorem unpackRows_read {n first r x : Nat} {s : State} (hev : s.w % 2 = 0) (hh : first + n ≤ s.h) (hr : first ≤ r)
    (hr' : r < first + n) (hx : x < s.w) :
    Memory.read (overRows unpackRow n first s).pix (s.pixAddr r x) = s.pixelOf r x := by
  induction n generalizing first s with
  | zero => omega
  | succ n ih =>
    unfold overRows
    by_cases h : r = first
    · subst h
      have key : ∀ (k f : Nat) (t : State), t.w = s.w → t.h = s.h → t.topDown = s.topDown → r < f → f + k ≤ s.h →
          Memory.read (overRows unpackRow k f t).pix (s.pixAddr r x) = Memory.read t.pix (s.pixAddr r x) := by
        intro k
        induction k with
        | zero => intro f t _ _ _ _ _; rfl
        | succ k ihk =>
          intro f t hw ht hc hf hfk
          have hx' : t.extRow = s.extRow := by funext q; unfold State.extRow; rw [ht, hc]
          unfold overRows
          rw [ihk (f + 1) (unpackRow f t) hw ht hc (by omega) (by omega), unpackRow_read, if_neg]
          rw [two_pw (by rw [hw]; exact hev), hx', hw]
          have hne : s.extRow r ≠ s.extRow f := fun he => by have := extRow_inj (by omega) (by omega) he; omega
          rintro ⟨h1, h2⟩
          unfold State.pixAddr at h1 h2
          rcases Nat.lt_or_gt_of_ne hne with hlt | hlt
          · have := mul_add_lt hlt hx; omega
          · have : s.extRow f * s.w + s.w ≤ s.extRow r * s.w := by
              calc s.extRow f * s.w + s.w = (s.extRow f + 1) * s.w := by ring
                _ ≤ s.extRow r * s.w := Nat.mul_le_mul_right _ hlt
            omega
      rw [key n (r + 1) (unpackRow r s) rfl rfl rfl (by omega) (by omega), unpackRow_read, if_pos]
      · unfold State.pixAddr; rw [Nat.add_sub_cancel_left]
      · rw [two_pw hev]; unfold State.pixAddr; omega
    · exact ih (s := unpackRow first s) hev (by show first + 1 + n ≤ s.h; omega) (by omega) (by omega) hx

/-- UNPACK's rows touch no byte at or above the end of the image. -/
theorem unpackRows_read_above {n first a : Nat} {s : State} (hev : s.w % 2 = 0) (hh : first + n ≤ s.h)
    (ha : s.w * s.h ≤ a) :
    Memory.read (overRows unpackRow n first s).pix a = Memory.read s.pix a := by
  induction n generalizing first s with
  | zero => rfl
  | succ n ih =>
    unfold overRows
    rw [ih (s := unpackRow first s) hev (by show first + 1 + n ≤ s.h; omega) ha, unpackRow_read, if_neg]
    rw [two_pw hev]
    have h1 : (s.extRow first + 1) * s.w ≤ s.h * s.w := Nat.mul_le_mul_right _ (extRow_lt (by omega))
    have h2 : (s.extRow first + 1) * s.w = s.extRow first * s.w + s.w := by ring
    rw [Nat.mul_comm] at ha
    omega

theorem unpackRows_ok {n first cap : Nat} {s : State} (hev : s.w % 2 = 0) (hh : first + n ≤ s.h)
    (h : Memory.ok s.pix cap) (hcap : s.w * s.h ≤ cap) : Memory.ok (overRows unpackRow n first s).pix cap := by
  induction n generalizing first s with
  | zero => exact h
  | succ n ih =>
    unfold overRows
    refine ih (s := unpackRow first s) hev (by show first + 1 + n ≤ s.h; omega) ?_ hcap
    have h1 : (s.extRow first + 1) * s.w ≤ s.h * s.w := Nat.mul_le_mul_right _ (extRow_lt (by omega))
    have h2 : (s.extRow first + 1) * s.w = s.extRow first * s.w + s.w := by ring
    have h3 := two_pw hev
    rw [Nat.mul_comm] at hcap
    exact ⟨Memory.wf_fill _ _ _ h.1, Memory.below_fill _ h.2 (by show s.extRow first * s.w + 0 + 2 * s.pw ≤ cap; omega)⟩

end Sys2Proof.Machine
end

