-- ==== Sys2Proof/Laws/Fault.lean ====
section
/-! SUPPORT. Faults: the fields of the FAULT register, which start check fails first, and how each command can end
(`DoneOrRaised`) or a micro-step go on (`KeptOrRaised`) as STATUS and FAULT tell. -/

namespace Sys2Proof.Machine

theorem nibbles (x y z : BitVec 4) : ((x ++ y ++ z : BitVec 12).extractLsb' 0 4) = z ∧
    ((x ++ y ++ z : BitVec 12).extractLsb' 4 4) = y ∧ ((x ++ y ++ z : BitVec 12).extractLsb' 8 4) = x := by
  revert x y z; decide +kernel

theorem faultWord_code (f : FaultCode) (sub op : Nat) : ((faultWord f sub op).extractLsb' 0 4).toNat = faultNumber f := by
  unfold faultWord
  rw [(nibbles _ _ _).1]; cases f <;> rfl

theorem faultWord_sub (f : FaultCode) {sub : Nat} (op : Nat) (h : sub < 16) :
    ((faultWord f sub op).extractLsb' 4 4).toNat = sub := by
  unfold faultWord
  rw [(nibbles _ _ _).2.1]; simp; omega

theorem faultWord_stage (f : FaultCode) (sub : Nat) {op : Nat} (h : op < 16) :
    ((faultWord f sub op).extractLsb' 8 4).toNat = op := by
  unfold faultWord
  rw [(nibbles _ _ _).2.2]; simp; omega

theorem fail_with {op : Nat} {ks : State → List Check} {body : State → State} {s : State} (k : Check) (c : FaultCode) (sub : Nat)
    (hs : ¬ s.faulted) (hk : firstFailure (ks s) = some k) (hc : k.code = c) (hsub : k.sub = sub) :
    command op ks body s = raise c sub op s := by
  subst hc hsub; exact command_of_fail hs hk

/-- A failing dimension check of a command that makes it first. -/
theorem fail_dims {op : Nat} {ks : State → List Check} {body : State → State} {s : State} (hs : ¬ s.faulted)
    (hd : ¬ s.dimsLegal) : command op (fun s => dimsCheck s :: ks s) body s = raise .dimensionOverflow 0 op s := by
  refine command_of_fail (k := dimsCheck s) hs ?_
  show (if (dimsCheck s).fails = true then _ else _) = _
  have : (dimsCheck s).fails = true := by
    cases h : (dimsCheck s).fails
    · exact absurd ((dimsCheck_passes s).1 h) hd
    · rfl
  rw [if_pos this]

theorem ff_pass {k : Check} {ks : List Check} (h : k.fails = false) : firstFailure (k :: ks) = firstFailure ks := by
  simp [firstFailure, h]

theorem ff_fail {k : Check} {ks : List Check} (h : k.fails = true) : firstFailure (k :: ks) = some k := by
  simp [firstFailure, h]

theorem pkd_fails {s : State} (h : s.caps.pkd < s.pw * s.h) : (pkdCheck s).fails = true := by simp [pkdCheck, h]

theorem pix_fails {s : State} (h : s.caps.pix < s.w * s.h) : (pixCheck s).fails = true := by simp [pixCheck, h]

theorem even_fails {s : State} (h : s.w % 2 = 1) : (evenCheck s).fails = true := by simp [evenCheck, h]

theorem arg_fails {b : Bool} (h : b = true) : (argCheck b).fails = true := h

theorem arg_passes {b : Bool} (h : b = false) : (argCheck b).fails = false := h

theorem reserved_step {op : Nat} {s : State} (hs : ¬ s.faulted) : reservedCmd op s = raise .illegalCommand 0 op s :=
  command_of_pass hs rfl

/-- The state in which RLE_DEC and RLE_ENC enter their loops: ROW and COL set to 0. -/
abbrev homed (s : State) : State := { s with row := 0, col := 0 }

/-- `t` agrees with `s` in STATUS and FAULT, or has a fault of command `op` recorded, one of those a micro-step raises (never
`DimensionOverflow`, which only a start check raises: R164). -/
def KeptOrRaised (op : Nat) (s t : State) : Prop :=
  (t.status = s.status ∧ t.fault = s.fault) ∨
  (∃ f sub, sub < 16 ∧ t.status = stFaulted ∧ t.fault = faultWord f sub op ∧ f ≠ .dimensionOverflow)

theorem KeptOrRaised.rfl' {op} (s : State) : KeptOrRaised op s s := .inl ⟨rfl, rfl⟩

theorem KeptOrRaised.of_eq {op} {s t : State} (h1 : t.status = s.status) (h2 : t.fault = s.fault) : KeptOrRaised op s t := .inl ⟨h1, h2⟩

theorem KeptOrRaised.of_raise {op} {s t u : State} {f : FaultCode} {sub : Nat} (hs : sub < 16)
    (hf : f ≠ .dimensionOverflow) (h : t = raise f sub op u) : KeptOrRaised op s t := by
  subst h; exact .inr ⟨f, sub, hs, rfl, rfl, hf⟩

theorem KeptOrRaised.trans {op} {s t u : State} (h1 : KeptOrRaised op s t) (h2 : KeptOrRaised op t u) : KeptOrRaised op s u := by
  rcases h2 with ⟨a, b⟩ | h2
  · rcases h1 with ⟨c, d⟩ | ⟨f, sub, hs, c, d, hf⟩
    · exact .inl ⟨a.trans c, b.trans d⟩
    · exact .inr ⟨f, sub, hs, a.trans c, b.trans d, hf⟩
  · exact .inr h2

theorem rowAdvance_status (s : State) : (rowAdvance s).status = s.status ∧ (rowAdvance s).fault = s.fault := by
  unfold rowAdvance; split <;> exact ⟨rfl, rfl⟩

theorem litToken_rec (n : Nat) (s : State) : KeptOrRaised 3 s (litToken n s) := by
  unfold litToken
  dsimp only
  split
  · exact .of_raise (by decide) (by decide) rfl
  · split
    · exact .of_raise (by decide) (by decide) rfl
    · unfold litEmit
      exact .of_eq (rowAdvance_status _).1 (rowAdvance_status _).2

theorem repToken_rec (n : Nat) (s : State) : KeptOrRaised 3 s (repToken n s) := by
  unfold repToken
  dsimp only
  split
  · exact .of_raise (by decide) (by decide) rfl
  · split
    · exact .of_raise (by decide) (by decide) rfl
    · unfold repEmit
      exact .of_eq (rowAdvance_status _).1 (rowAdvance_status _).2

theorem runToken_rec (s : State) : KeptOrRaised 3 s (runToken s) := by
  unfold runToken; split
  · exact repToken_rec _ _
  · exact litToken_rec _ _

theorem decodeLoop_rec (fuel : Nat) (s : State) : KeptOrRaised 3 s (decodeLoop fuel s) := by
  induction fuel generalizing s with
  | zero => exact .rfl' _
  | succ fuel ih =>
    unfold decodeLoop
    split
    · exact .rfl' _
    · split
      · exact .of_raise (by decide) (by decide) rfl
      · exact KeptOrRaised.trans (t := fetchControl s) (.of_eq rfl rfl) ((runToken_rec _).trans (ih _))

theorem emitLit_rec (p k : Nat) (s : State) : KeptOrRaised 4 s (emitLit p k s) := by
  unfold emitLit; split
  · exact .of_raise (by decide) (by decide) rfl
  · exact .of_eq rfl rfl

theorem emitRep_rec (k : Nat) (v : Byte) (s : State) : KeptOrRaised 4 s (emitRep k v s) := by
  unfold emitRep; split
  · exact .of_raise (by decide) (by decide) rfl
  · exact .of_eq rfl rfl

theorem litSpan_rec (fuel p rem : Nat) (s : State) : KeptOrRaised 4 s (litSpan fuel p rem s) := by
  induction fuel generalizing p rem s with
  | zero => exact .rfl' _
  | succ fuel ih =>
    unfold litSpan; split
    · exact .rfl' _
    · exact (emitLit_rec _ _ _).trans (ih _ _ _)

theorem repSpan_rec (fuel p rem : Nat) (v : Byte) (s : State) : KeptOrRaised 4 s (repSpan fuel p rem v s) := by
  induction fuel generalizing p rem s with
  | zero => exact .rfl' _
  | succ fuel ih =>
    unfold repSpan; split
    · exact .rfl' _
    · refine KeptOrRaised.trans ?_ (ih _ _ _)
      split
      · exact emitRep_rec _ _ _
      · exact emitLit_rec _ _ _

theorem encodeStep_rec (s : State) : KeptOrRaised 4 s (encodeStep s) := by
  have h : KeptOrRaised 4 s (encodeSpans (findRun s.c s)) :=
    KeptOrRaised.trans (t := findRun s.c s) (.of_eq rfl rfl) ((litSpan_rec _ _ _ _).trans (repSpan_rec _ _ _ _ _))
  unfold encodeStep
  dsimp only
  split
  · exact h
  · exact h.trans (.of_eq rfl rfl)

theorem encodeCols_rec (fuel : Nat) (s : State) : KeptOrRaised 4 s (encodeCols fuel s) := by
  induction fuel generalizing s with
  | zero => exact .rfl' _
  | succ fuel ih =>
    unfold encodeCols; split
    · exact .rfl' _
    · exact (encodeStep_rec _).trans (ih _)

theorem encodeRow_rec (s : State) : KeptOrRaised 4 s (encodeRow s) := by
  unfold encodeRow nextRow
  split
  · exact encodeCols_rec _ _
  · exact (encodeCols_rec _ _).trans (.of_eq rfl rfl)

theorem encodeRows_rec (fuel : Nat) (s : State) : KeptOrRaised 4 s (encodeRows fuel s) := by
  induction fuel generalizing s with
  | zero => exact .rfl' _
  | succ fuel ih =>
    unfold encodeRows; split
    · exact .rfl' _
    · exact (encodeRow_rec _).trans (ih _)

/-- A primitive command that executes ends DONE, FAULT as it was, or FAULTED with its own stage. -/
def DoneOrRaised (op : Nat) (s t : State) : Prop :=
  (t.status = stDone ∧ t.fault = s.fault) ∨ (∃ f sub, sub < 16 ∧ t.status = stFaulted ∧ t.fault = faultWord f sub op)

theorem command_ends {op : Nat} {ks : State → List Check} {body : State → State} {s : State} (hs : ¬ s.faulted)
    (hk : ∀ k ∈ ks s, k.sub < 16) (hb : DoneOrRaised op s (body s)) : DoneOrRaised op s (command op ks body s) := by
  rcases command_cases op ks body s with ⟨h, -⟩ | ⟨-, k, hm, -, h⟩ | ⟨-, -, h⟩
  · exact absurd h hs
  · rw [h]; exact .inr ⟨k.code, k.sub, hk k hm, rfl, rfl⟩
  · rw [h]; exact hb

theorem hdrRd_ends {s : State} (hs : ¬ s.faulted) : DoneOrRaised 1 s (hdrRdCmd s) :=
  command_ends hs (by intro k hk; simp at hk; rcases hk with rfl | rfl <;> exact (by decide : (1 : Nat) < 16)) (.inl ⟨rfl, rfl⟩)

theorem hdrWr_ends {s : State} (hs : ¬ s.faulted) : DoneOrRaised 2 s (hdrWrCmd s) :=
  command_ends hs (by intro k hk; simp at hk; rcases hk with rfl | rfl <;> exact (by decide : (0 : Nat) < 16)) (.inl ⟨rfl, rfl⟩)

theorem rleDec_ends {s : State} (hs : ¬ s.faulted) : DoneOrRaised 3 s (rleDecCmd s) := by
  refine command_ends hs (by
    intro k hk; simp at hk
    rcases hk with rfl | rfl | rfl
    · exact (by decide : (0 : Nat) < 16)
    · exact (by decide : (1 : Nat) < 16)
    · exact (by decide : (1 : Nat) < 16)) ?_
  have h := decodeLoop_rec (s.slen - s.pos + 1) (homed s)
  unfold rleDecBody decodeEnd
  rcases h with ⟨a, b⟩ | ⟨f, sub, h1, a, b, -⟩
  · have : ¬ (decodeLoop (s.slen - s.pos + 1) (homed s)).faulted := by unfold State.faulted; rw [a]; exact hs
    rw [if_neg this]
    split
    · exact .inr ⟨_, _, by decide, rfl, rfl⟩
    · exact .inl ⟨rfl, b⟩
  · rw [if_pos a]; exact .inr ⟨f, sub, h1, a, b⟩

theorem rleEnc_ends {s : State} (hs : ¬ s.faulted) : DoneOrRaised 4 s (rleEncCmd s) := by
  refine command_ends hs (by
    intro k hk; simp at hk
    rcases hk with rfl | rfl | rfl
    · exact (by decide : (0 : Nat) < 16)
    · exact (by decide : (1 : Nat) < 16)
    · exact (by decide : (1 : Nat) < 16)) ?_
  have h := encodeRows_rec s.h (homed s)
  unfold rleEncBody encodeEnd
  rcases h with ⟨a, b⟩ | ⟨f, sub, h1, a, b, -⟩
  · have : ¬ (encodeRows s.h (homed s)).faulted := by unfold State.faulted; rw [a]; exact hs
    rw [if_neg this]
    exact .inl ⟨rfl, b⟩
  · rw [if_pos a]; exact .inr ⟨f, sub, h1, a, b⟩

theorem packChecks_sub {s : State} : ∀ k ∈ packChecks s, k.sub < 16 := by
  intro k hk; simp [packChecks] at hk
  rcases hk with rfl | rfl | rfl | rfl
  · exact (by decide : (0 : Nat) < 16)
  · exact (by decide : (1 : Nat) < 16)
  · exact (by decide : (2 : Nat) < 16)
  · exact (by decide : (0 : Nat) < 16)

theorem pack_ends {s : State} (hs : ¬ s.faulted) : DoneOrRaised 5 s (packCmd s) :=
  command_ends hs packChecks_sub (.inl ⟨rfl, by show (overRows packRow s.h 0 s).fault = _; rw [packRows_frame]⟩)

theorem unpack_ends {s : State} (hs : ¬ s.faulted) : DoneOrRaised 6 s (unpackCmd s) :=
  command_ends hs packChecks_sub (.inl ⟨rfl, by show (overRows unpackRow s.h 0 s).fault = _; rw [unpackRows_frame]⟩)

theorem runFind_ends {s : State} (hs : ¬ s.faulted) : DoneOrRaised 7 s (runFindCmd s) :=
  command_ends hs (by
    intro k hk; simp at hk
    rcases hk with rfl | rfl | rfl
    · exact (by decide : (0 : Nat) < 16)
    · exact (by decide : (1 : Nat) < 16)
    · exact (by decide : (1 : Nat) < 16)) (.inl ⟨rfl, rfl⟩)

theorem DoneOrRaised.done_or {op : Nat} {s t : State} (h : DoneOrRaised op s t) : (¬ t.faulted ∧ t.status = stDone ∧ t.fault = s.fault) ∨
    (t.faulted ∧ ∃ f sub, sub < 16 ∧ t.fault = faultWord f sub op) := by
  rcases h with ⟨a, b⟩ | ⟨f, sub, h1, a, b⟩
  · exact .inl ⟨by unfold State.faulted; rw [a]; exact stDone_ne_stFaulted, a, b⟩
  · exact .inr ⟨a, f, sub, h1, b⟩

theorem unpack_of_faulted {s : State} (h : s.faulted) : unpackCmd s = s := command_of_faulted h

theorem rleDec_of_faulted {s : State} (h : s.faulted) : rleDecCmd s = s := command_of_faulted h

theorem rleEnc_of_faulted {s : State} (h : s.faulted) : rleEncCmd s = s := command_of_faulted h

theorem hdrWr_of_faulted {s : State} (h : s.faulted) : hdrWrCmd s = s := command_of_faulted h

theorem stage_of {t : State} {op : Nat} (hop : op < 16) (h : ∃ f sub, sub < 16 ∧ t.fault = faultWord f sub op) : t.faultStage = op := by
  obtain ⟨f, sub, -, e⟩ := h
  unfold State.faultStage; rw [e]; exact faultWord_stage f sub hop

theorem code_of {t : State} {op : Nat} (h : ∃ f sub, sub < 16 ∧ t.fault = faultWord f sub op) : 1 ≤ t.faultCode ∧ t.faultCode ≤ 6 := by
  obtain ⟨f, sub, -, e⟩ := h
  unfold State.faultCode; rw [e, faultWord_code]; cases f <;> decide

theorem reserved_ends {op : Nat} {s : State} (hs : ¬ s.faulted) : DoneOrRaised op s (reservedCmd op s) := by
  rw [reserved_step hs]; exact .inr ⟨_, _, by decide, rfl, rfl⟩

end Sys2Proof.Machine
end

