-- ==== Sys2Proof/Laws/Exec.lean ====
section
/-! SUPPORT. The commands one by one: the body each runs when its start checks pass, what each can write (its frame), and the
facts about header, stream, line and image that the statements share. -/

namespace Sys2Proof.Machine

theorem isRepeat_iff (code : Byte) : isRepeat code = true ↔ code &&& 0x80#8 ≠ 0#8 := by
  simp [isRepeat]

theorem decodeCommand_mod (v : Nat) : decodeCommand (v % 16) = decodeCommand v := by
  unfold decodeCommand; rw [Nat.mod_mod]

theorem decodeCommand_encode {i : Instr} {v : Nat} (h : encSpace i = .command) (hv : v % 16 = (encodeByte i).toNat) :
    decodeCommand v = i := by
  unfold decodeCommand
  cases i <;> first | (rw [hv]; rfl) | cases h

theorem execLit_next {n : Nat} {s : State} (hf : ¬ s.faulted) (h : n > s.pw - s.c ∨ s.pos + 1 + n > s.slen ∨
    (s.pos + 1 + n ≤ s.caps.str ∧ s.lineAddr s.c + n ≤ s.caps.pkd)) : execLit n s = .next (litToken n s) := by
  unfold execLit checked
  rw [if_neg hf]
  by_cases h1 : n > s.pw - s.c ∨ s.pos + 1 + n > s.slen
  · rw [if_pos h1]
  · rw [if_neg h1, if_pos (show s.pos + 1 + n ≤ s.caps.of .str by show _ ≤ s.caps.str; omega),
      if_pos (show s.lineAddr s.c + n ≤ s.caps.of .pkd by show _ ≤ s.caps.pkd; omega)]

theorem execRep_next {n : Nat} {s : State} (hf : ¬ s.faulted) (h : s.pos + 2 > s.slen ∨
    (s.pos + 2 ≤ s.caps.str ∧ (n > s.pw - s.c ∨ s.lineAddr s.c + n ≤ s.caps.pkd))) :
    execRep n s = .next (repToken n s) := by
  unfold execRep checked
  rw [if_neg hf]
  by_cases h1 : s.pos + 2 > s.slen
  · rw [if_pos h1]
  · rw [if_neg h1, if_pos (show s.pos + 2 ≤ s.caps.of .str by show _ ≤ s.caps.str; omega)]
    by_cases h2 : n > s.pw - s.c
    · rw [if_pos h2]
    · rw [if_neg h2, if_pos (show s.lineAddr s.c + n ≤ s.caps.of .pkd by show _ ≤ s.caps.pkd; omega)]

theorem line_fits {s : State} {n : Nat} (hr : s.r < s.h) (hn : 0 < n) (h : n ≤ s.pw - s.c)
    (hp : s.pw * s.h ≤ s.caps.pkd) : s.lineAddr s.c + n ≤ s.caps.pkd := by
  have : s.r * s.pw + s.pw ≤ s.h * s.pw := by
    have := Nat.mul_le_mul_right s.pw (show s.r + 1 ≤ s.h by omega)
    rwa [Nat.add_mul, Nat.one_mul] at this
  unfold State.lineAddr State.packedAddr
  rw [Nat.mul_comm s.pw] at hp
  omega

theorem hostRegRead_unmapped {i : Nat} (h : 0xC ≤ i) (s : State) : hostRegRead i s = 0 := by
  unfold hostRegRead; split <;> first | rfl | omega

theorem hostRegWrite_unmapped {i : Nat} (h : 0xC ≤ i) (v : Nat) (s : State) : hostRegWrite i v s = s := by
  unfold hostRegWrite; split <;> first | rfl | omega

theorem hostRegWrite_keeps (i v : Nat) (s : State) :
    (hostRegWrite i v s).status = s.status ∧ (hostRegWrite i v s).fault = s.fault := by
  unfold hostRegWrite; split <;> exact ⟨rfl, rfl⟩

theorem setMem_keeps (sp : Space) (m : Memory) (s : State) :
    (s.setMem sp m).status = s.status ∧ (s.setMem sp m).fault = s.fault := by
  cases sp <;> exact ⟨rfl, rfl⟩

theorem decodeCommand_reset {v : Nat} (h : v % 16 ≠ 0xF) : decodeCommand v ≠ .reset := by
  have h16 := Nat.mod_lt v (show 0 < 16 by decide)
  unfold decodeCommand
  split <;> first | (intro h; cases h; done) | skip
  exfalso; simp_all; omega

theorem read16_toNat (m : Memory) (a : Nat) :
    (Memory.read16 m a).toNat = (Memory.read m a).toNat + 256 * (Memory.read m (a + 1)).toNat := by
  have h1 := (Memory.read m a).isLt
  rw [Memory.read16, BitVec.toNat_append, Nat.shiftLeft_eq]
  rw [Nat.mul_comm _ (2 ^ 8), ← Nat.two_pow_add_eq_or_of_lt (by omega)]
  omega

theorem hdrRd_body {s : State} (hs : ¬ s.faulted) (h : s.slen ≤ s.caps.str) (h4 : 4 ≤ s.slen) :
    hdrRdCmd s = { s with
        width := BitVec.ofNat 17 s.headerWidth, height := BitVec.ofNat 17 s.headerHeight, strPos := 4, status := stDone } := by
  rw [hdrRdCmd, command_of_pass hs]
  · rw [read16_toNat, read16_toNat]; rfl
  · refine (ff_pass (arg_passes ?_)).trans ((ff_pass ?_).trans rfl)
    · simpa using h
    · simpa [headerCheck] using h4

theorem header_bounds (s : State) : 1 ≤ s.headerWidth ∧ s.headerWidth ≤ 65536 ∧ 1 ≤ s.headerHeight ∧ s.headerHeight ≤ 65536 := by
  have h0 := (Memory.read s.str 0).isLt
  have h1 := (Memory.read s.str 1).isLt
  have h2 := (Memory.read s.str 2).isLt
  have h3 := (Memory.read s.str 3).isLt
  unfold State.headerWidth State.headerHeight
  omega

theorem hdrWr_body {s : State} (hs : ¬ s.faulted) (hd : s.dimsLegal) (h4 : 4 ≤ s.caps.str) :
    hdrWrCmd s = finish { s with
          str := Memory.write16 (Memory.write16 s.str 0 (s.w - 1)) 2 (s.h - 1), strPos := 4, strLen := 4 } := by
  rw [hdrWrCmd, command_of_pass hs]
  refine (ff_pass ((dimsCheck_passes s).2 hd)).trans ((ff_pass ?_).trans rfl)
  simpa [headerRoomCheck] using h4

theorem hdrWr_read (m : Memory) (w h a : Nat) : Memory.read (Memory.write16 (Memory.write16 m 0 w) 2 h) a =
    if a = 0 then BitVec.ofNat 8 w else if a = 1 then BitVec.ofNat 8 (w / 256)
    else if a = 2 then BitVec.ofNat 8 h else if a = 3 then BitVec.ofNat 8 (h / 256) else Memory.read m a := by
  unfold Memory.write16
  rw [Nat.shiftRight_eq_div_pow, Nat.shiftRight_eq_div_pow]
  simp only [Memory.read_write]
  rcases a with _ | _ | _ | _ | a <;> simp

theorem runFindCmd_body {s : State} (hs : ¬ s.faulted) (hd : s.dimsLegal) (hp : s.pw * s.h ≤ s.caps.pkd)
    (hr : s.r < s.h) (hc : s.c ≤ s.pw) : runFindCmd s = finish (findRun s.c s) := by
  rw [runFindCmd, command_of_pass hs]
  refine (ff_pass ((dimsCheck_passes s).2 hd)).trans ((ff_pass ((pkdCheck_passes s).2 hp)).trans ((ff_pass (arg_passes ?_)).trans rfl))
  rw [decide_eq_false]; omega

theorem packChecks_pass {s : State} (h : s.packReady) : firstFailure (packChecks s) = none := by
  obtain ⟨-, hd, hp, hx, he⟩ := h
  exact (ff_pass ((dimsCheck_passes s).2 hd)).trans ((ff_pass ((pkdCheck_passes s).2 hp)).trans
    ((ff_pass ((pixCheck_passes s).2 hx)).trans (ff_pass ((evenCheck_passes s).2 he))))

theorem packCmd_body {s : State} (h : s.packReady) : packCmd s =
    { s with pkd := (overRows packRow s.h 0 s).pkd, row := s.height, col := 0, status := stDone } := by
  rw [packCmd, command_of_pass h.1 (packChecks_pass h)]
  show packEnd _ = _
  rw [packRows_frame]; rfl

theorem unpackCmd_body {s : State} (h : s.packReady) : unpackCmd s =
    { s with pix := (overRows unpackRow s.h 0 s).pix, row := s.height, col := 0, status := stDone } := by
  rw [unpackCmd, command_of_pass h.1 (packChecks_pass h)]
  show packEnd _ = _
  rw [unpackRows_frame]; rfl

theorem exists_pixel {s : State} {a : Nat} (h : a < s.w * s.h) : ∃ r x, r < s.h ∧ x < s.w ∧ s.pixAddr r x = a := by
  have hw : 0 < s.w := by rcases Nat.eq_zero_or_pos s.w with h0 | h0; · rw [h0] at h; omega
                          · exact h0
  have hq : a / s.w < s.h := Nat.div_lt_of_lt_mul h
  refine ⟨s.extRow (a / s.w), a % s.w, extRow_lt hq, Nat.mod_lt _ hw, ?_⟩
  unfold State.pixAddr
  rw [extRow_extRow hq, Nat.mul_comm]; exact Nat.div_add_mod a s.w

theorem pixelOf_lt (s : State) (r x : Nat) : (s.pixelOf r x).toNat < 16 := by
  unfold State.pixelOf; split
  · exact (unpack_lt _).1
  · exact (unpack_lt _).2

theorem ofNat_toNat {w n : Nat} (h : n < 2 ^ w) : (BitVec.ofNat w n).toNat = n := by
  rw [BitVec.toNat_ofNat, Nat.mod_eq_of_lt h]

theorem slen_lt (s : State) : s.slen < 2 ^ 33 := s.strLen.isLt

/-- What a token that fits leaves, whichever it is. -/
theorem advance_facts {s u : State} {n size : Nat} {f : Nat → Byte} (hd : s.dimsLegal) (hn : 1 ≤ n) (hrow : n ≤ s.pw - s.c)
    (hr : s.r < s.h) (hend : s.pos + size ≤ s.slen)
    (hu : u = { s with
        code := u.code, len := u.len, val := u.val, pkd := Memory.fill s.pkd (s.lineAddr s.c) n f,
        strPos := BitVec.ofNat 33 (s.pos + size), col := BitVec.ofNat 16 (s.c + n) }) :
    rowAdvance u = { u with row := (rowAdvance u).row, col := (rowAdvance u).col } ∧
    (rowAdvance u).pos = s.pos + size ∧ (rowAdvance u).pkd = u.pkd ∧ (rowAdvance u).strPos = u.strPos ∧
    (if s.c + n = s.pw then (rowAdvance u).r = s.r + 1 ∧ (rowAdvance u).c = 0
      else (rowAdvance u).r = s.r ∧ (rowAdvance u).c = s.c + n) := by
  have hb := pw_bounds hd
  have hsl := slen_lt s
  have hh := hd.2.2.2
  have huc : u.c = s.c + n := by
    rw [hu]; show (BitVec.ofNat 16 _).toNat = _; exact ofNat_toNat (by omega)
  have hupw : u.pw = s.pw := by rw [hu]; rfl
  have hur : u.r = s.r := by rw [hu]; rfl
  have hupos : u.pos = s.pos + size := by
    rw [hu]; show (BitVec.ofNat 33 _).toNat = _; exact ofNat_toNat (by omega)
  by_cases he : s.c + n = s.pw
  · have e := rowAdvance_of_eq (s := u) (by rw [huc, hupw]; exact he)
    rw [e, if_pos he]
    refine ⟨rfl, hupos, rfl, rfl, ?_, rfl⟩
    show (BitVec.ofNat 17 _).toNat = _
    rw [hur]; exact ofNat_toNat (by omega)
  · have e := rowAdvance_of_ne (s := u) (by rw [huc, hupw]; exact he)
    rw [e, if_neg he]
    exact ⟨rfl, hupos, rfl, rfl, hur, huc⟩

theorem rleDecCmd_body {s : State} (h : s.decReady) : rleDecCmd s = rleDecBody s := by
  obtain ⟨hs, hd, hp, hl, hq⟩ := h
  rw [rleDecCmd, command_of_pass hs]
  refine (ff_pass ((dimsCheck_passes s).2 hd)).trans ((ff_pass ((pkdCheck_passes s).2 hp)).trans ((ff_pass (arg_passes ?_)).trans rfl))
  rw [decide_eq_false]; omega

theorem decReady_of_done {s : State} (hs : ¬ s.faulted) (h : ¬ (rleDecCmd s).faulted) : s.decReady := by
  unfold rleDecCmd at h
  rcases command_cases 0x3 (fun s => [dimsCheck s, pkdCheck s, argCheck (decide (s.slen > s.caps.str ∨ s.pos > s.slen))]) rleDecBody s
    with ⟨h1, -⟩ | ⟨-, k, -, -, e⟩ | ⟨-, hk, -⟩
  · exact absurd h1 hs
  · rw [e] at h; exact absurd rfl h
  · simp only [List.mem_cons, List.not_mem_nil, or_false, forall_eq_or_imp, forall_eq] at hk
    have hb := of_decide_eq_false hk.2.2
    exact ⟨hs, (dimsCheck_passes s).1 hk.1, (pkdCheck_passes s).1 hk.2.1, by omega, by omega⟩

theorem slice_of_stream {s : State} {e rest : List Byte} (hp : s.pos ≤ s.slen) (h : s.stream = e ++ rest) :
    s.pos + e.length + rest.length = s.slen ∧ Memory.slice s.str s.pos e.length = e ∧
    Memory.slice s.str (s.pos + e.length) rest.length = rest := by
  have hl := congrArg List.length h
  rw [List.length_append] at hl
  have : s.stream.length = s.slen - s.pos := by simp [State.stream]
  have he : e.length + rest.length = s.slen - s.pos := by omega
  have h2 : Memory.slice s.str s.pos e.length ++ Memory.slice s.str (s.pos + e.length) rest.length = e ++ rest := by
    rw [← Memory.slice_add, he]; exact h
  obtain ⟨h3, h4⟩ := List.append_inj h2 (by simp)
  exact ⟨by omega, h3, h4⟩

/-- The loop on whole rows, from the start of RLE_DEC. -/
theorem loop_rows {s : State} (h : s.decReady) {k : Nat} {e1 d1 : List Byte} {rest : List Byte} (hk : k ≤ s.h)
    (hi : ImageTokens s.pw k e1 d1) (hst : s.stream = e1 ++ rest) :
    ∃ m code len val, m ≤ e1.length ∧
      ∀ fuel, decodeLoop (m + fuel) (homed s) = decodeLoop fuel (rowsDone (homed s) k d1 e1.length code len val) := by
  obtain ⟨hs, hd, hp, hl, hq⟩ := h
  obtain ⟨h1, h2, h3⟩ := slice_of_stream hq hst
  exact decodeLoop_rows (s := homed s) hi hs hd (by show 0 + k ≤ s.h; omega) rfl (by show s.pos + _ ≤ s.slen; omega) h2

theorem rowsDone_facts {s : State} (h : s.decReady) {k : Nat} {e1 d1 rest : List Byte} (code len val : Byte) (hk : k ≤ s.h)
    (hi : ImageTokens s.pw k e1 d1) (hst : s.stream = e1 ++ rest) :
    let t := rowsDone (homed s) k d1 e1.length code len val
    t.pos = s.pos + e1.length ∧ t.r = k ∧ t.c = 0 ∧ t.pw = s.pw ∧ t.h = s.h ∧ t.slen = s.slen ∧ t.str = s.str ∧
    t.status = s.status ∧ t.pkd = Memory.fill s.pkd 0 d1.length (fun j => d1.getD j 0) ∧ d1.length = k * s.pw ∧
    (k = s.h → t.row = s.height) ∧ DecFrame s t := by
  obtain ⟨hs, hd, hp, hl, hq⟩ := h
  obtain ⟨h1, h2, h3⟩ := slice_of_stream hq hst
  have hrk : (rowsDone (homed s) k d1 e1.length code len val).r = k := by
    rw [rowsDone_r (s := homed s) (by show 0 + k ≤ _; have := hd.2.2.2; omega)]; show 0 + k = k; omega
  have hz : (homed s).lineAddr 0 = 0 := by show 0 * s.pw + 0 = 0; omega
  refine ⟨rowsDone_pos (s := homed s) (by show s.pos + _ ≤ s.slen; omega), hrk, rfl, rfl, rfl, rfl, rfl, rfl, ?_, hi.length_eq,
    fun he => ?_, rfl⟩
  · show Memory.fill s.pkd ((homed s).lineAddr 0) _ _ = _; rw [hz]
  · apply BitVec.eq_of_toNat_eq
    exact hrk.trans he

/-- The state of the loop after whole rows and part of a row. -/
theorem loop_partial {s : State} (h : s.decReady) {k : Nat} {e1 d1 e2 d2 rest : List Byte} (hk : k < s.h)
    (hi : ImageTokens s.pw k e1 d1) (hr : RowTokens e2 d2) (hd2 : d2.length < s.pw) (hst : s.stream = e1 ++ e2 ++ rest) :
    ∃ m code len val t, m ≤ (e1 ++ e2).length ∧ (∀ fuel, decodeLoop (m + fuel) (homed s) = decodeLoop fuel t) ∧
      t.pos = s.pos + (e1 ++ e2).length ∧ t.r = k ∧ t.c = d2.length ∧ ¬ t.faulted ∧
      t = { s with
        strPos := t.strPos, row := t.row, col := t.col, code := code, len := len, val := val,
        pkd := Memory.fill s.pkd 0 (d1 ++ d2).length (fun j => (d1 ++ d2).getD j 0) } := by
  obtain ⟨hq1, hq2, hq3⟩ := slice_of_stream h.2.2.2.2 hst
  have hst1 : s.stream = e1 ++ (e2 ++ rest) := by rw [hst, List.append_assoc]
  obtain ⟨-, -, hq4⟩ := slice_of_stream h.2.2.2.2 hst1
  obtain ⟨m, code, len, val, hm, hloop⟩ := loop_rows h (by omega) hi hst1
  obtain ⟨hpos, hr1, hc, hpw, hh, hsl, hstr, hstat, hpk, hlen, -, hfr⟩ := rowsDone_facts h code len val (by omega) hi hst1
  obtain ⟨u, hu⟩ : ∃ u, u = rowsDone (homed s) k d1 e1.length code len val := ⟨_, rfl⟩
  have hufr : u = { s with
      strPos := u.strPos, row := u.row, col := u.col, code := code, len := len, val := val, pkd := u.pkd } := by rw [hu]; rfl
  rw [← hu] at hpos hr1 hc hpw hh hsl hstr hstat hpk hfr hloop
  have hnf : ¬ u.faulted := by unfold State.faulted; rw [hstat]; exact h.1
  have hlr : (e2 ++ rest).length = e2.length + rest.length := List.length_append
  have hle : (e1 ++ e2).length = e1.length + e2.length := List.length_append
  obtain ⟨m2, code2, len2, val2, hm2, hloop2⟩ := decodeLoop_partial (s := u) hr hnf (by rw [hpw]; exact (pw_bounds h.2.1).2)
    (by rw [hr1, hh]; omega) (by rw [hc, hpw]; omega) (by rw [hpos, hsl]; omega)
    (by
      rw [hstr, hpos]
      have h5 := congrArg (List.take e2.length) hq4
      rw [Memory.take_slice _ _ _ _ (by omega), List.take_left' rfl] at h5
      exact h5)
  refine ⟨m + m2, code2, len2, val2, emitted u d2 e2.length code2 len2 val2, by omega, fun fuel => ?_, ?_, ?_, ?_, ?_, ?_⟩
  · rw [Nat.add_assoc, hloop, hloop2]
  · rw [emitted_pos (by rw [hpos, hsl]; omega), hpos, hle]; omega
  · exact hr1
  · rw [emitted_c (by rw [hc, hpw]; omega) (by rw [hpw]; exact (pw_bounds h.2.1).2), hc]; omega
  · exact hnf
  · have hfill : Memory.fill u.pkd (u.lineAddr u.c) d2.length (fun k => d2.getD k 0) =
        Memory.fill s.pkd 0 (d1 ++ d2).length (fun j => (d1 ++ d2).getD j 0) := by
      rw [hpk, ← Memory.fill_append]
      congr 1
      show u.r * u.pw + u.c = _
      rw [hr1, hpw, hc, hlen]; omega
    conv_lhs => rw [emitted_eq, hfill, hufr]
    conv_rhs => rw [emitted_eq, hufr]

theorem fuel_split {s : State} (h : s.decReady) {e rest : List Byte} (hst : s.stream = e ++ rest) {m : Nat} (hm : m ≤ e.length) :
    ∃ fuel, s.slen - s.pos + 1 = m + (fuel + 1) ∧ rest.length ≤ fuel := by
  obtain ⟨hq1, -, -⟩ := slice_of_stream h.2.2.2.2 hst
  exact ⟨s.slen - s.pos - m, by omega, by omega⟩

theorem decodeEnd_faulted {s : State} (h : s.faulted) : decodeEnd s = s := by unfold decodeEnd; rw [if_pos h]

theorem decodeLoop_add (fuel more : Nat) (s : State) : decodeLoop (fuel + more) s = decodeLoop more (decodeLoop fuel s) := by
  induction fuel generalizing s with
  | zero => rw [Nat.zero_add]; rfl
  | succ fuel ih =>
    rw [Nat.add_right_comm]
    by_cases hf : s.faulted ∨ s.pos = s.slen
    · rw [decodeLoop_stop hf, decodeLoop_stop hf, decodeLoop_stop hf]
    · rw [not_or] at hf
      by_cases hh : s.r = s.h
      · rw [decodeLoop_surplus hf.1 hf.2 hh, decodeLoop_surplus hf.1 hf.2 hh, decodeLoop_stop (.inl rfl)]
      · rw [decodeLoop_run hf.1 hf.2 hh, decodeLoop_run hf.1 hf.2 hh, ih]

theorem ImageTokens.append {pw a b : Nat} {e d e' d' : List Byte} (h : ImageTokens pw a e d) (h' : ImageTokens pw b e' d') :
    ImageTokens pw (a + b) (e ++ e') (d ++ d') := by
  induction h with
  | nil => simpa using h'
  | row hr hl _ ih => rw [Nat.add_right_comm, List.append_assoc, List.append_assoc]; exact .row hr hl ih

theorem encReady_of_done {s : State} (hs : ¬ s.faulted) (h : ¬ (rleEncCmd s).faulted) : s.encReady := by
  unfold rleEncCmd at h
  rcases command_cases 0x4 (fun s => [dimsCheck s, pkdCheck s, argCheck (decide (s.pos > s.caps.str))]) rleEncBody s
    with ⟨h1, -⟩ | ⟨-, k, -, -, e⟩ | ⟨-, hk, -⟩
  · exact absurd h1 hs
  · rw [e] at h; exact absurd rfl h
  · simp only [List.mem_cons, List.not_mem_nil, or_false, forall_eq_or_imp, forall_eq] at hk
    have hb := of_decide_eq_false hk.2.2
    exact ⟨hs, (dimsCheck_passes s).1 hk.1, (pkdCheck_passes s).1 hk.2.1, by omega⟩

theorem rleEncCmd_body {s : State} (h : s.encReady) : rleEncCmd s = rleEncBody s := by
  obtain ⟨hs, hd, hp, hl⟩ := h
  rw [rleEncCmd, command_of_pass hs]
  refine (ff_pass ((dimsCheck_passes s).2 hd)).trans ((ff_pass ((pkdCheck_passes s).2 hp)).trans ((ff_pass (arg_passes ?_)).trans rfl))
  rw [decide_eq_false]; omega

theorem encodedImage_eq (s : State) : s.encodedImage =
    (List.range' 0 s.h).flatMap (fun r => encodeRowBytes s.pw (s.packedRow r)) := by
  unfold State.encodedImage; rw [List.range_eq_range']

theorem packedImage_eq (s : State) : s.packedImage = (List.range' 0 s.h).flatMap s.packedRow := by
  have key : ∀ n a, Memory.slice s.pkd (a * s.pw) (n * s.pw) = (List.range' a n).flatMap s.packedRow := by
    intro n
    induction n with
    | zero => intro a; rw [Nat.zero_mul, Memory.slice_zero]; rfl
    | succ n ih =>
      intro a
      rw [List.range'_succ, List.flatMap_cons, ← ih (a + 1), Nat.add_mul n 1, Nat.one_mul, Nat.add_comm (n * s.pw), Memory.slice_add,
        Nat.add_mul a 1, Nat.one_mul]
      rfl
  rw [← key, Nat.zero_mul, Nat.mul_comm]; rfl

theorem packReady_of_done {s : State} {op : Nat} {body : State → State} (hs : ¬ s.faulted)
    (hf : ¬ (command op packChecks body s).faulted) : s.packReady := by
  rcases command_cases op packChecks body s with ⟨h1, -⟩ | ⟨-, k, hk, -, h⟩ | ⟨-, hk, h⟩
  · exact absurd h1 hs
  · rw [h] at hf; exact absurd rfl hf
  · simp only [packChecks, List.mem_cons, List.not_mem_nil, or_false, forall_eq_or_imp, forall_eq] at hk
    exact ⟨hs, (dimsCheck_passes s).1 hk.1, (pkdCheck_passes s).1 hk.2.1, (pixCheck_passes s).1 hk.2.2.1, (evenCheck_passes s).1 hk.2.2.2⟩

theorem next_inj {a b : State} (h : (Host.Outcome.next a : Outcome) = .next b) : a = b := by injection h

theorem execLit_cases {n : Nat} {s t : State} (h : execLit n s = .next t) : t = s ∨ t = litToken n s := by
  unfold execLit checked at h
  split at h
  · exact .inl (next_inj h).symm
  · split at h
    · exact .inr (next_inj h).symm
    · split at h
      · split at h
        · exact .inr (next_inj h).symm
        · cases h
      · cases h

theorem execRep_cases {n : Nat} {s t : State} (h : execRep n s = .next t) : t = s ∨ t = repToken n s := by
  unfold execRep checked at h
  split at h
  · exact .inl (next_inj h).symm
  · split at h
    · exact .inr (next_inj h).symm
    · split at h
      · split at h
        · exact .inr (next_inj h).symm
        · split at h
          · exact .inr (next_inj h).symm
          · cases h
      · cases h

theorem lit_frame {n : Nat} {s t : State} (h : exec (.lit n) s = .next t) : DecFrame s t := by
  rcases execLit_cases h with rfl | rfl
  · rfl
  · exact litToken_frame _ _

theorem rep_frame {n : Nat} {s t : State} (h : exec (.rep n) s = .next t) : DecFrame s t := by
  rcases execRep_cases h with rfl | rfl
  · rfl
  · exact repToken_frame _ _

theorem hdrRd_frame (s : State) : hdrRdCmd s = { s with
    status := (hdrRdCmd s).status, fault := (hdrRdCmd s).fault, width := (hdrRdCmd s).width, height := (hdrRdCmd s).height,
    strPos := (hdrRdCmd s).strPos } := by
  unfold hdrRdCmd
  rcases command_cases 0x1 (fun s => [argCheck (decide (s.slen > s.caps.str)), headerCheck s])
        (fun s => finish { s with width := BitVec.ofNat 17 ((Memory.read16 s.str 0).toNat + 1)
                                  height := BitVec.ofNat 17 ((Memory.read16 s.str 2).toNat + 1)
                                  strPos := 4 }) s with ⟨-, h⟩ | ⟨-, k, -, -, h⟩ | ⟨-, -, h⟩ <;> rw [h] <;> rfl

theorem hdrWr_frame (s : State) : hdrWrCmd s = { s with
    status := (hdrWrCmd s).status, fault := (hdrWrCmd s).fault, str := (hdrWrCmd s).str, strLen := (hdrWrCmd s).strLen,
    strPos := (hdrWrCmd s).strPos } := by
  unfold hdrWrCmd
  rcases command_cases 0x2 (fun s => [dimsCheck s, headerRoomCheck s])
        (fun s => finish { s with str := Memory.write16 (Memory.write16 s.str 0 (s.w - 1)) 2 (s.h - 1)
                                  strPos := 4
                                  strLen := 4 }) s with ⟨-, h⟩ | ⟨-, k, -, -, h⟩ | ⟨-, -, h⟩ <;> rw [h] <;> rfl

theorem pack_frame (s : State) : packCmd s = { s with
    status := (packCmd s).status, fault := (packCmd s).fault, row := (packCmd s).row, col := (packCmd s).col, pkd := (packCmd s).pkd } := by
  unfold packCmd
  rcases command_cases 0x5 packChecks (fun s => packEnd (overRows packRow s.h 0 s)) s with ⟨-, h⟩ | ⟨-, k, -, -, h⟩ | ⟨-, -, h⟩ <;> rw [h]
  · rfl
  · unfold packEnd; rw [packRows_frame]; rfl

theorem unpack_frame (s : State) : unpackCmd s = { s with
    status := (unpackCmd s).status, fault := (unpackCmd s).fault, row := (unpackCmd s).row, col := (unpackCmd s).col, pix := (unpackCmd s).pix } := by
  unfold unpackCmd
  rcases command_cases 0x6 packChecks (fun s => packEnd (overRows unpackRow s.h 0 s)) s with ⟨-, h⟩ | ⟨-, k, -, -, h⟩ | ⟨-, -, h⟩ <;> rw [h]
  · rfl
  · unfold packEnd; rw [unpackRows_frame]; rfl

theorem runFind_frame (s : State) : runFindCmd s = { s with
    status := (runFindCmd s).status, fault := (runFindCmd s).fault, rfLen := (runFindCmd s).rfLen, rfPos := (runFindCmd s).rfPos } := by
  unfold runFindCmd
  rcases command_cases 0x7 (fun s => [dimsCheck s, pkdCheck s, argCheck (decide (s.r ≥ s.h ∨ s.c > s.pw))])
    (fun s => finish (findRun s.c s)) s with ⟨-, h⟩ | ⟨-, k, -, -, h⟩ | ⟨-, -, h⟩ <;> rw [h] <;> rfl

theorem reserved_frame (op : Nat) (s : State) : reservedCmd op s = { s with
    status := (reservedCmd op s).status, fault := (reservedCmd op s).fault } := by
  by_cases h : s.faulted
  · unfold reservedCmd; rw [command_of_faulted h]
  · rw [reserved_step h]; rfl

theorem rleDec_pkd {P : Memory → Prop} {s : State} (h : P s.pkd)
    (hP : ∀ m a n f, P m → a + n ≤ s.pw * s.h → P (Memory.fill m a n f)) : P (rleDecCmd s).pkd := by
  by_cases hf : s.faulted
  · rw [rleDec_of_faulted hf]; exact h
  unfold rleDecCmd
  rcases command_cases 0x3 (fun s => [dimsCheck s, pkdCheck s, argCheck (decide (s.slen > s.caps.str ∨ s.pos > s.slen))]) rleDecBody s
    with ⟨h1, -⟩ | ⟨-, k, -, -, e⟩ | ⟨-, hk, e⟩
  · exact absurd h1 hf
  · rw [e]; exact h
  · rw [e]
    simp only [List.mem_cons, List.not_mem_nil, or_false, forall_eq_or_imp, forall_eq] at hk
    have hd := (dimsCheck_passes s).1 hk.1
    have hp : s.pos ≤ s.slen := by
      have := of_decide_eq_false hk.2.2; omega
    have := decodeLoop_pkd (P := P) (s0 := s) hP (fuel := s.slen - s.pos + 1) (s := homed s) rfl rfl hd hp (Nat.zero_le _) h
    unfold rleDecBody decodeEnd
    split
    · exact this
    · split
      · exact this
      · exact this

theorem hdrWr_str (s : State) : ((hdrWrCmd s).str = s.str ∧ (hdrWrCmd s).faulted) ∨
    (4 ≤ s.caps.str ∧ (hdrWrCmd s).pos = 4 ∧ ∃ w h, (hdrWrCmd s).str = Memory.write16 (Memory.write16 s.str 0 w) 2 h) := by
  unfold hdrWrCmd
  rcases command_cases 0x2 (fun s => [dimsCheck s, headerRoomCheck s])
        (fun s => finish { s with str := Memory.write16 (Memory.write16 s.str 0 (s.w - 1)) 2 (s.h - 1)
                                  strPos := 4
                                  strLen := 4 }) s with ⟨h0, h⟩ | ⟨-, k, -, -, h⟩ | ⟨-, hk, h⟩ <;> rw [h]
  · exact .inl ⟨rfl, h0⟩
  · exact .inl ⟨rfl, rfl⟩
  · simp only [List.mem_cons, List.not_mem_nil, or_false, forall_eq_or_imp, forall_eq] at hk
    exact .inr ⟨by have := of_decide_eq_false hk.2; omega, rfl, _, _, rfl⟩

theorem pack_pkd {s : State} : (packCmd s).pkd = s.pkd ∨ (s.packReady ∧ (packCmd s).pkd = (overRows packRow s.h 0 s).pkd) := by
  by_cases hf : s.faulted
  · unfold packCmd; rw [command_of_faulted hf]; exact .inl rfl
  by_cases hr : s.packReady
  · rw [packCmd_body hr]; exact .inr ⟨hr, rfl⟩
  · left
    unfold packCmd
    rcases command_cases 0x5 packChecks (fun s => packEnd (overRows packRow s.h 0 s)) s with ⟨-, h⟩ | ⟨-, k, -, -, h⟩ | ⟨-, hk, h⟩
    · rw [h]
    · rw [h]; rfl
    · exfalso; apply hr
      simp only [packChecks, List.mem_cons, List.not_mem_nil, or_false, forall_eq_or_imp, forall_eq] at hk
      exact ⟨hf, (dimsCheck_passes s).1 hk.1, (pkdCheck_passes s).1 hk.2.1, (pixCheck_passes s).1 hk.2.2.1, (evenCheck_passes s).1 hk.2.2.2⟩

theorem unpack_pix {s : State} : (unpackCmd s).pix = s.pix ∨ (s.packReady ∧ (unpackCmd s).pix = (overRows unpackRow s.h 0 s).pix) := by
  by_cases hf : s.faulted
  · unfold unpackCmd; rw [command_of_faulted hf]; exact .inl rfl
  by_cases hr : s.packReady
  · rw [unpackCmd_body hr]; exact .inr ⟨hr, rfl⟩
  · left
    unfold unpackCmd
    rcases command_cases 0x6 packChecks (fun s => packEnd (overRows unpackRow s.h 0 s)) s with ⟨-, h⟩ | ⟨-, k, -, -, h⟩ | ⟨-, hk, h⟩
    · rw [h]
    · rw [h]; rfl
    · exfalso; apply hr
      simp only [packChecks, List.mem_cons, List.not_mem_nil, or_false, forall_eq_or_imp, forall_eq] at hk
      exact ⟨hf, (dimsCheck_passes s).1 hk.1, (pkdCheck_passes s).1 hk.2.1, (pixCheck_passes s).1 hk.2.2.1, (evenCheck_passes s).1 hk.2.2.2⟩

theorem pack_above {s : State} {a : Nat} (ha : s.pw * s.h ≤ a) : Memory.read (packCmd s).pkd a = Memory.read s.pkd a := by
  rcases pack_pkd (s := s) with e | ⟨hr, e⟩
  · rw [e]
  · rw [e]; exact packRows_read_above (by rw [Nat.zero_add, Nat.mul_comm]; exact ha)

theorem unpack_above {s : State} {a : Nat} (ha : s.w * s.h ≤ a) : Memory.read (unpackCmd s).pix a = Memory.read s.pix a := by
  rcases unpack_pix (s := s) with e | ⟨hr, e⟩
  · rw [e]
  · rw [e]; exact unpackRows_read_above hr.2.2.2.2 (by omega) ha

theorem rleDec_above {s : State} {a : Nat} (ha : s.pw * s.h ≤ a) : Memory.read (rleDecCmd s).pkd a = Memory.read s.pkd a := by
  refine rleDec_pkd (P := fun m => Memory.read m a = Memory.read s.pkd a) rfl (fun m b n f hm hle => ?_)
  rw [Memory.read_fill_of_ge (by omega)]; exact hm

theorem faultOk_of_eq {s t : State} (h : s.faultOk) (h1 : t.status = s.status) (h2 : t.fault = s.fault) : t.faultOk := by
  unfold State.faultOk State.faulted State.faultCode
  rw [h1, h2]; exact h

theorem faultOk_of_ends {op : Nat} {s t : State} (h : s.faultOk) (hs : ¬ s.faulted) (he : DoneOrRaised op s t) : t.faultOk := by
  rcases he.done_or with ⟨a, b, c⟩ | ⟨a, b⟩
  · exact ⟨by rw [b]; decide, fun _ => by rw [c]; exact h.2.1 hs, fun h => absurd h a⟩
  · exact ⟨by rw [show t.status = stFaulted from a]; decide, fun h => absurd a h, fun _ => code_of b⟩

theorem ok_fill {m : Memory} {cap a n : Nat} {f : Nat → Byte} (h : Memory.ok m cap) (hle : a + n ≤ cap) :
    Memory.ok (Memory.fill m a n f) cap := ⟨Memory.wf_fill _ _ _ h.1, Memory.below_fill _ h.2 hle⟩

theorem faultOk_of_rec {op : Nat} {s t : State} (h : s.faultOk) (he : KeptOrRaised op s t) : t.faultOk := by
  rcases he with ⟨a, b⟩ | ⟨f, sub, hs, a, b, -⟩
  · exact faultOk_of_eq h a b
  · exact ⟨by rw [a]; decide, fun hn => absurd a hn, fun _ => code_of ⟨f, sub, hs, b⟩⟩

theorem rowAdvance_pkd (s : State) : (rowAdvance s).pkd = s.pkd := by unfold rowAdvance; split <;> rfl

theorem lit_pkd (n : Nat) (s : State) : (litToken n s).pkd = s.pkd ∨
    (s.lineAddr s.c + n ≤ s.lineAddr s.c + n ∧ n ≤ s.pw - s.c ∧ s.pos + 1 + n ≤ s.slen ∧
      (litToken n s).pkd = Memory.fill s.pkd (s.lineAddr s.c) n (fun k => Memory.read s.str (s.pos + 1 + k))) := by
  by_cases h : n > s.pw - s.c
  · rw [litToken_overrun h]; exact .inl rfl
  · by_cases h' : s.pos + 1 + n > s.slen
    · rw [litToken_truncated (by omega) h']; exact .inl rfl
    · rw [litToken_fits (by omega) (by omega)]
      refine .inr ⟨Nat.le_refl _, by omega, by omega, ?_⟩
      unfold litEmit; rw [rowAdvance_pkd]; rfl

theorem rep_pkd (n : Nat) (s : State) : (repToken n s).pkd = s.pkd ∨
    (n ≤ s.pw - s.c ∧ s.pos + 2 ≤ s.slen ∧
      (repToken n s).pkd = Memory.fill s.pkd (s.lineAddr s.c) n (fun _ => Memory.read s.str (s.pos + 1))) := by
  by_cases h : s.pos + 2 > s.slen
  · rw [repToken_truncated h]; exact .inl rfl
  · by_cases h' : n > s.pw - s.c
    · rw [repToken_overrun (by omega) h']; exact .inl rfl
    · rw [repToken_fits (by omega) (by omega)]
      refine .inr ⟨by omega, by omega, ?_⟩
      unfold repEmit; rw [rowAdvance_pkd]; rfl

end Sys2Proof.Machine
end

