-- ==== Sys2Proof/Laws/PerInstr.lean ====
section
/-! SUPPORT. A fact about each instruction as syntax: its encoding stands in its own row of spec/opcode_table.json. -/

namespace Sys2Proof.Laws.TableRow

/-- The column "mask" of the row: which bits of the encoding the row fixes. -/
def mask : Instr → Byte
  | .lit _ => 0x80#8
  | .rep _ => 0x80#8
  | _ => 0x0F#8

/-- The column "match" of the row: the value of those bits. -/
def pattern : Instr → Byte
  | .lit _ => 0x00#8
  | .rep _ => 0x80#8
  | .nop => 0x0#8
  | .hdrRd => 0x1#8
  | .hdrWr => 0x2#8
  | .rleDec => 0x3#8
  | .rleEnc => 0x4#8
  | .pack => 0x5#8
  | .unpack => 0x6#8
  | .runFind => 0x7#8
  | .decodeImage => 0x8#8
  | .encodeImage => 0x9#8
  | .reservedA => 0xA#8
  | .reservedB => 0xB#8
  | .reservedC => 0xC#8
  | .reservedD => 0xD#8
  | .reservedE => 0xE#8
  | .reset => 0xF#8

/-- The encoding of a well-formed instruction has the bits its row fixes, and a command's encoding no others
(30_encoding.md R63, R66). -/
def Statement (i : Instr) : Prop :=
  WellFormed i = true →
    encodeByte i &&& mask i = pattern i ∧ (encSpace i = .command → (encodeByte i).toNat < 2 ^ 4)

theorem lit (n : Nat) : Statement (.lit n) := by
  intro h
  have hb : 1 ≤ n ∧ n ≤ 128 := of_decide_eq_true h
  refine ⟨?_, fun h => by cases h⟩
  show BitVec.ofNat 8 (n - 1) &&& 0x80#8 = 0x00#8
  obtain ⟨k, rfl⟩ : ∃ k, n = k + 1 := ⟨n - 1, by omega⟩
  have : ∀ k : Fin 128, BitVec.ofNat 8 k &&& 0x80#8 = 0x00#8 := by decide
  exact this ⟨k, by omega⟩

theorem rep (n : Nat) : Statement (.rep n) := by
  intro h
  have hb : 3 ≤ n ∧ n ≤ 130 := of_decide_eq_true h
  refine ⟨?_, fun h => by cases h⟩
  show BitVec.ofNat 8 ((n - 3) + 0x80) &&& 0x80#8 = 0x80#8
  have : ∀ k : Fin 128, BitVec.ofNat 8 (k + 0x80) &&& 0x80#8 = 0x80#8 := by decide
  exact this ⟨n - 3, by omega⟩

theorem nop : Statement .nop := by unfold Statement; decide
theorem hdrRd : Statement .hdrRd := by unfold Statement; decide
theorem hdrWr : Statement .hdrWr := by unfold Statement; decide
theorem rleDec : Statement .rleDec := by unfold Statement; decide
theorem rleEnc : Statement .rleEnc := by unfold Statement; decide
theorem pack : Statement .pack := by unfold Statement; decide
theorem unpack : Statement .unpack := by unfold Statement; decide
theorem runFind : Statement .runFind := by unfold Statement; decide
theorem decodeImage : Statement .decodeImage := by unfold Statement; decide
theorem encodeImage : Statement .encodeImage := by unfold Statement; decide
theorem reservedA : Statement .reservedA := by unfold Statement; decide
theorem reservedB : Statement .reservedB := by unfold Statement; decide
theorem reservedC : Statement .reservedC := by unfold Statement; decide
theorem reservedD : Statement .reservedD := by unfold Statement; decide
theorem reservedE : Statement .reservedE := by unfold Statement; decide
theorem reset : Statement .reset := by unfold Statement; decide

end Sys2Proof.Laws.TableRow
end

