-- ==== Sys2Proof/Tests/Slice0.lean ====
section
/-! SUPPORT. Tests. Expected results come from spec/95_test_vectors.md and from the encodings of 30_encoding.md; the theorems
named test_met_X show concrete operands that meet the hypotheses of the statement X, one conjunct for each clause. -/

namespace Sys2Proof.Tests

open Sys2Proof Sys2Proof.Machine

/-! ### Small states -/

/-- Reset state with capacities of `c` bytes each. -/
def small (c : Nat) : State := { State.reset with caps := ⟨c, c, c⟩ }

/-- `ld`: the bytes `bs` stored from `a` on. -/
def ld (m : Memory) (a : Nat) (bs : List Byte) : Memory := Memory.fill m a bs.length (fun k => bs.getD k 0)

/-- The next state of an outcome. -/
def after : Outcome → State
  | .next t => t
  | .fault _ => State.reset
  | .refused _ => State.reset

/-- The registers 0x0 to 0xB as the host reads them. -/
def regs (s : State) : List Nat := (List.range 12).map (fun i => hostRegRead i s)

/-- A bare token stream for a `w` by `h` image (95 section 2.1). -/
def dec (w h : Nat) (bs : List Byte) : State :=
  { small 64 with
    width := BitVec.ofNat 17 w, height := BitVec.ofNat 17 h, str := ld [] 0 bs, strLen := BitVec.ofNat 33 bs.length }

/-- A packed row in PKD (95 section 2.2). -/
def enc (row : List Byte) : State :=
  { small 64 with width := BitVec.ofNat 17 (2 * row.length), height := 1, pkd := ld [] 0 row }

/-- The bytes of the 8 by 2 image of program P1. -/
def bytes8x2 : List Byte := [7, 0, 1, 0, 3, 0x45, 0x67, 0x77, 0x77, 0x80, 0x11, 0, 0x23]

/-- Program P1 before DECODE. -/
def p1 : State := { small 64 with str := ld [] 0 bytes8x2, strLen := 13 }

/-- Program P2 before ENCODE. -/
def p2 : State :=
  { small 64 with
    width := 12, height := 3, ctrl := 1
    pix := ld [] 0 [1, 2, 3, 4, 5, 6, 7, 8, 9, 10, 11, 12, 0, 0, 0, 15, 15, 15, 15, 15, 15, 0, 0, 0,
      0, 0, 0, 0, 0, 0, 0, 0, 0, 0, 0, 0] }

/-- Program P6 before ENCODE, with `cap` bytes of STR. -/
def p6 (cap : Nat) : State :=
  { State.reset with
    caps := ⟨cap, 64, 64⟩, width := 8, height := 2, pix := ld [] 0 [4, 5, 6, 7, 7, 7, 7, 7, 1, 1, 1, 1, 1, 1, 2, 3] }

/-- The packed image of P1 in PKD. -/
def packed8x2 : State :=
  { small 64 with width := 8, height := 2, pkd := ld [] 0 [0x45, 0x67, 0x77, 0x77, 0x11, 0x11, 0x11, 0x23] }

/-- Dimensions and capacities alone. -/
def dims (w h pkdCap pixCap : Nat) : State :=
  { State.reset with caps := ⟨64, pkdCap, pixCap⟩, width := BitVec.ofNat 17 w, height := BitVec.ofNat 17 h }

/-- A state with a fault recorded. -/
def stopped : State := p1.withFault 0x302#12

/-! ### Well-formedness: each check refuses an ill-formed term -/

theorem test_wellFormed : WellFormed (.lit 1) ∧ WellFormed (.lit 128) ∧ WellFormed (.rep 3) ∧ WellFormed (.rep 130) := by decide
theorem test_lit_too_short : WellFormed (.lit 0) = false := by decide
theorem test_lit_too_long : WellFormed (.lit 129) = false := by decide
theorem test_rep_too_short : WellFormed (.rep 2) = false := by decide
theorem test_rep_too_long : WellFormed (.rep 131) = false := by decide

/-! ### Decoding: each constructor's word written out from 30_encoding.md R63, R66 -/

theorem test_decode_lit : decode .token [0b00000011#8, 0x45#8] = .ok (.lit 4, [0x45#8]) := by decide
theorem test_decode_lit_max : decode .token [0b01111111#8] = .ok (.lit 128, []) := by decide
theorem test_decode_rep : decode .token [0b10000000#8, 0x11#8] = .ok (.rep 3, [0x11#8]) := by decide
theorem test_decode_rep_max : decode .token [0b11111111#8] = .ok (.rep 130, []) := by decide
theorem test_decode_nop : decode .command [0b0000#8] = .ok (.nop, []) := by decide
theorem test_decode_hdrRd : decode .command [0b0001#8] = .ok (.hdrRd, []) := by decide
theorem test_decode_hdrWr : decode .command [0b0010#8] = .ok (.hdrWr, []) := by decide
theorem test_decode_rleDec : decode .command [0b0011#8] = .ok (.rleDec, []) := by decide
theorem test_decode_rleEnc : decode .command [0b0100#8] = .ok (.rleEnc, []) := by decide
theorem test_decode_pack : decode .command [0b0101#8] = .ok (.pack, []) := by decide
theorem test_decode_unpack : decode .command [0b0110#8] = .ok (.unpack, []) := by decide
theorem test_decode_runFind : decode .command [0b0111#8] = .ok (.runFind, []) := by decide
theorem test_decode_decodeImage : decode .command [0b1000#8] = .ok (.decodeImage, []) := by decide
theorem test_decode_encodeImage : decode .command [0b1001#8] = .ok (.encodeImage, []) := by decide
theorem test_decode_reservedA : decode .command [0b1010#8] = .ok (.reservedA, []) := by decide
theorem test_decode_reservedB : decode .command [0b1011#8] = .ok (.reservedB, []) := by decide
theorem test_decode_reservedC : decode .command [0b1100#8] = .ok (.reservedC, []) := by decide
theorem test_decode_reservedD : decode .command [0b1101#8] = .ok (.reservedD, []) := by decide
theorem test_decode_reservedE : decode .command [0b1110#8] = .ok (.reservedE, []) := by decide
theorem test_decode_reset : decode .command [0b1111#8] = .ok (.reset, []) := by decide
theorem test_decode_upper_bits_ignored : decode .command [0b10110101#8] = .ok (.pack, []) := by decide
theorem test_decode_nothing : decode .token [] = .error .noControlByte ∧ decode .command [] = .error .noOpcode := by decide
theorem test_decode_truncated : decodeToken? [0x83#8] = .error .payloadTruncated ∧
    decodeToken? [0x03#8, 0x01#8, 0x02#8] = .error .payloadTruncated := by decide
theorem test_table_words : decodeTableWord 8 0x00 = some (.lit 1) ∧ decodeTableWord 8 0x80 = some (.rep 3) ∧
    decodeTableWord 8 0x09 = some .encodeImage ∧ decodeTableWord 4 0x0 = some .nop := by decide

/-! ### One instruction each, from 95_test_vectors.md -/

/-- 2.5: NOP leaves STATUS. -/
theorem test_nop : regs (after (exec .nop (finish p1))) = [0, 1, 0, 0, 0, 0, 13, 0, 0, 0, 0, 0] := by decide
/-- 2.5, S5. -/
theorem test_hdrRd : regs (after (exec .hdrRd { small 64 with str := ld [] 0 [0x3F, 0x01, 0xC7, 0x00], strLen := 4 })) =
    [0, 1, 0, 0, 320, 200, 4, 4, 0, 0, 0, 0] := by decide
/-- 2.5: a truncated header. -/
theorem test_hdrRd_eof : regs (after (exec .hdrRd { small 64 with strLen := 3 })) =
    [0, 2, 0x111, 0, 0, 0, 3, 0, 0, 0, 0, 0] := by decide
/-- 2.5: WIDTH = 256, HEIGHT = 257. -/
theorem test_hdrWr : Memory.slice (after (exec .hdrWr { small 64 with width := 256, height := 257 })).str 0 4 =
    [0xFF, 0x00, 0x00, 0x01] := by decide
/-- 2.5: WIDTH = 0. -/
theorem test_hdrWr_dims : (after (exec .hdrWr { small 64 with height := 5 })).fault = 0x203#12 := by decide
/-- 2.1: overrun in mid-row, the earlier token's bytes stay. -/
theorem test_rleDec_overrun : regs (after (exec .rleDec (dec 8 1 [1, 1, 2, 0x80, 9]))) = [0, 2, 0x302, 0, 8, 1, 5, 3, 0, 2, 0, 0] ∧
    Memory.slice (after (exec .rleDec (dec 8 1 [1, 1, 2, 0x80, 9]))).pkd 0 4 = [1, 2, 0, 0] := by decide
/-- 2.1: surplus data after the last row. -/
theorem test_rleDec_surplus : regs (after (exec .rleDec (dec 8 2 [0x81, 9, 0x81, 8, 0, 1]))) =
    [0, 2, 0x312, 0, 8, 2, 6, 4, 2, 0, 0, 0] ∧
    Memory.slice (after (exec .rleDec (dec 8 2 [0x81, 9, 0x81, 8, 0, 1]))).pkd 0 8 = [9, 9, 9, 9, 8, 8, 8, 8] := by decide
/-- 2.1: a literal both too long and truncated, the overrun wins. -/
theorem test_lit : (after (exec (.lit 5) (dec 8 1 [4]))).fault = 0x302#12 ∧
    (after (exec (.lit 3) (dec 8 1 [2, 5]))).fault = 0x301#12 := by decide
/-- 2.1: a repeat both truncated and too long, the end of the stream wins. -/
theorem test_rep : (after (exec (.rep 130) (dec 8 1 [0xFF]))).fault = 0x301#12 ∧
    (after (exec (.rep 5) (dec 8 1 [0x82, 9]))).fault = 0x302#12 := by decide
/-- 2.2: literal spans of successive iterations are not merged. -/
theorem test_rleEnc : regs (after (exec .rleEnc (enc [1, 2, 2, 2, 3, 4, 4, 4, 4, 5]))) = [0, 1, 0, 0, 20, 1, 10, 10, 1, 0, 0, 1] ∧
    Memory.slice (after (exec .rleEnc (enc [1, 2, 2, 2, 3, 4, 4, 4, 4, 5]))).str 0 10 =
      [0, 1, 0x80, 2, 0, 3, 0x81, 4, 0, 5] := by decide
/-- 2.2: two runs back to back. -/
theorem test_rleEnc_runs : regs (after (exec .rleEnc (enc [9, 9, 9, 9, 1, 1, 1]))) = [0, 1, 0, 0, 14, 1, 4, 4, 1, 0, 3, 0] ∧
    Memory.slice (after (exec .rleEnc (enc [9, 9, 9, 9, 1, 1, 1]))).str 0 4 = [0x81, 9, 0x80, 1] := by decide
/-- 2.2: runs of 131 and 263 bytes. -/
theorem test_repSpan : repSpanBytes 131 131 0xAA#8 = [0xFF, 0xAA, 0x00, 0xAA] ∧
    repSpanBytes 263 263 0xAA#8 = [0xFF, 0xAA, 0xFF, 0xAA, 0x80, 0xAA] := by decide
/-- 2.4, top-down; pixel bytes above 15 use their low nibbles. -/
theorem test_pack : Memory.slice (after (exec .pack { p6 64 with ctrl := 1 })).pkd 0 8 =
    [0x11, 0x11, 0x11, 0x23, 0x45, 0x67, 0x77, 0x77] ∧
    (after (exec .pack { small 64 with width := 2, height := 1, pix := ld [] 0 [0x1F, 0xF3] })).pkd = [(0, 0xF3)] := by decide
/-- 2.4: an odd width. -/
theorem test_pack_odd : (after (exec .pack (dims 7 1 64 64))).fault = 0x504#12 ∧
    (after (exec .unpack (dims 7 1 64 64))).fault = 0x604#12 := by decide
/-- 2.4, top-down. -/
theorem test_unpack : Memory.slice (after (exec .unpack { packed8x2 with ctrl := 1 })).pix 0 16 =
    [1, 1, 1, 1, 1, 1, 2, 3, 4, 5, 6, 7, 7, 7, 7, 7] := by decide
/-- P5: the encoder's second call on that row. -/
theorem test_runFind : regs (after (exec .runFind { enc [5, 5, 5, 7, 7, 9, 9, 9, 9] with col := 3 })) =
    [0, 1, 0, 0, 18, 1, 0, 0, 0, 3, 4, 2] := by decide
/-- P5, 2.6: COL one past PW; the first run, not the longest (R120). -/
theorem test_runFind_bounds : (after (exec .runFind { enc [5, 5, 5, 7, 7, 9, 9, 9, 9] with col := 10 })).fault = 0x716#12 ∧
    runFind [1, 1, 1, 2, 2, 2, 2, 2, 2, 2] = (3, 0) := by decide
/-- Program P1. -/
theorem test_decodeImage : regs (after (exec .decodeImage p1)) = [0, 1, 0, 0, 8, 2, 13, 13, 2, 0, 0, 0] ∧
    Memory.slice (after (exec .decodeImage p1)).pix 0 16 = [4, 5, 6, 7, 7, 7, 7, 7, 1, 1, 1, 1, 1, 1, 2, 3] := by decide
/-- Program P4. -/
theorem test_decodeImage_corrupt :
    regs (after (exec .decodeImage { small 64 with
      str := ld [] 0 [7, 0, 1, 0, 3, 0x45, 0x67, 0x77, 0x77, 4, 1, 2, 3, 4, 5], strLen := 15 })) =
    [0, 2, 0x302, 0, 8, 2, 15, 9, 1, 0, 0, 0] := by decide
/-- Program P2. -/
theorem test_encodeImage : regs (after (exec .encodeImage p2)) = [0, 1, 0, 1, 12, 3, 20, 20, 3, 0, 0, 6] ∧
    Memory.slice (after (exec .encodeImage p2)).str 0 20 =
      [0x0B, 0, 2, 0, 0x83, 0, 5, 0, 0x0F, 0xFF, 0xFF, 0xF0, 0, 5, 0x12, 0x34, 0x56, 0x78, 0x9A, 0xBC] := by decide
/-- Program P6, both capacities. -/
theorem test_encodeImage_overflow : regs (after (exec .encodeImage (p6 12))) = [0, 2, 0x405, 0, 8, 2, 4, 11, 1, 3, 0, 1] ∧
    regs (after (exec .encodeImage (p6 8))) = [0, 2, 0x405, 0, 8, 2, 4, 4, 0, 0, 0, 4] := by decide
/-- 2.6, and the other reserved opcodes. -/
theorem test_reserved : (after (exec .reservedA (small 64))).fault = 0xA06#12 ∧ (after (exec .reservedB (small 64))).fault = 0xB06#12 ∧
    (after (exec .reservedC (small 64))).fault = 0xC06#12 ∧ (after (exec .reservedD (small 64))).fault = 0xD06#12 ∧
    (after (exec .reservedE (small 64))).fault = 0xE06#12 := by decide
/-- 2.5, 2.6. -/
theorem test_reset : regs (after (exec .reset stopped)) = [0, 0, 0, 0, 0, 0, 0, 0, 0, 0, 0, 0] ∧
    (after (exec .reset stopped)).str = stopped.str := by decide
/-- 2.6: the capacity is checked before the odd width. -/
theorem test_start_checks : (after (exec .pack (dims 8 3 8 64))).fault = 0x513#12 ∧ (after (exec .pack (dims 8 3 64 16))).fault = 0x523#12 ∧
    (after (exec .pack (dims 7 3 64 16))).fault = 0x523#12 := by decide
/-- A step takes the pending CMD write; the value's upper bits are ignored. -/
theorem test_step_command : after (step { p1 with host := [.regWrite 0 0x31] }) = after (exec .hdrRd p1) := by decide
/-- The word of a table row, placed, is what the next step runs. -/
theorem test_fetch : regs (after (step (State.reset.withFetchWord 8 0x09))) = [0, 2, 0x503, 0, 0, 0, 0, 0, 0, 0, 0, 0] ∧
    regs (after (step (State.reset.withFetchWord 8 0x80))) = [0, 1, 0, 0, 6, 1, 2, 2, 1, 0, 0, 0] := by decide

/-! ### Operands that meet the hypotheses of the statements, a conjunct per clause -/

/-- P1 after its header: at a token boundary, nothing decoded yet. -/
def ready : State := { p1 with width := 8, height := 2, strPos := 4 }

/-- P4 after its header: one whole row, then a literal too long for its row. -/
def bad : State := { dec 8 2 [3, 0x45, 0x67, 0x77, 0x77, 4, 1, 2, 3, 4, 5] with row := 0 }

/-- Program P2's state with every pixel in 0 to 15, and PACK's checks met. -/
abbrev ready2 : State := p2

theorem test_met_DecodeEncodeRoundTrip : WellFormed (.lit 1) = true ∧ WellFormed (.lit 128) = true ∧ WellFormed (.rep 3) = true ∧
    WellFormed (.rep 130) = true ∧ WellFormed .reset = true := by decide

theorem test_met_TokenLengths : (0x80#8 &&& 0x80#8 ≠ 0#8) ∧ (0xFF#8 &&& 0x80#8 ≠ 0#8) ∧ (0x00#8 &&& 0x80#8 = 0#8) ∧
    (0x7F#8 &&& 0x80#8 = 0#8) ∧ (1 ≤ 1 ∧ 1 ≤ 128) ∧ (1 ≤ 128 ∧ 128 ≤ 128) ∧ (3 ≤ 3 ∧ 3 ≤ 130) ∧ (3 ≤ 130 ∧ 130 ≤ 130) := by decide

theorem test_met_WholeTokensDecode : (1 ≤ [0x45#8].length ∧ [0x45#8].length ≤ 128) ∧
    (1 ≤ (List.replicate 128 0x45#8).length ∧ (List.replicate 128 0x45#8).length ≤ 128) ∧ (3 ≤ 130 ∧ 130 ≤ 130) ∧
    (1 ≤ 1 ∧ 1 ≤ 128 ∧ ([] : List Byte).length < 1) ∧ (1 ≤ 2 ∧ 2 ≤ 128 ∧ [0x45#8].length < 2) ∧ (3 ≤ 3 ∧ 3 ≤ 130) ∧
    (0x80#8 &&& 0x80#8 ≠ 0#8) ∧ (0x7F#8 &&& 0x80#8 = 0#8) := by simp

theorem test_met_StepRunsCommand : (encSpace .reset = .command ∧ WellFormed .reset = true ∧ 0x1F % 16 = (encodeByte .reset).toNat) ∧
    (encSpace .nop = .command ∧ WellFormed .nop = true ∧ 0x10 % 16 = (encodeByte .nop).toNat) := by decide

theorem test_met_DecoderRunsDecodedToken : ¬ ready.faulted ∧ ready.pos < ready.slen ∧ ready.slen ≤ ready.caps.str ∧ ready.r < ready.h ∧
    ready.pw * ready.h ≤ ready.caps.pkd := by decide

theorem test_met_IdleCore : p1.host = [] := by decide

theorem test_met_HostRegisterWrite : (0xB = 0x1 ∨ 0xB = 0x2 ∨ 0xB = 0xA ∨ 0xB = 0xB) := by decide

theorem test_met_HostRegisterRead : (0x1, p1.status.toNat) ∈ [(0x1, p1.status.toNat), (0xB, p1.rfPos.toNat)] ∧ 0xC ≤ 0xC := by decide

theorem test_met_HostMemoryAccess : (0 < p1.caps.of .str ∧ 63 < p1.caps.of .pkd ∧ 63 < p1.caps.of .pix ∧ 1 ≠ 0 ∧ Space.pkd ≠ .str) ∧
    p1.caps.of .str ≤ 64 ∧ p1.caps.of .pix ≤ 64 := by decide

theorem test_met_ResetCommand : encSpace .unpack = .command ∧ Instr.unpack ≠ .reset ∧ stopped.faulted := by decide

theorem test_met_RaiseRecordsFault : (0 < 16 ∧ 15 < 16) := by decide

theorem test_met_FaultIsSticky : stopped.faulted ∧ 0x1E % 16 ≠ 0xF ∧ 0x7 ≠ 0x0 ∧ 63 < stopped.caps.of .str ∧
    (after (step { stopped with host := [.regWrite 0 0x3] })).faulted ∧
    ¬ (after (step { stopped with host := [.hardReset] })).faulted ∧
    ¬ (after (step { stopped with host := [.regWrite 0 0x1F] })).faulted := by decide

theorem test_met_ReservedOpcodes : ¬ p1.faulted ∧ encSpace .reservedC = .command ∧ Instr.reservedC ≠ .reset ∧ stopped.faulted := by decide

theorem test_met_DimensionTraps : (¬ (dims 0 5 64 64).faulted ∧ ¬ (dims 0 5 64 64).dimsLegal) ∧ ¬ (dims 65537 5 64 64).dimsLegal ∧
    (¬ (dims 8 3 11 64).faulted ∧ (dims 8 3 11 64).dimsLegal ∧ (dims 8 3 11 64).caps.pkd < (dims 8 3 11 64).pw * (dims 8 3 11 64).h) ∧
    ((dims 8 3 12 23).dimsLegal ∧ (dims 8 3 12 23).pw * (dims 8 3 12 23).h ≤ (dims 8 3 12 23).caps.pkd ∧
      (dims 8 3 12 23).caps.pix < (dims 8 3 12 23).w * (dims 8 3 12 23).h) ∧
    ((after (exec .hdrWr (dims 0 5 64 64))).faulted ∧ (after (exec .hdrWr (dims 0 5 64 64))).faultCode = 3) ∧
    ((after (exec .rleDec (dims 8 3 11 64))).faulted ∧ (after (exec .rleDec (dims 8 3 11 64))).faultCode = 3) ∧
    ((after (exec .pack (dims 8 3 12 23))).faulted ∧ (after (exec .pack (dims 8 3 12 23))).faultCode = 3) := by decide

theorem test_met_OddWidthTraps : ¬ (dims 7 1 4 7).faulted ∧ (dims 7 1 4 7).dimsLegal ∧
    (dims 7 1 4 7).pw * (dims 7 1 4 7).h ≤ (dims 7 1 4 7).caps.pkd ∧ (dims 7 1 4 7).w * (dims 7 1 4 7).h ≤ (dims 7 1 4 7).caps.pix ∧
    (dims 7 1 4 7).w % 2 = 1 := by decide

theorem test_met_ArgumentTraps : (¬ p1.faulted ∧ 0xA ≤ 0x1A % 16 ∧ 0x1E % 16 ≤ 0xE) ∧
    (let s : State := { dims 8 1 64 64 with strLen := 65 }
     ¬ s.faulted ∧ s.caps.str < s.slen ∧ s.dimsLegal ∧ s.pw * s.h ≤ s.caps.pkd) ∧
    (let s : State := { dims 8 1 64 64 with strLen := 2, strPos := 3 }; s.slen < s.pos) ∧
    (let s : State := { dims 8 1 64 64 with strPos := 65 }; s.caps.str < s.pos) ∧
    (let s : State := { dims 8 1 64 64 with row := 1 }; s.h ≤ s.r) ∧
    (let s : State := { dims 8 1 64 64 with col := 5 }; s.pw < s.c) := by decide

theorem test_met_CommandsAlwaysAnswer : encSpace .encodeImage = .command := by decide

theorem test_met_ExecKeepsInvariant : p1.inv ∧ exec .decodeImage p1 = .next (after (exec .decodeImage p1)) :=
  ⟨by decide, rfl⟩

theorem test_met_StepKeepsInvariant : State.inv { p1 with host := [.memWrite .pix 63 7] } ∧
    step { p1 with host := [.memWrite .pix 63 7] } = .next (after (step { p1 with host := [.memWrite .pix 63 7] })) :=
  ⟨by decide, rfl⟩

theorem test_met_MemoryFootprint : ready.caps.legal ∧ (p6 64).caps.legal ∧ encSpace .rleDec = .command ∧
    exec .hdrWr (p6 64) = .next (after (exec .hdrWr (p6 64))) ∧ exec .rleEnc packed8x2 = .next (after (exec .rleEnc packed8x2)) ∧
    exec .encodeImage (p6 64) = .next (after (exec .encodeImage (p6 64))) ∧
    exec .rleDec ready = .next (after (exec .rleDec ready)) ∧ exec .unpack packed8x2 = .next (after (exec .unpack packed8x2)) :=
  ⟨by decide, by decide, rfl, rfl, rfl, rfl, rfl, rfl⟩

theorem test_met_RegisterFootprint : exec .pack (p6 64) = .next (after (exec .pack (p6 64))) ∧
    exec .hdrRd p1 = .next (after (exec .hdrRd p1)) ∧ exec .nop p1 = .next (after (exec .nop p1)) ∧
    exec .reservedD p1 = .next (after (exec .reservedD p1)) := ⟨rfl, rfl, rfl, rfl⟩

theorem test_met_StatusAfterCommand : encSpace .decodeImage = .command ∧ ¬ p1.faulted ∧
    exec .decodeImage p1 = .next (after (exec .decodeImage p1)) ∧ exec .nop p1 = .next (after (exec .nop p1)) ∧
    exec .reset p1 = .next (after (exec .reset p1)) := ⟨rfl, by decide, rfl, rfl, rfl⟩

theorem test_met_HdrRdReadsHeader : (¬ State.faulted { small 64 with strLen := 65 } ∧ 64 < State.slen { small 64 with strLen := 65 }) ∧
    (State.slen { small 64 with strLen := 3 } ≤ 64 ∧ State.slen { small 64 with strLen := 3 } < 4) ∧
    (¬ p1.faulted ∧ p1.slen ≤ p1.caps.str ∧ 4 ≤ p1.slen) := by decide

theorem test_met_HdrWrWritesHeader : (¬ (dims 0 5 64 64).faulted ∧ ¬ (dims 0 5 64 64).dimsLegal) ∧
    (let s : State := { dims 8 1 64 64 with caps := ⟨3, 64, 64⟩ }; ¬ s.faulted ∧ s.dimsLegal ∧ s.caps.str < 4) ∧
    ((dims 65536 1 64 64).dimsLegal ∧ 4 ≤ (dims 65536 1 64 64).caps.str) := by decide

theorem test_met_HeaderRoundTrip : (¬ (dims 65536 1 64 64).faulted ∧ (dims 65536 1 64 64).dimsLegal ∧ 4 ≤ (dims 65536 1 64 64).caps.str) ∧
    (¬ p1.faulted ∧ 4 ≤ p1.slen ∧ p1.slen ≤ p1.caps.str) := by decide

theorem test_met_RunFindCommand : ¬ (dims 0 5 64 64).faulted ∧ ¬ (dims 0 5 64 64).dimsLegal ∧
    ((dims 8 3 11 64).dimsLegal ∧ (dims 8 3 11 64).caps.pkd < (dims 8 3 11 64).pw * (dims 8 3 11 64).h) ∧
    (let s : State := { packed8x2 with col := 5 }; s.dimsLegal ∧ s.pw * s.h ≤ s.caps.pkd ∧ s.pw < s.c) ∧
    (let s : State := { packed8x2 with row := 1, col := 4 }; s.dimsLegal ∧ s.pw * s.h ≤ s.caps.pkd ∧ s.r < s.h ∧ s.c ≤ s.pw) := by
  decide

theorem test_met_RunFindPairShape :
    (¬ packed8x2.faulted ∧ ¬ (after (exec .runFind packed8x2)).faulted ∧ (after (exec .runFind packed8x2)).rfLen = 0) ∧
    (3 ≤ (after (exec .runFind { packed8x2 with row := 1 })).rfLen.toNat ∧ ¬ (after (exec .runFind { packed8x2 with row := 1 })).faulted) ∧
    (let s : State := { packed8x2 with col := 4 }; s.c = s.pw ∧ ¬ (after (exec .runFind s)).faulted) := by decide

theorem test_met_RowOrderAddressing : packed8x2.ctrl = 0 ∧ p2.ctrl = 1 ∧ (1 < packed8x2.h ∧ 7 < packed8x2.w) ∧
    packed8x2.pixAddr 1 7 = packed8x2.pixAddr 1 7 := by decide

theorem test_met_PackPacks : ready2.packReady ∧ (2 < ready2.h ∧ 5 < ready2.pw) := by decide

theorem test_met_UnpackUnpacks : packed8x2.packReady ∧ (1 < packed8x2.h ∧ 3 < packed8x2.pw) := by decide

theorem test_met_PackThenUnpack : ready2.packReady ∧ ∀ a, a < ready2.w * ready2.h → (Memory.read ready2.pix a).toNat ≤ 15 := by decide

theorem test_met_UnpackThenPack : packed8x2.packReady := by decide

theorem test_met_LitExecutes : (0x7F#8 &&& 0x80#8 = 0x00#8) ∧
    (¬ ready.faulted ∧ ready.dimsLegal ∧ ready.pw - ready.c < 5) ∧
    (let s := dec 8 1 [3, 1, 2]; 4 ≤ s.pw - s.c ∧ s.slen < s.pos + 1 + 4 ∧ s.dimsLegal) ∧
    (4 ≤ ready.pw - ready.c ∧ ready.pos + 1 + 4 ≤ ready.slen ∧ ready.slen ≤ ready.caps.str ∧ ready.r < ready.h ∧
      ready.pw * ready.h ≤ ready.caps.pkd ∧ ready.c + 4 = ready.pw) ∧ ready.c + 3 ≠ ready.pw := by decide

theorem test_met_RepExecutes : (0xFF#8 &&& 0x80#8 = 0x80#8) ∧
    (let s := dec 8 1 [0xFF]; ¬ s.faulted ∧ s.dimsLegal ∧ s.slen < s.pos + 2) ∧
    (let s := dec 8 1 [0x82, 9]; s.pos + 2 ≤ s.slen ∧ s.slen ≤ s.caps.str ∧ s.pw - s.c < 5) ∧
    (let s := dec 8 1 [0x81, 9]; ¬ s.faulted ∧ s.dimsLegal ∧ s.pos + 2 ≤ s.slen ∧ s.slen ≤ s.caps.str ∧ 4 ≤ s.pw - s.c ∧
      s.r < s.h ∧ s.pw * s.h ≤ s.caps.pkd ∧ s.c + 4 = s.pw) := by decide

theorem test_met_TokenAloneStops :
    (let s : State := { dims 8 1 64 64 with strLen := 70, strPos := 62 }
     ¬ s.faulted ∧ 2 ≤ s.pw - s.c ∧ s.pos + 1 + 2 ≤ s.slen ∧ s.caps.str < s.pos + 1 + 2) ∧
    (let s : State := { dims 8 1 64 64 with strLen := 10, row := 16 }
     2 ≤ s.pw - s.c ∧ s.pos + 1 + 2 ≤ s.slen ∧ s.pos + 1 + 2 ≤ s.caps.str ∧ s.caps.pkd < s.r * s.pw + s.c + 2) ∧
    (let s : State := { dims 8 1 64 64 with strLen := 70, strPos := 63 }; s.pos + 2 ≤ s.slen ∧ s.caps.str < s.pos + 2) ∧
    (let s : State := { dims 8 1 64 64 with strLen := 10, row := 16 }
     s.pos + 2 ≤ s.slen ∧ s.pos + 2 ≤ s.caps.str ∧ 3 ≤ s.pw - s.c ∧ s.caps.pkd < s.r * s.pw + s.c + 3) ∧ stopped.faulted := by decide

/-- The rows of program P1's stream. -/
theorem test_tokens_p1 : ImageTokens 4 2 [3, 0x45, 0x67, 0x77, 0x77, 0x80, 0x11, 0, 0x23]
    [0x45, 0x67, 0x77, 0x77, 0x11, 0x11, 0x11, 0x23] :=
  ImageTokens.row (e := [3, 0x45, 0x67, 0x77, 0x77]) (d := [0x45, 0x67, 0x77, 0x77])
    (RowTokens.lit [0x45, 0x67, 0x77, 0x77] (by decide) (by decide) .nil) rfl
    (ImageTokens.row (e := [0x80, 0x11, 0, 0x23]) (d := [0x11, 0x11, 0x11, 0x23])
      (RowTokens.rep 3 0x11 (by decide) (by decide) (RowTokens.lit [0x23] (by decide) (by decide) .nil)) rfl .nil)

/-- The first row of program P4's stream. -/
theorem test_tokens_p4 : ImageTokens 4 1 [3, 0x45, 0x67, 0x77, 0x77] [0x45, 0x67, 0x77, 0x77] :=
  ImageTokens.row (e := [3, 0x45, 0x67, 0x77, 0x77]) (d := [0x45, 0x67, 0x77, 0x77])
    (RowTokens.lit [0x45, 0x67, 0x77, 0x77] (by decide) (by decide) .nil) rfl .nil

theorem test_met_RleDecDecodesImage : ready.decReady ∧
    ImageTokens ready.pw ready.h ready.stream [0x45, 0x67, 0x77, 0x77, 0x11, 0x11, 0x11, 0x23] := by
  refine ⟨by decide, ?_⟩
  have h : ready.pw = 4 ∧ ready.h = 2 ∧ ready.stream = [3, 0x45, 0x67, 0x77, 0x77, 0x80, 0x11, 0, 0x23] := by decide
  rw [h.1, h.2.1, h.2.2]
  exact test_tokens_p1

theorem test_met_RleDecAcceptsOnlyGrammar : ¬ ready.faulted ∧ exec .rleDec ready = .next (after (exec .rleDec ready)) ∧
    ¬ (after (exec .rleDec ready)).faulted := ⟨by decide, rfl, by decide⟩

theorem test_met_RleDecBadToken :
    (bad.decReady ∧ 1 < bad.h ∧ ImageTokens bad.pw 1 [3, 0x45, 0x67, 0x77, 0x77] [0x45, 0x67, 0x77, 0x77] ∧ RowTokens [] [] ∧
      ([] : List Byte).length < bad.pw ∧ bad.stream = [3, 0x45, 0x67, 0x77, 0x77] ++ [] ++ 4 :: [1, 2, 3, 4, 5] ∧
      tokenFault 4 (bad.pw - ([] : List Byte).length) [1, 2, 3, 4, 5#8].length = some .corruptStream) ∧
    (let s := dec 8 1 [0, 1, 0x83]
     s.decReady ∧ 0 < s.h ∧ ImageTokens s.pw 0 [] [] ∧ RowTokens [0, 1] [1] ∧ [1#8].length < s.pw ∧
      s.stream = [] ++ [0, 1] ++ 0x83 :: [] ∧ tokenFault 0x83 (s.pw - [1#8].length) ([] : List Byte).length = some .unexpectedEof) := by
  refine ⟨⟨by decide, by decide, ?_, .nil, by decide, by decide, by decide⟩,
    by decide, by decide, .nil, RowTokens.lit [1] (by decide) (by decide) .nil, by decide, by decide, by decide⟩
  have h : bad.pw = 4 := by decide
  rw [h]
  exact test_tokens_p4

theorem test_met_RleDecSizeMismatch :
    (let s := dec 8 1 []
     s.decReady ∧ 0 < s.h ∧ ImageTokens s.pw 0 [] [] ∧ RowTokens [] [] ∧ ([] : List Byte).length < s.pw ∧ s.stream = [] ++ []) ∧
    (let s := dec 8 1 [3, 0x45, 0x67, 0x77, 0x77, 0]
     s.decReady ∧ ImageTokens s.pw s.h [3, 0x45, 0x67, 0x77, 0x77] [0x45, 0x67, 0x77, 0x77] ∧ [0#8] ≠ [] ∧
      s.stream = [3, 0x45, 0x67, 0x77, 0x77] ++ [0]) := by
  refine ⟨⟨by decide, by decide, .nil, .nil, by decide, by decide⟩, by decide, ?_, by decide, by decide⟩
  have h : (dec 8 1 [3, 0x45, 0x67, 0x77, 0x77, 0]).pw = 4 ∧ (dec 8 1 [3, 0x45, 0x67, 0x77, 0x77, 0]).h = 1 := by decide
  rw [h.1, h.2]
  exact test_tokens_p4

theorem test_met_RleDecTerminates : ready.dimsLegal ∧ ready.pos ≤ ready.slen ∧ ready.r ≤ ready.h ∧
    (ready.slen - ready.pos) / 2 < 5 := by decide

theorem test_met_RowIndependence :
    let a := dec 8 1 [0x81, 9]
    let b := dec 8 1 [0x81, 8]
    let s := dec 8 2 [0x81, 9, 0x81, 8]
    ¬ a.faulted ∧ ¬ b.faulted ∧ exec .rleDec a = .next (after (exec .rleDec a)) ∧ ¬ (after (exec .rleDec a)).faulted ∧
      exec .rleDec b = .next (after (exec .rleDec b)) ∧ ¬ (after (exec .rleDec b)).faulted ∧ s.decReady ∧ s.pw = a.pw ∧ s.pw = b.pw ∧
      s.h = a.h + b.h ∧ s.stream = a.stream ++ b.stream :=
  ⟨by decide, by decide, rfl, by decide, rfl, by decide, by decide, by decide, by decide, by decide, by decide⟩

theorem test_met_StaleCursors : ready.caps.legal ∧ ¬ ready.faulted ∧ exec .rleDec ready = .next (after (exec .rleDec ready)) ∧
    ¬ (after (exec .rleDec ready)).faulted ∧ ¬ (after (exec .rleEnc packed8x2)).faulted ∧ ¬ (after (exec .pack (p6 64))).faulted ∧
    ¬ (after (exec .unpack packed8x2)).faulted := ⟨by decide, by decide, rfl, by decide, by decide, by decide, by decide⟩

theorem test_met_RleEncEmitsGreedyStream : packed8x2.encReady ∧ packed8x2.caps.legal ∧
    packed8x2.pos + packed8x2.encodedImage.length ≤ packed8x2.caps.str := by decide

theorem test_met_RleEncOverflow :
    let s : State := { packed8x2 with caps := ⟨8, 64, 64⟩ }
    s.encReady ∧ s.caps.legal ∧ s.caps.str < s.pos + s.encodedImage.length := by decide

theorem test_met_RleEncSizeBound :
    let s : State := { packed8x2 with strPos := 4, caps := ⟨20, 64, 64⟩ }
    ¬ s.faulted ∧ s.dimsLegal ∧ s.pw * s.h ≤ s.caps.pkd ∧ s.caps.legal ∧ s.pos = 4 ∧ 4 + 2 * (s.pw * s.h) ≤ s.caps.str := by decide

/-- P3's shape: PKD wiped and STR_POS put back before RLE_DEC. -/
theorem test_met_RleRoundTrip :
    let t := after (exec .rleEnc packed8x2)
    let u : State := { t with strPos := packed8x2.strPos, pkd := [] }
    ¬ packed8x2.faulted ∧ packed8x2.caps.legal ∧ exec .rleEnc packed8x2 = .next t ∧ ¬ t.faulted ∧ ¬ u.faulted ∧ u.str = t.str ∧
      u.strLen = t.strLen ∧ u.strPos = packed8x2.strPos ∧ u.width = t.width ∧ u.height = t.height ∧ u.caps = t.caps :=
  ⟨by decide, by decide, rfl, by decide, by decide, rfl, rfl, rfl, rfl, rfl, rfl⟩

theorem test_met_DecodeDecodesStream : ¬ p1.faulted ∧ 4 ≤ p1.slen ∧ p1.slen ≤ p1.caps.str ∧ p1.headerWidth % 2 = 0 ∧
    (p1.headerWidth + 1) / 2 * p1.headerHeight ≤ p1.caps.pkd ∧ p1.headerWidth * p1.headerHeight ≤ p1.caps.pix ∧
    ImageTokens ((p1.headerWidth + 1) / 2) p1.headerHeight (Memory.slice p1.str 4 (p1.slen - 4))
      [0x45, 0x67, 0x77, 0x77, 0x11, 0x11, 0x11, 0x23] := by
  refine ⟨by decide, by decide, by decide, by decide, by decide, by decide, ?_⟩
  have h : (p1.headerWidth + 1) / 2 = 4 ∧ p1.headerHeight = 2 ∧
      Memory.slice p1.str 4 (p1.slen - 4) = [3, 0x45, 0x67, 0x77, 0x77, 0x80, 0x11, 0, 0x23] := by decide
  rw [h.1, h.2.1, h.2.2]
  exact test_tokens_p1

theorem test_met_EncodeEncodesImage : p2.packReady ∧ p2.caps.legal ∧ 4 + p2.encodedPixels.length ≤ p2.caps.str := by decide

theorem test_met_EncodeThenDecode : ¬ p2.faulted ∧ p2.caps.legal ∧
    (∀ a, a < p2.w * p2.h → (Memory.read p2.pix a).toNat ≤ 15) ∧ exec .encodeImage p2 = .next (after (exec .encodeImage p2)) ∧
    ¬ (after (exec .encodeImage p2)).faulted := ⟨by decide, by decide, by decide, rfl, by decide⟩

/-- A composite that faults at its first, its second and its third constituent. -/
theorem test_met_CompositesStopAtFirstFault :
    (¬ (small 64).faulted ∧ (hdrRdCmd (small 64)).faulted) ∧
    (let s : State := { p1 with strLen := 12 }; ¬ (hdrRdCmd s).faulted ∧ (rleDecCmd (hdrRdCmd s)).faulted) ∧
    (let s : State := { p1 with caps := ⟨64, 64, 15⟩ }
     ¬ (rleDecCmd (hdrRdCmd s)).faulted ∧ (unpackCmd (rleDecCmd (hdrRdCmd s))).faulted) ∧
    (packCmd (small 64)).faulted ∧
    (let s : State := { p6 64 with caps := ⟨3, 64, 64⟩ }; ¬ (packCmd s).faulted ∧ (hdrWrCmd (packCmd s)).faulted) ∧
    (¬ (hdrWrCmd (packCmd (p6 8))).faulted ∧ (rleEncCmd (hdrWrCmd (packCmd (p6 8)))).faulted) := by decide

end Sys2Proof.Tests
end

/-! # Proofs: the invariant of the machine

Every part of a command keeps `State.inv`: recording a fault, ending DONE, and each body once its start checks have passed. The
statements about `exec` and `step` are assembled from these by the constructors of `Instr` and `HostAction`. -/

namespace Sys2Proof.Machine

/-! ### The shared ends of a command -/

theorem raise_keeps_inv (f : FaultCode) (sub op : Nat) {s : State} (h : s.inv) : (raise f sub op s).inv := by
  obtain ⟨hcaps, hstr, hpkd, hpix, -⟩ := h
  have hcode : 1 ≤ (raise f sub op s).faultCode ∧ (raise f sub op s).faultCode ≤ 6 := by
    unfold State.faultCode
    rw [raise_fault, faultWord_code]
    cases f <;> decide
  exact ⟨hcaps, hstr, hpkd, hpix, by simp [stFaulted], fun hn => absurd rfl hn, fun _ => hcode⟩

theorem finish_keeps_inv {s : State} (h : s.inv) (hs : ¬ s.faulted) : (finish s).inv := by
  obtain ⟨hcaps, hstr, hpkd, hpix, -, hzero, -⟩ := h
  exact ⟨hcaps, hstr, hpkd, hpix, by simp [stDone], fun _ => hzero hs, fun hf => absurd hf stDone_ne_stFaulted⟩

theorem resetRegisters_keeps_inv {s : State} (h : s.inv) : (resetRegisters s).inv := by
  obtain ⟨hcaps, hstr, hpkd, hpix, -⟩ := h
  exact ⟨hcaps, hstr, hpkd, hpix, by simp [stIdle], fun _ => rfl, fun hf => absurd hf stIdle_ne_stFaulted⟩

/-- A primitive command keeps the invariant if its body does whenever the start checks pass. -/
theorem command_keeps_inv {op : Nat} {checks : State → List Check} {body : State → State} {s : State} (h : s.inv)
    (hbody : ¬ s.faulted → (∀ k ∈ checks s, k.fails = false) → (body s).inv) : (command op checks body s).inv := by
  rcases command_cases op checks body s with ⟨-, e⟩ | ⟨-, k, -, -, e⟩ | ⟨hs, hk, e⟩ <;> rw [e]
  · exact h
  · exact raise_keeps_inv _ _ _ h
  · exact hbody hs hk

/-! ### The decoder -/

/-- What the decoder may write, PKD in form and inside its capacity: the invariant holds again. -/
theorem DecFrame.keeps_inv {s t : State} (hfr : DecFrame s t) (h : s.inv) (hrec : KeptOrRaised 3 s t)
    (hpkd : Memory.ok t.pkd s.caps.pkd) : t.inv := by
  obtain ⟨hcaps, hstr, -, hpix, hfault⟩ := h
  have hfault' := faultOk_of_rec hfault hrec
  unfold DecFrame at hfr
  rw [hfr]
  exact ⟨hcaps, hstr, hpkd, hpix, hfault'⟩

theorem litToken_keeps_inv {n : Nat} {s : State} (h : s.inv)
    (hfit : n ≤ s.pw - s.c → s.pos + 1 + n ≤ s.slen → s.lineAddr s.c + n ≤ s.caps.pkd) : (litToken n s).inv := by
  refine (litToken_frame n s).keeps_inv h (litToken_rec n s) ?_
  obtain ⟨-, -, hpkd, -⟩ := h
  rcases lit_pkd n s with e | ⟨-, hrow, hend, e⟩ <;> rw [e]
  · exact hpkd
  · exact ok_fill hpkd (hfit hrow hend)

theorem repToken_keeps_inv {n : Nat} {s : State} (h : s.inv)
    (hfit : n ≤ s.pw - s.c → s.pos + 2 ≤ s.slen → s.lineAddr s.c + n ≤ s.caps.pkd) : (repToken n s).inv := by
  refine (repToken_frame n s).keeps_inv h (repToken_rec n s) ?_
  obtain ⟨-, -, hpkd, -⟩ := h
  rcases rep_pkd n s with e | ⟨hrow, hend, e⟩ <;> rw [e]
  · exact hpkd
  · exact ok_fill hpkd (hfit hrow hend)

/-- The loop of RLE_DEC writes PKD inside the image, which fits PKD (R48). -/
theorem decodeLoop_keeps_inv {fuel : Nat} {s : State} (h : s.inv) (hd : s.dimsLegal) (hcap : s.pw * s.h ≤ s.caps.pkd)
    (hp : s.pos ≤ s.slen) (hr : s.r ≤ s.h) : (decodeLoop fuel s).inv := by
  refine (decodeLoop_frame fuel s).keeps_inv h (decodeLoop_rec fuel s) ?_
  obtain ⟨-, -, hpkd, -⟩ := h
  exact decodeLoop_pkd (P := fun m => Memory.ok m s.caps.pkd) (s0 := s)
    (fun m a n f hm hle => ok_fill hm (hle.trans hcap)) rfl rfl hd hp hr hpkd

theorem decodeEnd_keeps_inv {s : State} (h : s.inv) : (decodeEnd s).inv := by
  unfold decodeEnd
  split
  · exact h
  next hs =>
    split
    · exact raise_keeps_inv _ _ _ h
    · exact finish_keeps_inv h hs

theorem rleDecCmd_keeps_inv {s : State} (h : s.inv) : (rleDecCmd s).inv := by
  refine command_keeps_inv h fun _ hk => ?_
  simp only [List.mem_cons, List.not_mem_nil, or_false, forall_eq_or_imp, forall_eq] at hk
  obtain ⟨hdims, hpkd, harg⟩ := hk
  have hpos : ¬ (s.slen > s.caps.str ∨ s.pos > s.slen) := of_decide_eq_false harg
  exact decodeEnd_keeps_inv (decodeLoop_keeps_inv (s := homed s) h ((dimsCheck_passes s).1 hdims)
    ((pkdCheck_passes s).1 hpkd) (show s.pos ≤ s.slen by omega) (Nat.zero_le _))

/-! ### The encoder -/

/-- Emitting tokens up to the capacity of STR, faulted or not, keeps the invariant (R105, R109). -/
theorem EncOut.keeps_inv {s t : State} {bs : List Byte} (ho : EncOut s t bs) (h : s.inv) : t.inv := by
  have happended : ∀ cs : List Byte, s.pos + cs.length ≤ s.caps.str → (appended cs s).inv := by
    obtain ⟨hcaps, hstr, hrest⟩ := h
    exact fun cs hle => ⟨hcaps, ok_fill hstr hle, hrest⟩
  rcases ho with ⟨hle, rl, rp, cc, rr, rfl⟩ | ⟨-, pre, rl, rp, cc, rr, -, hle, rfl⟩
  · exact happended bs hle
  · exact raise_keeps_inv (s := Machine.cursors rl rp cc rr (appended pre s)) _ _ _ (happended pre hle)

theorem encodeEnd_keeps_inv {s : State} (h : s.inv) : (encodeEnd s).inv := by
  unfold encodeEnd
  split
  · exact h
  next hs => exact finish_keeps_inv (s := { s with strLen := s.strPos }) h hs

theorem rleEncCmd_keeps_inv {s : State} (h : s.inv) : (rleEncCmd s).inv := by
  refine command_keeps_inv h fun hs hk => ?_
  simp only [List.mem_cons, List.not_mem_nil, or_false, forall_eq_or_imp, forall_eq] at hk
  obtain ⟨hdims, -, harg⟩ := hk
  have ⟨⟨_, hcap, _⟩, _⟩ := h
  have hpos : ¬ s.pos > s.caps.str := of_decide_eq_false harg
  have hout := encodeRows_out (fuel := s.h) (s := homed s) hcap hs (show s.pos ≤ s.caps.str by omega)
    ((dimsCheck_passes s).1 hdims) rfl (show 0 + s.h ≤ s.h by omega)
  exact encodeEnd_keeps_inv (hout.keeps_inv h)

/-! ### The other primitive commands -/

theorem hdrRdCmd_keeps_inv {s : State} (h : s.inv) : (hdrRdCmd s).inv :=
  command_keeps_inv h fun hs _ => finish_keeps_inv (s := { s with width := _, height := _, strPos := _ }) h hs

theorem ok_write {m : Memory} {cap a : Nat} (b : Byte) (h : Memory.ok m cap) (ha : a < cap) :
    Memory.ok (Memory.write m a b) cap :=
  ⟨Memory.wf_write _ _ h.1, Memory.below_write _ h.2 ha⟩

theorem ok_write16 {m : Memory} {cap a : Nat} (v : Nat) (h : Memory.ok m cap) (ha : a + 1 < cap) :
    Memory.ok (Memory.write16 m a v) cap :=
  ok_write _ (ok_write _ h (by omega)) ha

/-- The four header bytes lie inside STR, whose capacity is at least 4 (R8). -/
theorem hdrWrCmd_keeps_inv {s : State} (h : s.inv) : (hdrWrCmd s).inv := by
  refine command_keeps_inv h fun hs _ => ?_
  obtain ⟨hcaps, hstr, hrest⟩ := h
  have h4 : 4 ≤ s.caps.str := hcaps.1
  have hheader : Memory.ok (Memory.write16 (Memory.write16 s.str 0 (s.w - 1)) 2 (s.h - 1)) s.caps.str :=
    ok_write16 _ (ok_write16 _ hstr (by omega)) (by omega)
  exact finish_keeps_inv (s := { s with str := _, strPos := _, strLen := _ }) ⟨hcaps, hheader, hrest⟩ hs

theorem packCmd_keeps_inv {s : State} (h : s.inv) : (packCmd s).inv := by
  refine command_keeps_inv h fun hs hk => ?_
  obtain ⟨hcaps, hstr, hpkd, hrest⟩ := h
  have hfits : s.pw * s.h ≤ s.caps.pkd := (pkdCheck_passes s).1 (hk _ (by simp [packChecks]))
  have hrows := packRows_ok (n := s.h) (first := 0) hpkd (by rwa [Nat.zero_add, Nat.mul_comm])
  unfold packEnd
  rw [packRows_frame]
  exact finish_keeps_inv (s := { s with pkd := _, row := _, col := _ }) ⟨hcaps, hstr, hrows, hrest⟩ hs

theorem unpackCmd_keeps_inv {s : State} (h : s.inv) : (unpackCmd s).inv := by
  refine command_keeps_inv h fun hs hk => ?_
  obtain ⟨hcaps, hstr, hpkd, hpix, hfault⟩ := h
  have hfits : s.w * s.h ≤ s.caps.pix := (pixCheck_passes s).1 (hk _ (by simp [packChecks]))
  have heven : s.w % 2 = 0 := (evenCheck_passes s).1 (hk _ (by simp [packChecks]))
  have hrows := unpackRows_ok (n := s.h) (first := 0) heven (by omega) hpix hfits
  unfold packEnd
  rw [unpackRows_frame]
  exact finish_keeps_inv (s := { s with pix := _, row := _, col := _ }) ⟨hcaps, hstr, hpkd, hrows, hfault⟩ hs

theorem runFindCmd_keeps_inv {s : State} (h : s.inv) : (runFindCmd s).inv :=
  command_keeps_inv h fun hs _ => finish_keeps_inv (s := findRun s.c s) h hs

theorem reservedCmd_keeps_inv (op : Nat) {s : State} (h : s.inv) : (reservedCmd op s).inv :=
  command_keeps_inv h fun _ _ => raise_keeps_inv _ _ _ h

/-! ### Instructions -/

theorem inv_of_next {u t : State} (hu : u.inv) (h : (.next u : Outcome) = .next t) : t.inv :=
  next_inj h ▸ hu

/-- A guarded access that answers a next state has its addresses inside the space. -/
theorem checked_eq_next {sp : Space} {bound : Nat} {s t : State} {k : Outcome} (h : checked sp bound s k = .next t) :
    bound ≤ s.caps.of sp ∧ k = .next t := by
  unfold checked at h
  split at h
  next hle => exact ⟨hle, h⟩
  · cases h

theorem execLit_keeps_inv {n : Nat} {s t : State} (h : s.inv) (he : execLit n s = .next t) : t.inv := by
  unfold execLit at he
  split at he
  · exact inv_of_next h he
  · split at he
    next hbad => exact inv_of_next (litToken_keeps_inv h (by omega)) he
    · obtain ⟨-, he⟩ := checked_eq_next he
      obtain ⟨hline, he⟩ := checked_eq_next he
      exact inv_of_next (litToken_keeps_inv h fun _ _ => hline) he

theorem execRep_keeps_inv {n : Nat} {s t : State} (h : s.inv) (he : execRep n s = .next t) : t.inv := by
  unfold execRep at he
  split at he
  · exact inv_of_next h he
  · split at he
    next hbad => exact inv_of_next (repToken_keeps_inv h (by omega)) he
    · obtain ⟨-, he⟩ := checked_eq_next he
      split at he
      next hbad => exact inv_of_next (repToken_keeps_inv h (by omega)) he
      · obtain ⟨hline, he⟩ := checked_eq_next he
        exact inv_of_next (repToken_keeps_inv h fun _ _ => hline) he

/-- Settles O22: each instruction is one of the commands above or a composition of them. -/
theorem execKeepsInvariant : Obligations.ExecKeepsInvariant := by
  intro i s t h he
  cases i with
  | lit n => exact execLit_keeps_inv h he
  | rep n => exact execRep_keeps_inv h he
  | nop => exact inv_of_next h he
  | hdrRd => exact inv_of_next (hdrRdCmd_keeps_inv h) he
  | hdrWr => exact inv_of_next (hdrWrCmd_keeps_inv h) he
  | rleDec => exact inv_of_next (rleDecCmd_keeps_inv h) he
  | rleEnc => exact inv_of_next (rleEncCmd_keeps_inv h) he
  | pack => exact inv_of_next (packCmd_keeps_inv h) he
  | unpack => exact inv_of_next (unpackCmd_keeps_inv h) he
  | runFind => exact inv_of_next (runFindCmd_keeps_inv h) he
  | decodeImage =>
    exact inv_of_next (unpackCmd_keeps_inv (rleDecCmd_keeps_inv (hdrRdCmd_keeps_inv h))) he
  | encodeImage =>
    exact inv_of_next (rleEncCmd_keeps_inv (hdrWrCmd_keeps_inv (packCmd_keeps_inv h))) he
  | reservedA => exact inv_of_next (reservedCmd_keeps_inv 0xA h) he
  | reservedB => exact inv_of_next (reservedCmd_keeps_inv 0xB h) he
  | reservedC => exact inv_of_next (reservedCmd_keeps_inv 0xC h) he
  | reservedD => exact inv_of_next (reservedCmd_keeps_inv 0xD h) he
  | reservedE => exact inv_of_next (reservedCmd_keeps_inv 0xE h) he
  | reset => exact inv_of_next (resetRegisters_keeps_inv h) he

/-! ### Host actions and the step -/

theorem hostRegWrite_keeps_inv (i v : Nat) {s : State} (h : s.inv) : (hostRegWrite i v s).inv := by
  unfold hostRegWrite
  split <;> exact h

theorem memWrite_keeps_inv (sp : Space) {a : Nat} (b : Byte) {s : State} (h : s.inv) (ha : a < s.caps.of sp) :
    (s.setMem sp (Memory.write (s.mem sp) a b)).inv := by
  obtain ⟨hcaps, hstr, hpkd, hpix, hfault⟩ := h
  cases sp with
  | str => exact ⟨hcaps, ok_write b hstr ha, hpkd, hpix, hfault⟩
  | pkd => exact ⟨hcaps, hstr, ok_write b hpkd ha, hpix, hfault⟩
  | pix => exact ⟨hcaps, hstr, hpkd, ok_write b hpix ha, hfault⟩

theorem hostAct_keeps_inv {a : HostAction} {s t : State} (h : s.inv) (he : hostAct a s = .next t) : t.inv := by
  cases a with
  | regRead i => exact inv_of_next (u := answerHost (hostRegRead i s) s) h he
  | regWrite i v =>
    simp only [hostAct] at he
    split at he
    · exact execKeepsInvariant _ _ _ h he
    · exact inv_of_next (hostRegWrite_keeps_inv i v h) he
  | memRead sp a =>
    obtain ⟨-, he⟩ := checked_eq_next he
    exact inv_of_next (u := answerHost (Memory.read (s.mem sp) a).toNat s) h he
  | memWrite sp a b =>
    obtain ⟨ha, he⟩ := checked_eq_next he
    exact inv_of_next (memWrite_keeps_inv sp b h ha) he
  | hardReset => exact inv_of_next (resetRegisters_keeps_inv h) he

/-- Settles O23: a step is idle or performs the host's oldest action. -/
theorem stepKeepsInvariant : Obligations.StepKeepsInvariant := by
  intro s t h he
  unfold step hostStep at he
  split at he
  · exact inv_of_next h he
  next a rest _ => exact hostAct_keeps_inv (s := { s with host := rest }) h he

/-- Settles O12: the full-range capacities are legal and the empty memories are in form. -/
theorem resetMeetsInvariant : Obligations.ResetMeetsInvariant := by
  obtain ⟨hstr, hpkd, hpix⟩ := reset_wf
  have hcaps : State.reset.caps.legal := by decide
  have hbelow : ∀ cap, Memory.below [] cap := by simp
  have hfault : State.reset.faultOk := by decide
  exact ⟨hcaps, ⟨hstr, hbelow _⟩, ⟨hpkd, hbelow _⟩, ⟨hpix, hbelow _⟩, hfault⟩

end Sys2Proof.Machine

/-! # Proofs: the register port, the memory port, and what a command says in its registers

A step performs the oldest host action at the state with that action taken off the list. Accesses to the ports are read off
from there. Of the commands two things are said once, an equation that names what each instruction may write (`MayWrite`) and
how each command ends (`EndsIn`), and the statements about registers are read off from those. -/

namespace Sys2Proof.Machine

/-! ### One step per host action -/

/-- A step takes the oldest pending host action off the list and performs it (log entry 5). -/
theorem step_host_cons (s : State) (a : HostAction) (rest : List HostAction) :
    step { s with host := a :: rest } = hostAct a { s with host := rest } := rfl

theorem step_regRead (s : State) (i : Nat) (rest : List HostAction) :
    step { s with host := .regRead i :: rest } =
      .next { s with host := rest, readBack := hostRegRead i s :: s.readBack } := rfl

/-- A write to a register other than CMD starts no command. -/
theorem step_regWrite (s : State) {i : Nat} (v : Nat) (rest : List HostAction) (hi : i ≠ 0x0) :
    step { s with host := .regWrite i v :: rest } = .next (hostRegWrite i v { s with host := rest }) := by
  rw [step_host_cons, hostAct, if_neg hi]

/-- Settles O5: a write to CMD is performed by the exec of the command that the value's low four bits name. -/
theorem stepRunsCommand : Obligations.StepRunsCommand := by
  have hcmd : ∀ (s : State) (v : Nat) (rest : List HostAction),
      step { s with host := .regWrite 0x0 v :: rest } = exec (decodeCommand v) { s with host := rest } := fun _ _ _ => rfl
  refine ⟨fun s v rest => ?_, fun i s v rest hspace _ hv => ?_, fun s rest => step_regRead s 0x0 rest⟩
  · rw [decodeCommand_mod]; exact hcmd s v rest
  · rw [hcmd, decodeCommand_encode hspace hv]

/-! ### The register port (10_state.md R13, R27, R28) -/

/-- STATUS, FAULT, RF_LEN and RF_POS ignore host writes (R13). -/
theorem hostRegWrite_readOnly {i : Nat} (h : i = 0x1 ∨ i = 0x2 ∨ i = 0xA ∨ i = 0xB) (v : Nat) (s : State) :
    hostRegWrite i v s = s := by
  rcases h with rfl | rfl | rfl | rfl <;> rfl

/-- Settles O8: no read/write or read-only register is CMD, so the write is `hostRegWrite` alone. -/
theorem hostRegisterWrite : Obligations.HostRegisterWrite := by
  intro s v rest
  refine ⟨step_regWrite s v rest (by decide), step_regWrite s v rest (by decide), step_regWrite s v rest (by decide),
    step_regWrite s v rest (by decide), step_regWrite s v rest (by decide), step_regWrite s v rest (by decide),
    step_regWrite s v rest (by decide), fun i hi => ?_⟩
  rw [step_regWrite s v rest (by omega), hostRegWrite_readOnly hi]

/-- Settles O9: the mapped indexes one by one, and the unmapped ones by the laws of the port. -/
theorem hostRegisterRead : Obligations.HostRegisterRead := by
  intro s rest
  refine ⟨fun i x hx => ?_, fun i hi => ⟨?_, fun v => ?_⟩⟩
  · have hread : hostRegRead i s = x := by
      simp only [List.mem_cons, Prod.mk.injEq, List.not_mem_nil, or_false] at hx
      rcases hx with ⟨rfl, rfl⟩ | ⟨rfl, rfl⟩ | ⟨rfl, rfl⟩ | ⟨rfl, rfl⟩ | ⟨rfl, rfl⟩ | ⟨rfl, rfl⟩ | ⟨rfl, rfl⟩ |
        ⟨rfl, rfl⟩ | ⟨rfl, rfl⟩ | ⟨rfl, rfl⟩ | ⟨rfl, rfl⟩ <;> rfl
    rw [step_regRead, hread]
  · rw [step_regRead, hostRegRead_unmapped hi]
  · rw [step_regWrite s v rest (by omega), hostRegWrite_unmapped hi]

/-! ### The memory port (10_state.md R29, R30, R32) -/

theorem step_memRead (s : State) (sp : Space) (a : Nat) (rest : List HostAction) :
    step { s with host := .memRead sp a :: rest } =
      checked sp (a + 1) s (.next { s with host := rest, readBack := (Memory.read (s.mem sp) a).toNat :: s.readBack }) := rfl

theorem step_memWrite (s : State) (sp : Space) (a : Nat) (b : Byte) (rest : List HostAction) :
    step { s with host := .memWrite sp a b :: rest } =
      checked sp (a + 1) s (.next (State.setMem { s with host := rest } sp (Memory.write (s.mem sp) a b))) := rfl

theorem checked_of_le {sp : Space} {bound : Nat} {s : State} {k : Outcome} (h : bound ≤ s.caps.of sp) :
    checked sp bound s k = k := if_pos h

theorem checked_of_gt {sp : Space} {bound : Nat} {s : State} {k : Outcome} (h : s.caps.of sp < bound) :
    checked sp bound s k = .fault (.noSuchAddress sp) := if_neg (Nat.not_le_of_gt h)

/-- Replacing the memory of a space leaves everything but the memories. -/
theorem setMem_frame (sp : Space) (m : Memory) (s : State) :
    s.setMem sp m = { s with str := (s.setMem sp m).str, pkd := (s.setMem sp m).pkd, pix := (s.setMem sp m).pix } := by
  cases sp <;> rfl

/-- Settles O10: below the capacity the guard lets the access through, and a write is `setMem` of the space's memory with one
byte written; at or above it the guard stops the model. -/
theorem hostMemoryAccess : Obligations.HostMemoryAccess := by
  intro s sp a b rest
  rw [step_memRead, step_memWrite]
  refine ⟨fun (ha : a + 1 ≤ _) => ?_, fun ha => ?_⟩
  · rw [checked_of_le ha, checked_of_le ha]
    refine ⟨rfl, _, rfl, setMem_frame _ _ _, ?_, fun x hx => ?_, fun sp' hsp => mem_setMem_of_ne _ _ hsp⟩
    · rw [mem_setMem, Memory.read_write, if_pos rfl]
    · rw [mem_setMem, Memory.read_write, if_neg hx]
  · have hout : s.caps.of sp < a + 1 := Nat.lt_succ_of_le ha
    exact ⟨checked_of_gt hout, checked_of_gt hout⟩

/-! ### Reset and fault entry -/

/-- Settles O11: the values stand in `State.reset`. -/
theorem reset_registers_zero : Obligations.ResetRegisters :=
  ⟨rfl, rfl, rfl, rfl, rfl, rfl, rfl, rfl, rfl, rfl, rfl⟩

/-- Settles O15: the three fields of `faultWord` hold what was put there. -/
theorem raiseRecordsFault : Obligations.RaiseRecordsFault :=
  ⟨fun f _ op _ hsub hop => ⟨rfl, faultWord_code f _ op, faultWord_sub f op hsub, faultWord_stage f _ hop⟩,
    rfl, rfl, rfl, rfl, rfl, rfl⟩

/-! ### What an instruction may write -/

/-- `t` differs from `s` only in what the instruction may write, registers and memories alike (10_state.md R13, the column
"written by commands"; 20_memory.md R50). -/
def MayWrite (s t : State) : Instr → Prop
  | .lit _ | .rep _ | .rleDec => DecFrame s t
  | .nop => t = s
  | .hdrRd => t = { s with
      status := t.status, fault := t.fault, width := t.width, height := t.height, strPos := t.strPos }
  | .hdrWr => t = { s with status := t.status, fault := t.fault, str := t.str, strLen := t.strLen, strPos := t.strPos }
  | .rleEnc => EncFrame s t
  | .pack => t = { s with status := t.status, fault := t.fault, row := t.row, col := t.col, pkd := t.pkd }
  | .unpack => t = { s with status := t.status, fault := t.fault, row := t.row, col := t.col, pix := t.pix }
  | .runFind => t = { s with status := t.status, fault := t.fault, rfLen := t.rfLen, rfPos := t.rfPos }
  | .decodeImage => t = { s with
      status := t.status, fault := t.fault, width := t.width, height := t.height, strPos := t.strPos, row := t.row,
      col := t.col, code := t.code, len := t.len, val := t.val, pkd := t.pkd, pix := t.pix }
  | .encodeImage => t = { s with
      status := t.status, fault := t.fault, str := t.str, strPos := t.strPos, strLen := t.strLen, rfLen := t.rfLen,
      rfPos := t.rfPos, row := t.row, col := t.col, pkd := t.pkd }
  | .reservedA | .reservedB | .reservedC | .reservedD | .reservedE => t = { s with status := t.status, fault := t.fault }
  | .reset => t = resetRegisters s

/-- What DECODE may write is what its three constituents may write. -/
theorem MayWrite.decodeImage {s u v t : State} (hrd : MayWrite s u .hdrRd) (hdec : MayWrite u v .rleDec)
    (hunp : MayWrite v t .unpack) : MayWrite s t .decodeImage := by
  unfold MayWrite at *
  rw [hunp, hdec, hrd]

/-- What ENCODE may write is what its three constituents may write. -/
theorem MayWrite.encodeImage {s u v t : State} (hpack : MayWrite s u .pack) (hwr : MayWrite u v .hdrWr)
    (henc : MayWrite v t .rleEnc) : MayWrite s t .encodeImage := by
  unfold MayWrite at *
  rw [henc, hwr, hpack]

theorem exec_mayWrite {i : Instr} {s t : State} (h : exec i s = .next t) : MayWrite s t i := by
  cases i with
  | lit n => exact lit_frame h
  | rep n => exact rep_frame h
  | nop => exact (next_inj h).symm
  | hdrRd => exact next_inj h ▸ hdrRd_frame s
  | hdrWr => exact next_inj h ▸ hdrWr_frame s
  | rleDec => exact next_inj h ▸ rleDecCmd_frame s
  | rleEnc => exact next_inj h ▸ rleEncCmd_frame s
  | pack => exact next_inj h ▸ pack_frame s
  | unpack => exact next_inj h ▸ unpack_frame s
  | runFind => exact next_inj h ▸ runFind_frame s
  | decodeImage => exact next_inj h ▸ .decodeImage (hdrRd_frame s) (rleDecCmd_frame _) (unpack_frame _)
  | encodeImage => exact next_inj h ▸ .encodeImage (pack_frame s) (hdrWr_frame _) (rleEncCmd_frame _)
  | reservedA => exact next_inj h ▸ reserved_frame 0xA s
  | reservedB => exact next_inj h ▸ reserved_frame 0xB s
  | reservedC => exact next_inj h ▸ reserved_frame 0xC s
  | reservedD => exact next_inj h ▸ reserved_frame 0xD s
  | reservedE => exact next_inj h ▸ reserved_frame 0xE s
  | reset => exact (next_inj h).symm

/-- Settles O25: the registers outside `MayWrite` of each instruction are the ones the statement names. -/
theorem registerFootprint : Obligations.RegisterFootprint := by
  intro i s t h
  have hw := exec_mayWrite h
  cases i <;> (unfold MayWrite at hw; rw [hw]; simp)

/-! ### How a command ends -/

/-- A command that executes ends DONE, FAULT as it was, or FAULTED with a code of R160's table and one of `stages`. -/
def EndsIn (stages : List Nat) (s t : State) : Prop :=
  (t.status = stDone ∧ t.fault = s.fault) ∨
  (t.status = stFaulted ∧ 1 ≤ t.faultCode ∧ t.faultCode ≤ 6 ∧ t.faultStage ∈ stages)

theorem DoneOrRaised.endsIn {op : Nat} {s t : State} (hop : op < 16) (h : DoneOrRaised op s t) : EndsIn [op] s t := by
  rcases h.done_or with ⟨-, hdone, hfault⟩ | ⟨hstatus, hraised⟩
  · exact .inl ⟨hdone, hfault⟩
  · obtain ⟨hlow, hhigh⟩ := code_of hraised
    exact .inr ⟨hstatus, hlow, hhigh, by simp [stage_of hop hraised]⟩

theorem EndsIn.mono {stages stages' : List Nat} {s t : State} (hsub : stages ⊆ stages') (h : EndsIn stages s t) :
    EndsIn stages' s t :=
  h.imp_right fun ⟨hstatus, hlow, hhigh, hstage⟩ => ⟨hstatus, hlow, hhigh, hsub hstage⟩

/-- A constituent of a composite: ignored after a fault, else it ends as the command it is (44_scanline_buffer_controller.md
R152). -/
theorem EndsIn.andThen {stages : List Nat} {op : Nat} {s u : State} {cmd : State → State} (h : EndsIn stages s u)
    (hop : op < 16) (hignored : u.faulted → cmd u = u) (hends : ¬ u.faulted → DoneOrRaised op u (cmd u)) :
    EndsIn (op :: stages) s (cmd u) := by
  by_cases hu : u.faulted
  · rw [hignored hu]
    exact h.mono (List.subset_cons_self _ _)
  · have hfault : u.fault = s.fault := by
      rcases h with ⟨-, hfault⟩ | ⟨hstatus, -⟩
      · exact hfault
      · exact absurd hstatus hu
    have hcmd : EndsIn [op] s (cmd u) := by
      unfold EndsIn
      rw [← hfault]
      exact (hends hu).endsIn hop
    exact hcmd.mono (by simp)

theorem decodeImage_endsIn {s : State} (hs : ¬ s.faulted) :
    EndsIn [0x6, 0x3, 0x1] s (unpackCmd (rleDecCmd (hdrRdCmd s))) :=
  (((hdrRd_ends hs).endsIn (by decide)).andThen (by decide) rleDec_of_faulted rleDec_ends).andThen (by decide)
    unpack_of_faulted unpack_ends

theorem encodeImage_endsIn {s : State} (hs : ¬ s.faulted) :
    EndsIn [0x4, 0x2, 0x5] s (rleEncCmd (hdrWrCmd (packCmd s))) :=
  (((pack_ends hs).endsIn (by decide)).andThen (by decide) hdrWr_of_faulted hdrWr_ends).andThen (by decide)
    rleEnc_of_faulted rleEnc_ends

/-- The stages a command can record: its own opcode, or those of its constituents, last first (10_state.md R25). -/
def stagesOf : Instr → List Nat
  | .decodeImage => [0x6, 0x3, 0x1]
  | .encodeImage => [0x4, 0x2, 0x5]
  | i => [(encodeByte i).toNat]

theorem exec_endsIn {i : Instr} {s t : State} (hi : encSpace i = .command) (hnop : i ≠ .nop) (hreset : i ≠ .reset)
    (hs : ¬ s.faulted) (h : exec i s = .next t) : EndsIn (stagesOf i) s t := by
  cases i with
  | lit n => cases hi
  | rep n => cases hi
  | nop => exact absurd rfl hnop
  | hdrRd => exact next_inj h ▸ (hdrRd_ends hs).endsIn (by decide)
  | hdrWr => exact next_inj h ▸ (hdrWr_ends hs).endsIn (by decide)
  | rleDec => exact next_inj h ▸ (rleDec_ends hs).endsIn (by decide)
  | rleEnc => exact next_inj h ▸ (rleEnc_ends hs).endsIn (by decide)
  | pack => exact next_inj h ▸ (pack_ends hs).endsIn (by decide)
  | unpack => exact next_inj h ▸ (unpack_ends hs).endsIn (by decide)
  | runFind => exact next_inj h ▸ (runFind_ends hs).endsIn (by decide)
  | decodeImage => exact next_inj h ▸ decodeImage_endsIn hs
  | encodeImage => exact next_inj h ▸ encodeImage_endsIn hs
  | reservedA => exact next_inj h ▸ (reserved_ends (op := 0xA) hs).endsIn (by decide)
  | reservedB => exact next_inj h ▸ (reserved_ends (op := 0xB) hs).endsIn (by decide)
  | reservedC => exact next_inj h ▸ (reserved_ends (op := 0xC) hs).endsIn (by decide)
  | reservedD => exact next_inj h ▸ (reserved_ends (op := 0xD) hs).endsIn (by decide)
  | reservedE => exact next_inj h ▸ (reserved_ends (op := 0xE) hs).endsIn (by decide)
  | reset => exact absurd rfl hreset

/-- Every stage a command can record is the opcode of a primitive command. -/
theorem stagesOf_primitive {i : Instr} (hi : encSpace i = .command) (hnop : i ≠ .nop) (hreset : i ≠ .reset) :
    ∀ op ∈ stagesOf i, op ∉ [0x0, 0x8, 0x9, 0xF] := by
  cases i with
  | lit n => cases hi
  | rep n => cases hi
  | nop => exact absurd rfl hnop
  | reset => exact absurd rfl hreset
  | _ => decide

theorem stagesOf_of_not_composite {i : Instr} (hdec : i ≠ .decodeImage) (henc : i ≠ .encodeImage) :
    stagesOf i = [(encodeByte i).toNat] := by
  cases i with
  | decodeImage => exact absurd rfl hdec
  | encodeImage => exact absurd rfl henc
  | _ => rfl

/-- Settles O26: NOP and RESET by their effect, every other command by how it ends. -/
theorem statusAfterCommand : Obligations.StatusAfterCommand := by
  intro i s t hi hs h
  refine ⟨?_, ?_, fun hnop hreset => ?_⟩
  · rintro rfl
    rw [← next_inj h]
    exact ⟨rfl, rfl⟩
  · rintro rfl
    rw [← next_inj h]
    exact ⟨rfl, rfl⟩
  · refine (exec_endsIn hi hnop hreset hs h).imp_right fun ⟨hstatus, hlow, hhigh, hstage⟩ =>
      ⟨hstatus, hlow, hhigh, stagesOf_primitive hi hnop hreset _ hstage, fun hdec henc => ?_⟩
    rw [stagesOf_of_not_composite hdec henc] at hstage
    exact List.mem_singleton.1 hstage

end Sys2Proof.Machine

/-! # Proofs: the bytes of a token, and which memory an instruction writes

A token is read from its bytes through `decodeToken` of its control byte. What an instruction may do to the memories is read off
`MayWrite`; where a command writes is said once for each primitive command, and the composites follow from their constituents. -/

namespace Sys2Proof

/-! ### Whole tokens (30_encoding.md R63, R68) -/

theorem decodeToken_encode_lit {n : Nat} (h1 : 1 ≤ n) (h2 : n ≤ 128) : decodeToken (encodeByte (.lit n)) = .lit n := by
  obtain ⟨hrep, hlen⟩ := Machine.control_of_lit h1 h2
  rw [decodeToken, hrep, hlen]; rfl

theorem decodeToken_encode_rep {n : Nat} (h1 : 3 ≤ n) (h2 : n ≤ 130) : decodeToken (encodeByte (.rep n)) = .rep n := by
  obtain ⟨hrep, hlen⟩ := Machine.control_of_rep h1 h2
  rw [decodeToken, hrep, hlen]; rfl

/-- A control byte with its whole payload is a token, whatever follows. -/
theorem decodeToken?_whole {code : Byte} {i : Instr} {payload : List Byte} (rest : List Byte) (hi : decodeToken code = i)
    (hsize : payloadSize i = payload.length) : decodeToken? (code :: (payload ++ rest)) = .ok (i, payload, rest) := by
  rw [decodeToken?, hi]
  show (if payloadSize i ≤ (payload ++ rest).length then _ else _) = _
  rw [hsize, if_pos (by simp), List.take_left, List.drop_left]

theorem decodeToken?_truncated {code : Byte} {i : Instr} {rest : List Byte} (hi : decodeToken code = i)
    (hshort : rest.length < payloadSize i) : decodeToken? (code :: rest) = .error .payloadTruncated := by
  rw [decodeToken?, hi]
  exact if_neg (Nat.not_le_of_gt hshort)

theorem payloadSize_decodeToken_repeat {code : Byte} (h : isRepeat code = true) : payloadSize (decodeToken code) = 1 := by
  rw [decodeToken, if_pos h]; rfl

theorem payloadSize_decodeToken_literal {code : Byte} (h : ¬ isRepeat code = true) :
    payloadSize (decodeToken code) = code.toNat + 1 := by
  rw [decodeToken, if_neg h]
  exact if_neg h

/-- Settles O4: each token shape by its control byte, the payload being the bytes after it. -/
theorem wholeTokensDecode : Obligations.WholeTokensDecode := by
  refine ⟨fun raw rest h1 h2 => ?_, fun n v rest h1 h2 => ?_, fun n rest h1 h2 hshort => ?_, fun n h1 h2 => ?_,
    fun code h => ?_, fun code h => ?_⟩
  · exact decodeToken?_whole rest (decodeToken_encode_lit h1 h2) rfl
  · exact decodeToken?_whole (payload := [v]) rest (decodeToken_encode_rep h1 h2) rfl
  · exact decodeToken?_truncated (decodeToken_encode_lit h1 h2) hshort
  · exact decodeToken?_truncated (decodeToken_encode_rep h1 h2) Nat.one_pos
  · rw [payloadSize_decodeToken_repeat ((Machine.isRepeat_iff code).2 h)]
  · rw [payloadSize_decodeToken_literal (by rw [Machine.isRepeat_iff]; exact not_not_intro h)]
    omega

end Sys2Proof

namespace Sys2Proof.Machine

/-! ### What `MayWrite` leaves as it was (20_memory.md R50) -/

theorem MayWrite.str_eq {i : Instr} {s t : State} (hw : MayWrite s t i) (h1 : i ≠ .hdrWr) (h2 : i ≠ .rleEnc)
    (h3 : i ≠ .encodeImage) : t.str = s.str := by
  cases i with
  | hdrWr => exact absurd rfl h1
  | rleEnc => exact absurd rfl h2
  | encodeImage => exact absurd rfl h3
  | _ => exact (congrArg State.str hw :)

theorem MayWrite.pkd_eq {i : Instr} {s t : State} (hw : MayWrite s t i) (hlit : ∀ n, i ≠ .lit n) (hrep : ∀ n, i ≠ .rep n)
    (h1 : i ≠ .rleDec) (h2 : i ≠ .pack) (h3 : i ≠ .decodeImage) (h4 : i ≠ .encodeImage) : t.pkd = s.pkd := by
  cases i with
  | lit n => exact absurd rfl (hlit n)
  | rep n => exact absurd rfl (hrep n)
  | rleDec => exact absurd rfl h1
  | pack => exact absurd rfl h2
  | decodeImage => exact absurd rfl h3
  | encodeImage => exact absurd rfl h4
  | _ => exact (congrArg State.pkd hw :)

theorem MayWrite.pix_eq {i : Instr} {s t : State} (hw : MayWrite s t i) (h1 : i ≠ .unpack) (h2 : i ≠ .decodeImage) :
    t.pix = s.pix := by
  cases i with
  | unpack => exact absurd rfl h1
  | decodeImage => exact absurd rfl h2
  | _ => exact (congrArg State.pix hw :)

theorem MayWrite.dims_eq {i : Instr} {s t : State} (hw : MayWrite s t i) (h1 : i ≠ .hdrRd) (h2 : i ≠ .decodeImage)
    (h3 : i ≠ .reset) : t.w = s.w ∧ t.pw = s.pw ∧ t.h = s.h := by
  cases i with
  | hdrRd => exact absurd rfl h1
  | decodeImage => exact absurd rfl h2
  | reset => exact absurd rfl h3
  | _ => exact ⟨(congrArg State.w hw :), (congrArg State.pw hw :), (congrArg State.h hw :)⟩

/-! ### Where STR is written -/

/-- From `s` to `t` STR_POS does not move back, and the bytes of STR outside what it moved over are as they were. -/
def StrAppended (s t : State) : Prop :=
  s.pos ≤ t.pos ∧ ∀ a, a < s.pos ∨ t.pos ≤ a → Memory.read t.str a = Memory.read s.str a

theorem StrAppended.of_eq {s t : State} (hpos : t.pos = s.pos) (hstr : t.str = s.str) : StrAppended s t :=
  ⟨hpos.ge, fun a _ => by rw [hstr]⟩

theorem appended_strAppended {bs : List Byte} {s : State} (h : s.pos + bs.length < 2 ^ 33) :
    StrAppended s (appended bs s) := by
  have hpos := appended_pos h
  refine ⟨by omega, fun a ha => ?_⟩
  rcases ha with ha | ha
  · exact Memory.read_fill_of_lt ha
  · exact Memory.read_fill_of_ge (by omega)

theorem EncOut.strAppended {s t : State} {bs : List Byte} (hcap : s.caps.str < 2 ^ 33) (ho : EncOut s t bs) :
    StrAppended s t := by
  rcases ho with ⟨hle, _, _, _, _, rfl⟩ | ⟨-, pre, _, _, _, _, -, hle, rfl⟩
  · exact appended_strAppended (bs := bs) (by omega)
  · exact appended_strAppended (bs := pre) (by omega)

theorem encodeEnd_pos_str (s : State) : (encodeEnd s).pos = s.pos ∧ (encodeEnd s).str = s.str := by
  unfold encodeEnd
  split <;> exact ⟨rfl, rfl⟩

/-- RLE_ENC, faulted or not, writes STR between the old and the new STR_POS (41_rle_encoder.md R105, R109). -/
theorem rleEncCmd_strAppended {s : State} (hcap : s.caps.str < 2 ^ 33) : StrAppended s (rleEncCmd s) := by
  unfold rleEncCmd
  rcases command_cases 0x4 (fun s => [dimsCheck s, pkdCheck s, argCheck (decide (s.pos > s.caps.str))]) rleEncBody s
    with ⟨-, e⟩ | ⟨-, k, -, -, e⟩ | ⟨hs, hk, e⟩ <;> rw [e]
  · exact .of_eq rfl rfl
  · exact .of_eq rfl rfl
  · simp only [List.mem_cons, List.not_mem_nil, or_false, forall_eq_or_imp, forall_eq] at hk
    obtain ⟨hdims, -, harg⟩ := hk
    have hpos : ¬ s.pos > s.caps.str := of_decide_eq_false harg
    have hrows := (encodeRows_out (fuel := s.h) (s := homed s) hcap hs (Nat.le_of_not_gt hpos)
      ((dimsCheck_passes s).1 hdims) rfl (Nat.zero_add s.h).le).strAppended hcap
    obtain ⟨hendPos, hendStr⟩ := encodeEnd_pos_str (encodeRows s.h (homed s))
    unfold StrAppended rleEncBody
    rw [hendPos, hendStr]
    exact hrows

/-- HDR_WR writes the four header bytes (44_scanline_buffer_controller.md R142). -/
theorem hdrWr_above {s : State} {a : Nat} (ha : 4 ≤ a) : Memory.read (hdrWrCmd s).str a = Memory.read s.str a := by
  rcases hdrWr_str s with ⟨e, -⟩ | ⟨-, -, w, h, e⟩
  · rw [e]
  · rw [e, hdrWr_read, if_neg (by omega), if_neg (by omega), if_neg (by omega), if_neg (by omega)]

/-- ENCODE writes STR below the new STR_POS: the header, then the tokens from byte 4 on, or nothing when the header is not
written. -/
theorem encodeImage_str_above {s : State} {a : Nat} (hcap : s.caps.str < 2 ^ 33)
    (ha : (rleEncCmd (hdrWrCmd (packCmd s))).pos ≤ a) :
    Memory.read (rleEncCmd (hdrWrCmd (packCmd s))).str a = Memory.read s.str a := by
  have hpack : (packCmd s).str = s.str := by rw [pack_frame]
  rcases hdrWr_str (packCmd s) with ⟨hstr, hfault⟩ | ⟨-, hpos, -⟩
  · rw [rleEnc_of_faulted hfault, hstr, hpack]
  · have hcaps : (hdrWrCmd (packCmd s)).caps = s.caps := by rw [hdrWr_frame, pack_frame]
    obtain ⟨hle, hread⟩ := rleEncCmd_strAppended (s := hdrWrCmd (packCmd s)) (by rwa [hcaps])
    rw [hread a (.inr ha), hdrWr_above (by omega), hpack]

/-! ### Where PKD and PIX are written -/

theorem rleDec_dims_eq (s : State) :
    (rleDecCmd s).w = s.w ∧ (rleDecCmd s).pw = s.pw ∧ (rleDecCmd s).h = s.h :=
  MayWrite.dims_eq (i := .rleDec) (rleDecCmd_frame s) nofun nofun nofun

theorem unpack_dims_eq (s : State) :
    (unpackCmd s).w = s.w ∧ (unpackCmd s).pw = s.pw ∧ (unpackCmd s).h = s.h :=
  MayWrite.dims_eq (i := .unpack) (unpack_frame s) nofun nofun nofun

/-- A command writes PKD inside the image only (20_memory.md R48). -/
theorem exec_pkd_above {i : Instr} {s t : State} {a : Nat} (hi : encSpace i = .command) (h : exec i s = .next t)
    (ha : t.pw * t.h ≤ a) : Memory.read t.pkd a = Memory.read s.pkd a := by
  have hw := exec_mayWrite h
  cases i with
  | lit n => cases hi
  | rep n => cases hi
  | rleDec =>
    obtain rfl := next_inj h
    obtain ⟨-, hpw, hh⟩ := rleDec_dims_eq s
    exact rleDec_above (by rwa [hpw, hh] at ha)
  | pack =>
    obtain ⟨-, hpw, hh⟩ := hw.dims_eq nofun nofun nofun
    obtain rfl := next_inj h
    exact pack_above (by rwa [hpw, hh] at ha)
  | decodeImage =>
    obtain rfl := next_inj h
    obtain ⟨-, hpw, hh⟩ := rleDec_dims_eq (hdrRdCmd s)
    obtain ⟨-, hpw', hh'⟩ := unpack_dims_eq (rleDecCmd (hdrRdCmd s))
    rw [hpw', hh', hpw, hh] at ha
    rw [unpack_frame, rleDec_above ha, hdrRd_frame]
  | encodeImage =>
    obtain ⟨-, hpw, hh⟩ := hw.dims_eq nofun nofun nofun
    obtain rfl := next_inj h
    rw [rleEncCmd_frame, hdrWr_frame, pack_above (by rwa [hpw, hh] at ha)]
  | _ => rw [hw.pkd_eq nofun nofun nofun nofun nofun nofun]

/-- An instruction writes PIX inside the image only (20_memory.md R48). -/
theorem exec_pix_above {i : Instr} {s t : State} {a : Nat} (h : exec i s = .next t) (ha : t.w * t.h ≤ a) :
    Memory.read t.pix a = Memory.read s.pix a := by
  have hw := exec_mayWrite h
  cases i with
  | unpack =>
    obtain rfl := next_inj h
    obtain ⟨hww, -, hh⟩ := unpack_dims_eq s
    exact unpack_above (by rwa [hww, hh] at ha)
  | decodeImage =>
    obtain rfl := next_inj h
    obtain ⟨hww, -, hh⟩ := unpack_dims_eq (rleDecCmd (hdrRdCmd s))
    rw [hww, hh] at ha
    rw [unpack_above ha, rleDecCmd_frame, hdrRd_frame]
  | _ => rw [hw.pix_eq nofun nofun]

/-- Settles O24: what no instruction of a kind may write by `MayWrite`, and where the others write by the lemmas above. -/
theorem memoryFootprint : Obligations.MemoryFootprint := by
  intro i s t hcaps h
  obtain ⟨-, hcap, -⟩ := hcaps
  have hw := exec_mayWrite h
  refine ⟨hw.str_eq, ?_, ?_, ?_, hw.pkd_eq, fun hi _ => exec_pkd_above hi h, hw.pix_eq, fun _ => exec_pix_above h⟩
  · rintro rfl a ha
    obtain rfl := next_inj h
    exact hdrWr_above ha
  · rintro rfl
    obtain rfl := next_inj h
    exact (rleEncCmd_strAppended hcap).2
  · rintro rfl a ha
    obtain rfl := next_inj h
    exact encodeImage_str_above hcap ha

/-! ### Commands and tokens that stop -/

/-- Settles O21: only the two tokens have an arm of `exec` that can stop. -/
theorem commandsAlwaysAnswer : Obligations.CommandsAlwaysAnswer := by
  intro i s hi
  cases i with
  | lit n => cases hi
  | rep n => cases hi
  | _ => exact ⟨_, rfl⟩

/-- LIT run alone, its row and its payload in order: it is guarded by STR, then by PKD. -/
theorem execLit_guarded {n : Nat} {s : State} (hs : ¬ s.faulted) (hrow : n ≤ s.pw - s.c) (hend : s.pos + 1 + n ≤ s.slen) :
    execLit n s = checked .str (s.pos + 1 + n) s (checked .pkd (s.lineAddr s.c + n) s (.next (litToken n s))) := by
  rw [execLit, if_neg hs, if_neg (by omega)]

/-- REP run alone, its value byte in the stream: it is guarded by STR, and by PKD when the run fits its row. -/
theorem execRep_guarded {n : Nat} {s : State} (hs : ¬ s.faulted) (hend : s.pos + 2 ≤ s.slen) :
    execRep n s = checked .str (s.pos + 2) s
      (if n > s.pw - s.c then .next (repToken n s)
       else checked .pkd (s.lineAddr s.c + n) s (.next (repToken n s))) := by
  rw [execRep, if_neg hs, if_neg (Nat.not_lt_of_ge hend)]

/-- Settles O42: the first guard whose bound lies outside its space is the one that stops the token. -/
theorem tokenAloneStops : Obligations.TokenAloneStops := by
  refine ⟨fun n s hs hrow hend => ?_, fun n s hs hend => ?_, fun n s hs => ⟨if_pos hs, if_pos hs⟩⟩
  · show (_ → execLit n s = _) ∧ (_ → _ → execLit n s = _)
    rw [execLit_guarded hs hrow hend]
    exact ⟨fun hstr => checked_of_gt hstr, fun hstr hpkd => (checked_of_le hstr).trans (checked_of_gt hpkd)⟩
  · show (_ → execRep n s = _) ∧ (_ → _ → _ → execRep n s = _)
    rw [execRep_guarded hs hend]
    refine ⟨fun hstr => checked_of_gt hstr, fun hstr hrow hpkd => ?_⟩
    rw [checked_of_le hstr, if_neg (Nat.not_lt_of_ge hrow)]
    exact checked_of_gt hpkd

end Sys2Proof.Machine

/-! # Proofs: the two encodings, the reserved opcodes, and the stream grammar of RLE_DEC

The control bytes and the opcodes are read through the laws of `tokenLength` and of `decodeToken`. The spans of the encoder are
brought to closed form by induction on the tokens they emit. For RLE_DEC the effect on a stream of the grammar is said once
(`rleDecCmd_of_image`); that nothing else is accepted follows from it with the soundness of the loop. -/

namespace Sys2Proof

/-! ### Control bytes and opcodes (30_encoding.md R63, R66, R67, R69) -/

/-- Settles O1: a token by the decoding of its control byte, a command by the arm of its opcode. -/
theorem decodeEncodeRoundTrip : Obligations.DecodeEncodeRoundTrip := by
  intro i rest hi
  cases i with
  | lit n =>
    obtain ⟨h1, h2⟩ : 1 ≤ n ∧ n ≤ 128 := of_decide_eq_true hi
    show Except.ok (decodeToken (encodeByte (.lit n)), rest) = _
    rw [decodeToken_encode_lit h1 h2]
  | rep n =>
    obtain ⟨h1, h2⟩ : 3 ≤ n ∧ n ≤ 130 := of_decide_eq_true hi
    show Except.ok (decodeToken (encodeByte (.rep n)), rest) = _
    rw [decodeToken_encode_rep h1 h2]
  | _ => rfl

theorem tokenLength_of_repeat {code : Byte} (h : isRepeat code = true) :
    tokenLength code = (code &&& 0x7F#8).toNat + 3 := if_pos h

theorem tokenLength_of_literal {code : Byte} (h : isRepeat code = false) : tokenLength code = code.toNat + 1 :=
  if_neg (by simp [h])

theorem decodeToken_of_repeat {code : Byte} (h : isRepeat code = true) : decodeToken code = .rep (tokenLength code) :=
  if_pos h

theorem decodeToken_of_literal {code : Byte} (h : isRepeat code = false) : decodeToken code = .lit (tokenLength code) :=
  if_neg (by simp [h])

theorem isRepeat_false_iff (code : Byte) : isRepeat code = false ↔ code &&& 0x80#8 = 0#8 := by
  simp [isRepeat]

/-- Every control byte is the encoding of the token it begins (R69). -/
theorem encodeByte_decodeToken (code : Byte) : encodeByte (decodeToken code) = code := by
  cases h : isRepeat code with
  | true => rw [decodeToken_of_repeat h, Machine.rep_of_control h]
  | false => rw [decodeToken_of_literal h, Machine.lit_of_control h]

/-- Settles O2: each shape by its length decode and the bounds on it. -/
theorem tokenLengths : Obligations.TokenLengths := by
  refine ⟨fun code hbit => ?_, fun code hbit => ?_, fun n h1 h2 => ?_, fun n h1 h2 => ?_, rfl, rfl, encodeByte_decodeToken⟩
  · have h := (Machine.isRepeat_iff code).2 hbit
    rw [← tokenLength_of_repeat h]
    exact ⟨decodeToken_of_repeat h, (Machine.tokenLength_bounds code).1 h⟩
  · have h := (isRepeat_false_iff code).2 hbit
    rw [← tokenLength_of_literal h]
    exact ⟨decodeToken_of_literal h, (Machine.tokenLength_bounds code).2 h⟩
  · refine ⟨?_, by omega⟩
    show (n - 1) % 2 ^ 8 = n - 1
    omega
  · refine ⟨?_, by omega, by omega⟩
    show (n - 3 + 0x80) % 2 ^ 8 = n - 3 + 0x80
    omega

/-- Settles O3: each sample evaluates. -/
theorem encodingSamples : Obligations.EncodingSamples :=
  ⟨rfl, rfl, rfl, rfl, rfl, rfl, rfl, rfl, rfl, rfl, rfl, rfl, rfl⟩

end Sys2Proof

namespace Sys2Proof.Machine

/-! ### Reserved opcodes, and commands while FAULTED (30_encoding.md R71, 60_exceptions.md R172) -/

/-- While FAULTED every command but RESET is ignored; a composite because each of its constituents is. -/
theorem exec_of_faulted {i : Instr} {s : State} (hi : encSpace i = .command) (hreset : i ≠ .reset) (hs : s.faulted) :
    exec i s = .next s := by
  have hignored : ∀ op checks body, command op checks body s = s := fun _ _ _ => command_of_faulted hs
  cases i with
  | lit n => cases hi
  | rep n => cases hi
  | nop => rfl
  | reset => exact absurd rfl hreset
  | decodeImage =>
    show Host.Outcome.next (unpackCmd (rleDecCmd (hdrRdCmd s))) = _
    rw [show hdrRdCmd s = s from hignored _ _ _, rleDec_of_faulted hs, unpack_of_faulted hs]
  | encodeImage =>
    show Host.Outcome.next (rleEncCmd (hdrWrCmd (packCmd s))) = _
    rw [show packCmd s = s from hignored _ _ _, hdrWr_of_faulted hs, rleEnc_of_faulted hs]
  | _ => exact congrArg Host.Outcome.next (hignored _ _ _)

/-- Settles O17: a reserved opcode is its one `raise`. -/
theorem reservedOpcodes : Obligations.ReservedOpcodes := by
  refine ⟨fun s hs => ?_, fun i s => exec_of_faulted⟩
  have hraise : ∀ op, Host.Outcome.next (reservedCmd op s) = (.next (s.withFault (faultWord .illegalCommand 0 op)) : Outcome) :=
    fun op => congrArg _ (reserved_step hs)
  exact ⟨hraise 0xA, hraise 0xB, hraise 0xC, hraise 0xD, hraise 0xE⟩

/-! ### The spans of the encoder (41_rle_encoder.md R102, R103, R111) -/

theorem litSpanBytes_nil (fuel : Nat) : litSpanBytes fuel [] = [] := by
  cases fuel <;> rfl

theorem litSpanBytes_succ {raw : List Byte} (fuel : Nat) (h : raw ≠ []) :
    litSpanBytes (fuel + 1) raw = litBytes (raw.take 128) ++ litSpanBytes fuel (raw.drop 128) := if_neg h

/-- A span that is not empty has one block more than what follows its first block. -/
theorem blocks_eq_succ {m : Nat} (h : 0 < m) : (m + 127) / 128 = (m - 128 + 127) / 128 + 1 := by omega

theorem litSpanBytes_eq_blocks {fuel : Nat} {raw : List Byte} (h : raw.length ≤ fuel) :
    litSpanBytes fuel raw =
      (List.range ((raw.length + 127) / 128)).flatMap (fun i => litBytes ((raw.drop (128 * i)).take 128)) := by
  induction fuel generalizing raw with
  | zero =>
    obtain rfl := List.length_eq_zero_iff.mp (Nat.le_zero.mp h)
    rfl
  | succ fuel ih =>
    by_cases hraw : raw = []
    · subst hraw; rfl
    have hpos := List.length_pos_iff.mpr hraw
    rw [litSpanBytes_succ fuel hraw, ih (by rw [List.length_drop]; omega), blocks_eq_succ hpos, List.range_succ_eq_map,
      List.flatMap_cons, List.flatMap_map, List.length_drop]
    simp only [List.drop_drop, Nat.mul_succ, Nat.mul_zero, List.drop_zero, Nat.add_comm]

theorem length_litSpanBytes {fuel : Nat} {raw : List Byte} (h : raw.length ≤ fuel) :
    (litSpanBytes fuel raw).length = raw.length + (raw.length + 127) / 128 := by
  induction fuel generalizing raw with
  | zero =>
    obtain rfl := List.length_eq_zero_iff.mp (Nat.le_zero.mp h)
    rfl
  | succ fuel ih =>
    by_cases hraw : raw = []
    · subst hraw; rfl
    have hpos := List.length_pos_iff.mpr hraw
    rw [litSpanBytes_succ fuel hraw, List.length_append, ih (by rw [List.length_drop]; omega), litBytes, List.length_cons,
      List.length_take, List.length_drop]
    omega

/-- The token for the rest of a run after its tokens of 130: none, a literal token for 1 or 2 bytes, else a repeat token
(R103). -/
def runRestBytes (n : Nat) (v : Byte) : List Byte :=
  if n = 0 then [] else if n = 1 then [0x00#8, v] else if n = 2 then [0x01#8, v, v]
  else [BitVec.ofNat 8 ((n - 3) + 0x80), v]

theorem repSpanBytes_zero (fuel : Nat) (v : Byte) : repSpanBytes fuel 0 v = [] := by
  cases fuel <;> rfl

/-- A run of 130 or more begins with a token of 130. -/
theorem repSpanBytes_long {fuel n : Nat} (v : Byte) (h : 130 ≤ n) :
    repSpanBytes (fuel + 1) n v = [0xFF#8, v] ++ repSpanBytes fuel (n - 130) v := by
  rw [repSpanBytes, if_neg (by omega), Nat.min_eq_right h]
  rfl

/-- A run of less than 130 is one token. -/
theorem repSpanBytes_short {fuel n : Nat} (v : Byte) (h : n < 130) (hfuel : n ≤ fuel) :
    repSpanBytes fuel n v = runRestBytes n v := by
  cases fuel with
  | zero => rw [Nat.le_zero.mp hfuel]; rfl
  | succ fuel =>
    rw [repSpanBytes, Nat.min_eq_left (by omega), Nat.sub_self, repSpanBytes_zero, List.append_nil]
    match n with
    | 0 | 1 | 2 => rfl
    | n + 3 => rfl

theorem repSpanBytes_eq {fuel n : Nat} (v : Byte) (h : n ≤ fuel) :
    repSpanBytes fuel n v = (List.replicate (n / 130) [0xFF#8, v]).flatten ++ runRestBytes (n % 130) v := by
  induction fuel generalizing n with
  | zero => rw [Nat.le_zero.mp h]; rfl
  | succ fuel ih =>
    rcases Nat.lt_or_ge n 130 with hn | hn
    · rw [repSpanBytes_short v hn h, Nat.div_eq_of_lt hn, Nat.mod_eq_of_lt hn]
      rfl
    · rw [repSpanBytes_long v hn, ih (by omega), show n / 130 = (n - 130) / 130 + 1 by omega, Nat.mod_eq_sub_mod hn,
        List.replicate_succ, List.flatten_cons, List.append_assoc]

/-- Settles O53: the spans with as much fuel as they have bytes. -/
theorem spanExpansions : Obligations.SpanExpansions :=
  ⟨fun _ => litSpanBytes_eq_blocks le_rfl, fun _ => length_litSpanBytes le_rfl, fun _ v => repSpanBytes_eq v le_rfl⟩

/-! ### RLE_DEC and the grammar of the stream (30_encoding.md R74, 40_rle_decoder.md R80, R85, R87) -/

theorem decodeEnd_of_rows {s : State} (hs : ¬ s.faulted) (hr : s.r = s.h) : decodeEnd s = finish s := by
  rw [decodeEnd, if_neg hs, if_neg (not_not_intro hr)]

/-- The end of RLE_DEC without fault: none was raised before it, and every row is there. -/
theorem of_decodeEnd_not_faulted {s : State} (h : ¬ (decodeEnd s).faulted) : ¬ s.faulted ∧ s.r = s.h := by
  unfold decodeEnd at h
  split at h
  next hs => exact absurd hs h
  next hs =>
    split at h
    · exact absurd rfl h
    next hr => exact ⟨hs, not_not.mp hr⟩

/-- The loop's state after all the rows of an image: the stream exhausted, the cursors past the last row. -/
theorem rowsDone_of_image {s : State} {d : List Byte} (h : s.decReady) (hi : ImageTokens s.pw s.h s.stream d)
    (code len val : Byte) : rowsDone (homed s) s.h d s.stream.length code len val = { s with
      strPos := s.strLen, row := s.height, col := 0, code := code, len := len, val := val,
      pkd := Memory.fill s.pkd 0 d.length (fun j => d.getD j 0) } := by
  have hst : s.stream = s.stream ++ [] := (List.append_nil _).symm
  have ⟨_, _, _, _, hle⟩ := h
  obtain ⟨hend, -, -⟩ := slice_of_stream hle hst
  obtain ⟨hpos, -, -, -, -, -, -, -, hpkd, -, hrow, -⟩ := rowsDone_facts h code len val le_rfl hi hst
  have hstrPos : (rowsDone (homed s) s.h d s.stream.length code len val).strPos = s.strLen :=
    BitVec.eq_of_toNat_eq (hpos.trans hend)
  calc rowsDone (homed s) s.h d s.stream.length code len val
      = { s with
          strPos := (rowsDone (homed s) s.h d s.stream.length code len val).strPos
          row := (rowsDone (homed s) s.h d s.stream.length code len val).row
          col := 0, code := code, len := len, val := val
          pkd := (rowsDone (homed s) s.h d s.stream.length code len val).pkd } := rfl
    _ = _ := by rw [hstrPos, hrow rfl, hpkd]

/-- RLE_DEC on a stream of the grammar: the whole state it leaves but for the internal token registers (R87). -/
theorem rleDecCmd_of_image {s : State} {d : List Byte} (h : s.decReady) (hi : ImageTokens s.pw s.h s.stream d) :
    ∃ code len val, rleDecCmd s = { s with
      status := stDone, strPos := s.strLen, row := s.height, col := 0, code := code, len := len, val := val,
      pkd := Memory.fill s.pkd 0 d.length (fun j => d.getD j 0) } := by
  have hst : s.stream = s.stream ++ [] := (List.append_nil _).symm
  obtain ⟨m, code, len, val, hm, hloop⟩ := loop_rows h le_rfl hi hst
  obtain ⟨fuel, hfuel, -⟩ := fuel_split h hst hm
  have ⟨hs, _⟩ := h
  refine ⟨code, len, val, ?_⟩
  rw [rleDecCmd_body h, rleDecBody, hfuel, hloop, rowsDone_of_image h hi, decodeLoop_stop (.inr rfl)]
  exact decodeEnd_of_rows hs rfl

/-- The packed image RLE_DEC leaves is the one its stream stands for. -/
theorem packedImage_rleDecCmd {s : State} {d : List Byte} (h : s.decReady) (hi : ImageTokens s.pw s.h s.stream d) :
    (rleDecCmd s).packedImage = d := by
  obtain ⟨code, len, val, hcmd⟩ := rleDecCmd_of_image h hi
  rw [hcmd]
  show Memory.slice (Memory.fill s.pkd 0 d.length fun j => d.getD j 0) 0 (s.pw * s.h) = d
  rw [Nat.mul_comm, ← hi.length_eq, Memory.slice_fill]

/-- Settles O43: the state is read off `rleDecCmd_of_image`, the image is what was filled into PKD. -/
theorem rleDecDecodesImage : Obligations.RleDecDecodesImage := by
  intro s d h hi
  obtain ⟨code, len, val, hcmd⟩ := rleDecCmd_of_image h hi
  exact ⟨rleDecCmd s, rfl, by rw [hcmd], packedImage_rleDecCmd h hi, fun _ => rleDec_above⟩

/-- RLE_DEC accepts only streams of the grammar (R74, R85). -/
theorem image_of_rleDecCmd {s : State} (h : s.decReady) (ht : ¬ (rleDecCmd s).faulted) :
    ∃ d, ImageTokens s.pw s.h s.stream d := by
  rw [rleDecCmd_body h, rleDecBody] at ht
  obtain ⟨-, hd, -, -, hpos⟩ := h
  obtain ⟨hnf, hrows⟩ := of_decodeEnd_not_faulted ht
  have hexhausted := (decodeLoop_ends (s := homed s) hd hpos (Nat.lt_succ_self _) (Nat.zero_le _)).resolve_left hnf
  have hcol : (homed s).c < (homed s).pw := (pw_bounds hd).1
  rcases decodeLoop_sound (s := homed s) hd hpos (Nat.zero_le _) hcol hnf hexhausted
      (hrows.trans (decodeLoop_h _ _)) with ⟨hr, -⟩ | ⟨-, e1, d1, e2, d2, hfirst, hfull, hrest, hst⟩
  · have hh : 0 = s.h := hr
    omega
  · have hh : s.h = s.h - 0 - 1 + 1 := by omega
    have hst : s.stream = e1 ++ e2 := hst
    rw [hh, hst]
    exact ⟨d1 ++ d2, .row hfirst ((Nat.zero_add _).symm.trans hfull) hrest⟩

/-- Settles O44: the stream is one of the grammar, so the image it stands for is the one RLE_DEC writes. -/
theorem rleDecAcceptsOnlyGrammar : Obligations.RleDecAcceptsOnlyGrammar := by
  intro s t hs hexec ht
  obtain rfl : rleDecCmd s = t := next_inj hexec
  have hready := decReady_of_done hs ht
  obtain ⟨d, hi⟩ := image_of_rleDecCmd hready ht
  rwa [packedImage_rleDecCmd hready hi]

end Sys2Proof.Machine

/-! # Proofs: the tokens one by one, the streams RLE_DEC refuses, and the round trips

A token that fits its row is one update of the state (`tokenWritten`), whichever its shape. Where the loop of RLE_DEC stands
after whole rows and part of a row is said once (`Reached`); a bad token, missing rows and surplus data are what happens next
from there. The round trips join the encoder's effect, said once for RLE_ENC (`rleEncCmd_of_fits`), to the decoder's. -/

namespace Sys2Proof.Machine

/-! ### A turn of the loop is exec of a token (40_rle_decoder.md R80, R83) -/

theorem runToken_of_repeat {s : State} (h : isRepeat s.code = true) : runToken s = repToken (tokenLength s.code) s :=
  if_pos h

theorem runToken_of_literal {s : State} (h : isRepeat s.code = false) : runToken s = litToken (tokenLength s.code) s :=
  if_neg (by simp [h])

/-- Where stream and image lie inside their memories, no token stops: exec of the one in CODE is the loop's micro-step. -/
theorem exec_decodeToken_code {s : State} (hs : ¬ s.faulted) (hstr : s.slen ≤ s.caps.str) (hr : s.r < s.h)
    (hpkd : s.pw * s.h ≤ s.caps.pkd) : exec (decodeToken s.code) s = .next (runToken s) := by
  obtain ⟨hrep, hlit⟩ := tokenLength_bounds s.code
  have hline : 0 < tokenLength s.code → tokenLength s.code ≤ s.pw - s.c →
      s.lineAddr s.c + tokenLength s.code ≤ s.caps.pkd := fun hn hrow => line_fits hr hn hrow hpkd
  cases hshape : isRepeat s.code with
  | true =>
    have := hrep hshape
    rw [decodeToken_of_repeat hshape, runToken_of_repeat hshape]
    exact execRep_next hs (by omega)
  | false =>
    have := hlit hshape
    rw [decodeToken_of_literal hshape, runToken_of_literal hshape]
    exact execLit_next hs (by omega)

/-- Settles O6: the turn runs the token in CODE after the fetch, and that is exec of it. -/
theorem decoderRunsDecodedToken : Obligations.DecoderRunsDecodedToken := by
  intro fuel s hs hpos hstr hr hpkd
  exact ⟨runToken (fetchControl s), exec_decodeToken_code (s := fetchControl s) hs hstr hr hpkd,
    decodeLoop_run hs (Nat.ne_of_lt hpos) (Nat.ne_of_lt hr)⟩

/-! ### LIT and REP (40_rle_decoder.md R81, R82, R84) -/

/-- `s` after a token of `size` stream bytes has put the `n` bytes `f` in its line, before the row advance. -/
def tokenPlaced (s : State) (n size : Nat) (f : Nat → Byte) : State :=
  { s with
    pkd := Memory.fill s.pkd (s.lineAddr s.c) n f
    strPos := BitVec.ofNat 33 (s.pos + size)
    col := BitVec.ofNat 16 (s.c + n) }

/-- `s` after a token that fits: its bytes are in the line and the row advance is made (R84). -/
def tokenWritten (s : State) (n size : Nat) (f : Nat → Byte) : State :=
  rowAdvance (tokenPlaced s n size f)

theorem litEmit_eq_tokenWritten (n : Nat) (s : State) :
    litEmit n s = tokenWritten s n (1 + n) (fun k => Memory.read s.str (s.pos + 1 + k)) := by
  rw [tokenWritten, tokenPlaced, ← Nat.add_assoc]; rfl

theorem repEmit_eq_tokenWritten (n : Nat) (s : State) : repEmit n s = tokenWritten s n 2 (fun _ => s.val) := rfl

/-- What a token that fits writes and what it leaves as it was. -/
theorem tokenWritten_facts {s : State} {n size : Nat} {f : Nat → Byte} (hd : s.dimsLegal) (hn : 1 ≤ n)
    (hrow : n ≤ s.pw - s.c) (hr : s.r < s.h) (hend : s.pos + size ≤ s.slen) :
    let t := tokenWritten s n size f
    t = { s with pkd := t.pkd, strPos := t.strPos, row := t.row, col := t.col } ∧
    t.pos = s.pos + size ∧
    (∀ k, k < n → Memory.read t.pkd (s.r * s.pw + s.c + k) = f k) ∧
    (∀ a, a < s.r * s.pw + s.c ∨ s.r * s.pw + s.c + n ≤ a → Memory.read t.pkd a = Memory.read s.pkd a) ∧
    (if s.c + n = s.pw then t.r = s.r + 1 ∧ t.c = 0 else t.r = s.r ∧ t.c = s.c + n) := by
  obtain ⟨hframe, hpos, hpkd, -, hcursors⟩ := advance_facts (u := tokenPlaced s n size f) hd hn hrow hr hend rfl
  have hfill : (tokenWritten s n size f).pkd = Memory.fill s.pkd (s.r * s.pw + s.c) n f := hpkd
  refine ⟨?_, hpos, fun k hk => ?_, fun a ha => ?_, hcursors⟩
  · rw [tokenWritten, hframe]; rfl
  · rw [hfill, Memory.read_fill_at hk]
  · rw [hfill]
    rcases ha with ha | ha
    · exact Memory.read_fill_of_lt ha
    · exact Memory.read_fill_of_ge ha

/-- Settles O40: a literal token overruns its row, or is cut short, or is `tokenWritten`. -/
theorem litExecutes : Obligations.LitExecutes := by
  refine ⟨fun code hbit => ?_, fun n s h1 _ hs hd =>
    ⟨fun hover => ?_, fun hrow hshort => ?_, fun hrow hend hstr hr hpkd => ?_⟩⟩
  · have hshape := (isRepeat_false_iff code).2 hbit
    rw [decodeToken_of_literal hshape, tokenLength_of_literal hshape]
  · exact (execLit_next hs (.inl hover)).trans (congrArg _ (litToken_overrun hover))
  · exact (execLit_next hs (.inr (.inl hshort))).trans (congrArg _ (litToken_truncated hrow hshort))
  · have hrun := execLit_next hs (.inr (.inr ⟨hend.trans hstr, line_fits hr h1 hrow hpkd⟩))
    rw [litToken_fits hrow hend, litEmit_eq_tokenWritten] at hrun
    have hfacts := tokenWritten_facts (s := { s with len := BitVec.ofNat 8 n }) (size := 1 + n)
      (f := fun k => Memory.read s.str (s.pos + 1 + k)) hd h1 hrow hr (by rwa [← Nat.add_assoc])
    rw [← Nat.add_assoc] at hfacts
    exact ⟨_, hrun, hfacts⟩

/-- Settles O41: a repeat token has no value byte, or overruns its row, or is `tokenWritten`. -/
theorem repExecutes : Obligations.RepExecutes := by
  refine ⟨fun code hbit => ?_, fun n s h3 _ hs hd =>
    ⟨fun hshort => ?_, fun hend hstr hover => ?_, fun hend hstr hrow hr hpkd => ?_⟩⟩
  · have hshape : isRepeat code = true := (isRepeat_iff code).2 (by rw [hbit]; decide)
    rw [decodeToken_of_repeat hshape, tokenLength_of_repeat hshape]
  · exact (execRep_next hs (.inl hshort)).trans (congrArg _ (repToken_truncated hshort))
  · exact (execRep_next hs (.inr ⟨hend.trans hstr, .inl hover⟩)).trans (congrArg _ (repToken_overrun hend hover))
  · have hn : 1 ≤ n := by omega
    have hrun := execRep_next hs (.inr ⟨hend.trans hstr, .inr (line_fits hr hn hrow hpkd)⟩)
    rw [repToken_fits hend hrow, repEmit_eq_tokenWritten] at hrun
    exact ⟨_, hrun, tokenWritten_facts
      (s := { s with len := BitVec.ofNat 8 n, val := Memory.read s.str (s.pos + 1) }) hd hn hrow hr hend⟩

/-! ### How many turns the loop takes (40_rle_decoder.md R92) -/

/-- A turn of the loop with stream left: it ends at a fault, or goes on from a state with at least two stream bytes less. -/
theorem decodeLoop_turn (fuel : Nat) {s : State} (hs : ¬ s.faulted) (hd : s.dimsLegal) (hp : s.pos < s.slen)
    (hr : s.r ≤ s.h) :
    (decodeLoop (fuel + 1) s).faulted ∨
    ∃ t, decodeLoop (fuel + 1) s = decodeLoop fuel t ∧ s.pos + 2 ≤ t.pos ∧ t.pos ≤ t.slen ∧ t.slen = s.slen ∧
      t.dimsLegal ∧ t.r ≤ t.h := by
  by_cases hrow : s.r = s.h
  · exact .inl (by rw [decodeLoop_surplus hs (Nat.ne_of_lt hp) hrow]; rfl)
  rw [decodeLoop_run hs (Nat.ne_of_lt hp) hrow]
  rcases runToken_cases s with ⟨f, code, len, val, -, -, hrun⟩ | hout | ⟨e, d, code, len, val, htok, -, hfit, hend, hrun⟩
  · exact .inl (by rw [hrun, decodeLoop_stop (.inl rfl)]; rfl)
  · omega
  · obtain ⟨hpos, -, hcursors⟩ :=
      rowAdvance_emitted (code := code) (len := len) (val := val) hd (by omega) hfit hend
    have hframe := rowAdvance_emitted_frame s d e.length code len val
    have hsize := htok.length_pos.2
    generalize rowAdvance (emitted s d e.length code len val) = t at hrun hpos hcursors hframe
    have hslen : t.slen = s.slen := by rw [hframe]; rfl
    have hh : t.h = s.h := by rw [hframe]; rfl
    have hdims : t.dimsLegal := by rw [hframe]; exact hd
    exact .inr ⟨t, by rw [hrun], by omega, by omega, hslen, hdims, by split at hcursors <;> omega⟩

/-- With one turn more than half the bytes left, the loop ends at a fault or with the stream exhausted. -/
theorem decodeLoop_ends_of_half {fuel : Nat} {s : State} (hd : s.dimsLegal) (hp : s.pos ≤ s.slen) (hr : s.r ≤ s.h)
    (hfuel : (s.slen - s.pos) / 2 < fuel) :
    (decodeLoop fuel s).faulted ∨ (decodeLoop fuel s).pos = (decodeLoop fuel s).slen := by
  induction fuel generalizing s with
  | zero => omega
  | succ fuel ih =>
    by_cases hstop : s.faulted ∨ s.pos = s.slen
    · rwa [decodeLoop_stop hstop]
    obtain ⟨hs, hne⟩ := not_or.1 hstop
    rcases decodeLoop_turn fuel hs hd (by omega) hr with hfault | ⟨t, hloop, htwo, hle, hslen, htd, htr⟩
    · exact .inl hfault
    · rw [hloop]
      exact ih htd hle htr (by omega)

/-- Settles O47: the loop has ended, and an ended loop stays where it is. -/
theorem rleDecTerminates : Obligations.RleDecTerminates := by
  intro fuel s hd hp hr hfuel
  have hends := decodeLoop_ends_of_half hd hp hr hfuel
  refine ⟨by rwa [decodeLoop_slen] at hends, fun more => ?_⟩
  rw [decodeLoop_add, decodeLoop_stop hends]

/-! ### Where the loop stands inside the stream (40_rle_decoder.md R86, R88) -/

/-- `t` is a state of the loop at a token boundary: the tokens `e` are behind it and their bytes `d` in PKD, the cursors at row
`k`, column `c`; nothing else has changed but the internal token registers. -/
structure Reached (s t : State) (k c : Nat) (e d : List Byte) : Prop where
  pos : t.pos = s.pos + e.length
  row : t.r = k
  col : t.c = c
  frame : t = { s with
    strPos := t.strPos, row := t.row, col := t.col, code := t.code, len := t.len, val := t.val,
    pkd := Memory.fill s.pkd 0 d.length (fun j => d.getD j 0) }

section
variable {s t : State} {k c : Nat} {e d : List Byte}

theorem Reached.not_faulted (h : Reached s t k c e d) (hs : ¬ s.faulted) : ¬ t.faulted := by
  rw [h.frame]; exact hs

theorem Reached.dims (h : Reached s t k c e d) : t.pw = s.pw ∧ t.h = s.h ∧ t.slen = s.slen ∧ t.str = s.str := by
  rw [h.frame]; exact ⟨rfl, rfl, rfl, rfl⟩

theorem Reached.slice_pkd (h : Reached s t k c e d) : Memory.slice t.pkd 0 d.length = d := by
  rw [h.frame]; exact Memory.slice_fill _ _ _

theorem Reached.packedImage (h : Reached s t k c e d) (hd : d.length = s.pw * s.h) : t.packedImage = d := by
  obtain ⟨hpw, hh, -⟩ := h.dims
  rw [State.packedImage, hpw, hh, ← hd, h.slice_pkd]

theorem Reached.read_pkd_above (h : Reached s t k c e d) {a : Nat} (ha : d.length ≤ a) :
    Memory.read t.pkd a = Memory.read s.pkd a := by
  rw [h.frame]; exact Memory.read_fill_of_ge (by omega)

/-- A fault recorded there changes STATUS and FAULT alone. -/
theorem Reached.raise_frame (h : Reached s t k c e d) (f : FaultCode) (sub : Nat) (code len val : Byte) :
    let u := raise f sub 0x3 { t with code := code, len := len, val := val }
    u = { s with
      status := stFaulted, fault := faultWord f sub 0x3, strPos := u.strPos, row := u.row, col := u.col,
      code := u.code, len := u.len, val := u.val, pkd := u.pkd } := by
  rw [h.frame]; rfl
end

/-- After whole rows alone: at the start of row `k`, which is the end of the image when `k` is the height. -/
theorem reached_rows {s : State} (h : s.decReady) {k : Nat} {e d rest : List Byte} (hk : k ≤ s.h)
    (hi : ImageTokens s.pw k e d) (hst : s.stream = e ++ rest) :
    ∃ fuel t, Reached s t k 0 e d ∧ rleDecCmd s = decodeEnd (decodeLoop (fuel + 1) t) := by
  obtain ⟨m, code, len, val, hm, hloop⟩ := loop_rows h hk hi hst
  obtain ⟨fuel, hfuel, -⟩ := fuel_split h hst hm
  obtain ⟨hpos, hrow, hcol, -, -, -, -, -, hpkd, -⟩ := rowsDone_facts h code len val hk hi hst
  refine ⟨fuel, _, ⟨hpos, hrow, hcol, ?_⟩, ?_⟩
  · rw [← hpkd]; rfl
  · rw [rleDecCmd_body h, rleDecBody, hfuel, hloop]

/-- After whole rows and part of a row. -/
theorem reached_partial {s : State} (h : s.decReady) {k : Nat} {e1 d1 e2 d2 rest : List Byte} (hk : k < s.h)
    (hi : ImageTokens s.pw k e1 d1) (hr : RowTokens e2 d2) (hd2 : d2.length < s.pw) (hst : s.stream = e1 ++ e2 ++ rest) :
    ∃ fuel t, Reached s t k d2.length (e1 ++ e2) (d1 ++ d2) ∧ rleDecCmd s = decodeEnd (decodeLoop (fuel + 1) t) := by
  obtain ⟨m, code, len, val, t, hm, hloop, hpos, hrow, hcol, -, hframe⟩ := loop_partial h hk hi hr hd2 hst
  obtain ⟨fuel, hfuel, -⟩ := fuel_split h hst hm
  refine ⟨fuel, t, ⟨hpos, hrow, hcol, ?_⟩, ?_⟩
  · rw [hframe]
  · rw [rleDecCmd_body h, rleDecBody, hfuel, hloop]

theorem exec_rleDec {s t : State} (h : rleDecCmd s = t) : exec .rleDec s = .next t := congrArg Host.Outcome.next h

/-! ### A bad token (40_rle_decoder.md R86) -/

/-- A whole token that fits its row and the stream is not a bad one. -/
theorem IsToken.tokenFault_eq_none {code : Byte} {payload d : List Byte} (h : IsToken (code :: payload) d) {left avail : Nat}
    (hrow : d.length ≤ left) (hend : payload.length ≤ avail) : tokenFault code left avail = none := by
  rcases h with ⟨raw, h1, h2, he, rfl⟩ | ⟨n, v, h1, h2, he, rfl⟩
  · obtain ⟨rfl, rfl⟩ := List.cons.inj he
    obtain ⟨hshape, hlen⟩ := control_of_lit h1 h2
    rw [tokenFault, hshape, hlen, if_neg (by simp), if_neg (by omega), if_neg (by omega)]
  · obtain ⟨rfl, rfl⟩ := List.cons.inj he
    obtain ⟨hshape, hlen⟩ := control_of_rep h1 h2
    rw [List.length_replicate] at hrow
    rw [List.length_singleton] at hend
    rw [tokenFault, hshape, hlen, if_pos rfl, if_neg (by omega), if_neg (by omega)]

/-- The loop's micro-step at a bad token records its fault and writes nothing but the internal token registers (R88). -/
theorem runToken_of_tokenFault {s : State} {f : FaultCode} (hp : s.pos < s.slen)
    (h : tokenFault (Memory.read s.str s.pos) (s.pw - s.c) (s.slen - (s.pos + 1)) = some f) :
    ∃ code len val, runToken (fetchControl s) = raise f 0 0x3 { s with code := code, len := len, val := val } := by
  rcases runToken_cases s with ⟨f', code, len, val, -, hf', hrun⟩ | hout | ⟨e, d, _, _, _, htok, hslice, hfit, hend, -⟩
  · obtain rfl : f' = f := Option.some.inj (hf'.symm.trans h)
    exact ⟨code, len, val, hrun⟩
  · omega
  · obtain ⟨n, hn⟩ : ∃ n, e.length = n + 1 := ⟨e.length - 1, by have := htok.length_pos; omega⟩
    rw [hn, Memory.slice_succ] at hslice
    subst hslice
    rw [htok.tokenFault_eq_none (by omega) (by rw [Memory.length_slice]; omega)] at h
    cases h

/-- Settles O45: the loop reaches the bad token, whose fault ends it. -/
theorem rleDecBadToken : Obligations.RleDecBadToken := by
  intro s k e1 d1 e2 d2 rest code f h hk hi hr hd2 hst hfault
  have ⟨hs, _, _, _, hle⟩ := h
  obtain ⟨fuel, t, ht, hcmd⟩ := reached_partial h hk hi hr hd2 hst
  obtain ⟨hpw, hh, hslen, hstr⟩ := ht.dims
  obtain ⟨hend, -, hrest⟩ := slice_of_stream hle hst
  rw [← ht.pos, ← hstr, List.length_cons, Memory.slice_succ] at hrest
  obtain ⟨hcode, -⟩ := List.cons.inj hrest
  have hpos := ht.pos
  have hrow := ht.row
  rw [List.length_cons] at hend
  obtain ⟨code', len, val, hrun⟩ := runToken_of_tokenFault (s := t) (f := f) (by omega) (by
    rw [hcode, hpw, ht.col, hslen, show s.slen - (t.pos + 1) = rest.length by omega]; exact hfault)
  rw [decodeLoop_run (ht.not_faulted hs) (by omega) (by omega), hrun, decodeLoop_stop (.inl rfl),
    decodeEnd_faulted rfl] at hcmd
  exact ⟨_, exec_rleDec hcmd, ht.raise_frame f 0 code' len val, ht.pos, ht.row, ht.col, ht.slice_pkd,
    fun _ => ht.read_pkd_above⟩

/-! ### Rows missing, and data after the last row (40_rle_decoder.md R85) -/

theorem decodeEnd_of_missing_rows {s : State} (hs : ¬ s.faulted) (hr : s.r ≠ s.h) :
    decodeEnd s = raise .corruptStream 1 0x3 s := by
  rw [decodeEnd, if_neg hs, if_pos hr]

/-- Settles O46: at the end of the stream the rows are counted, and before any further token. -/
theorem rleDecSizeMismatch : Obligations.RleDecSizeMismatch := by
  refine ⟨fun s k e1 d1 e2 d2 h hk hi hr hd2 hst => ?_, fun s e1 d1 rest h hi hrest hst => ?_⟩
  · have ⟨hs, _, _, _, hle⟩ := h
    have hst' : s.stream = e1 ++ e2 ++ [] := by rw [hst, List.append_nil]
    obtain ⟨fuel, t, ht, hcmd⟩ := reached_partial h hk hi hr hd2 hst'
    obtain ⟨-, hh, hslen, -⟩ := ht.dims
    have hpos : t.pos = s.slen := ht.pos.trans (slice_of_stream hle hst').1
    have hrow := ht.row
    have hstrPos : t.strPos = s.strLen := BitVec.eq_of_toNat_eq hpos
    rw [decodeLoop_stop (.inr (hpos.trans hslen.symm)), decodeEnd_of_missing_rows (ht.not_faulted hs) (by omega)] at hcmd
    refine ⟨_, exec_rleDec hcmd, ?_, ht.row, ht.col, ht.slice_pkd, fun _ => ht.read_pkd_above⟩
    exact (ht.raise_frame .corruptStream 1 t.code t.len t.val).trans (by rw [raise_strPos, hstrPos]; rfl)
  · have ⟨hs, _, _, _, hle⟩ := h
    obtain ⟨fuel, t, ht, hcmd⟩ := reached_rows h le_rfl hi hst
    obtain ⟨-, hh, hslen, -⟩ := ht.dims
    have hmore := List.length_pos_iff.2 hrest
    have hpos : t.pos ≠ t.slen := by
      have := (slice_of_stream hle hst).1
      rw [ht.pos, hslen]; omega
    have hrow : t.row = s.height := BitVec.eq_of_toNat_eq ht.row
    have hcol : t.col = 0 := BitVec.eq_of_toNat_eq ht.col
    rw [decodeLoop_surplus (ht.not_faulted hs) hpos (ht.row.trans hh.symm), decodeEnd_faulted rfl] at hcmd
    have hlen : d1.length = s.pw * s.h := hi.length_eq.trans (Nat.mul_comm _ _)
    refine ⟨_, exec_rleDec hcmd, ?_, ht.pos, ht.packedImage hlen, fun a ha => ht.read_pkd_above (hlen ▸ ha)⟩
    exact (ht.raise_frame .corruptStream 1 t.code t.len t.val).trans (by rw [raise_row, raise_col, hrow, hcol]; rfl)

/-! ### Row independence (40_rle_decoder.md R89) -/

/-- Settles O48: streams of the grammar follow one another. -/
theorem rowIndependence : Obligations.RowIndependence := by
  intro a ta b tb s ha hb hexecA htA hexecB htB h hpwA hpwB hh hst
  have hiA := rleDecAcceptsOnlyGrammar a ta ha hexecA htA
  have hiB := rleDecAcceptsOnlyGrammar b tb hb hexecB htB
  rw [← hpwA] at hiA
  rw [← hpwB] at hiB
  have hi : ImageTokens s.pw s.h s.stream (ta.packedImage ++ tb.packedImage) := by
    rw [hh, hst]; exact hiA.append hiB
  obtain ⟨t, hexec, hframe, himage, -⟩ := rleDecDecodesImage s _ h hi
  exact ⟨t, hexec, by rw [hframe], himage⟩

/-! ### RLE_DEC after RLE_ENC (40_rle_decoder.md R90) -/

/-- The row loop on an image whose stream fits: the stream is appended, and the cursors end past the last row. -/
theorem encodeRows_of_fits {s : State} (h : s.encReady) (hcap : s.caps.str < 2 ^ 33)
    (hfit : s.pos + s.encodedImage.length ≤ s.caps.str) :
    ∃ rfLen rfPos, encodeRows s.h (homed s) = cursors rfLen rfPos 0 s.height (appended s.encodedImage s) := by
  obtain ⟨hs, hd, -, hp⟩ := h
  have hout := encodeRows_out (fuel := s.h) (s := homed s) hcap hs hp hd rfl (Nat.zero_add s.h).le
  have hend := encodeRows_end (fuel := s.h) (s := homed s) hs hd rfl (Nat.zero_add s.h).le hd.2.2.1
  rw [encodedImage_eq] at hfit ⊢
  rcases hout with ⟨-, rfLen, rfPos, col, row, hloop⟩ | ⟨hover, -⟩
  · rw [hloop] at hend ⊢
    obtain ⟨hrow, hcol, -⟩ := hend hs
    have hrow : row = s.height := hrow.trans (by simp [State.r, State.h])
    have hcol : col = 0 := hcol
    rw [hrow, hcol]
    exact ⟨rfLen, rfPos, rfl⟩
  · exact absurd hfit (Nat.not_le_of_gt hover)

/-- RLE_ENC on an image whose stream fits: the whole state it leaves but for the run finder's registers (41_rle_encoder.md
R108). -/
theorem rleEncCmd_of_fits {s : State} (h : s.encReady) (hcap : s.caps.str < 2 ^ 33)
    (hfit : s.pos + s.encodedImage.length ≤ s.caps.str) :
    ∃ rfLen rfPos, rleEncCmd s = { appended s.encodedImage s with
      status := stDone, strLen := (appended s.encodedImage s).strPos, row := s.height, col := 0,
      rfLen := rfLen, rfPos := rfPos } := by
  obtain ⟨rfLen, rfPos, hrows⟩ := encodeRows_of_fits h hcap hfit
  have ⟨hs, _⟩ := h
  have hnf : ¬ (cursors rfLen rfPos 0 s.height (appended s.encodedImage s)).faulted := hs
  refine ⟨rfLen, rfPos, ?_⟩
  rw [rleEncCmd_body h, rleEncBody, hrows, encodeEnd, if_neg hnf]
  rfl

theorem encodeEnd_of_faulted {s : State} (h : s.faulted) : encodeEnd s = s := if_pos h

/-- RLE_ENC completes only when the whole stream fits (R109). -/
theorem fits_of_rleEncCmd {s : State} (h : s.encReady) (hcap : s.caps.str < 2 ^ 33) (ht : ¬ (rleEncCmd s).faulted) :
    s.pos + s.encodedImage.length ≤ s.caps.str := by
  rw [rleEncCmd_body h, rleEncBody] at ht
  obtain ⟨hs, hd, -, hp⟩ := h
  rw [encodedImage_eq]
  rcases encodeRows_out (fuel := s.h) (s := homed s) hcap hs hp hd rfl (Nat.zero_add s.h).le with
    ⟨hfit, -⟩ | ⟨-, _, _, _, _, _, -, -, hloop⟩
  · exact hfit
  · rw [hloop, encodeEnd_of_faulted rfl] at ht
    exact absurd rfl ht

/-- The encoder's stream is one of the grammar, and stands for the image it was made from. -/
theorem encodedImage_tokens (s : State) : ImageTokens s.pw s.h s.encodedImage s.packedImage := by
  rw [encodedImage_eq, packedImage_eq]
  exact rows_tokens s.packedRow (fun _ => Memory.length_slice _ _ _) 0 s.h

/-- The stream of a state whose STR, from STR_POS to STR_LEN, is what `s` appended. -/
theorem stream_of_appended {s u : State} {bs : List Byte} (h : s.pos + bs.length < 2 ^ 33) (hstr : u.str = (appended bs s).str)
    (hpos : u.pos = s.pos) (hlen : u.slen = (appended bs s).pos) : u.stream = bs := by
  rw [State.stream, hstr, hpos, hlen, appended_pos h, Nat.add_sub_cancel_left]
  exact Memory.slice_fill _ _ _

/-- Settles O55: RLE_DEC finds the encoder's stream, which stands for the packed image. -/
theorem rleRoundTrip : Obligations.RleRoundTrip := by
  intro s t u hs ⟨_, hcap, _⟩ hexec ht hu hstr hlen hpos hw hh hcaps
  obtain rfl : rleEncCmd s = t := next_inj hexec
  have hready := encReady_of_done hs ht
  have hfit := fits_of_rleEncCmd hready hcap ht
  obtain ⟨rfLen, rfPos, hcmd⟩ := rleEncCmd_of_fits hready hcap hfit
  obtain ⟨-, hd, hpkd, -⟩ := hready
  rw [hcmd] at hstr hlen hw hh hcaps
  have hend := appended_pos (bs := s.encodedImage) (s := s) (by omega)
  have hupos : u.pos = s.pos := congrArg BitVec.toNat hpos
  have huslen : u.slen = (appended s.encodedImage s).pos := congrArg BitVec.toNat hlen
  have huw : u.w = s.w := congrArg BitVec.toNat hw
  have huh : u.h = s.h := congrArg BitVec.toNat hh
  have hupw : u.pw = s.pw := by rw [State.pw, huw]; rfl
  have hucaps : u.caps = s.caps := hcaps
  have hst : u.stream = s.encodedImage := stream_of_appended (by omega) hstr hupos huslen
  have hdec : u.decReady := by
    refine ⟨hu, ?_, ?_, ?_, ?_⟩
    · rwa [State.dimsLegal, huw, huh]
    · rwa [hupw, huh, hucaps]
    · rwa [huslen, hend, hucaps]
    · rw [hupos, huslen, hend]; omega
  obtain ⟨v, hdexec, hframe, himage, -⟩ := rleDecDecodesImage u s.packedImage hdec (by
    rw [hupw, huh, hst]; exact encodedImage_tokens s)
  exact ⟨v, hdexec, by rw [hframe], himage⟩

/-! ### DECODE after ENCODE (44_scanline_buffer_controller.md R153) -/

/-- UNPACK at a state whose packed image is what PACK makes of the pixels of `s` gives the low nibble of each (R131). -/
theorem unpackCmd_of_packedOf {s v : State} (hv : v.packReady) (hw : v.w = s.w) (hh : v.h = s.h) (hctrl : v.ctrl = s.ctrl)
    (hpkd : ∀ r c, r < s.h → c < s.pw → Memory.read v.pkd (r * s.pw + c) = s.packedOf r c) {a : Nat} (ha : a < s.w * s.h) :
    Memory.read (unpackCmd v).pix a = Memory.read s.pix a &&& 0x0F#8 := by
  have ⟨_, _, _, _, heven⟩ := hv
  have hpw : v.pw = s.pw := by rw [State.pw, hw]; rfl
  have haddr : v.pixAddr = s.pixAddr := by
    funext r x
    rw [State.pixAddr, State.extRow, State.topDown, hctrl, hh, hw]; rfl
  obtain ⟨r, x, hr, hx, rfl⟩ := exists_pixel ha
  have htwo := two_pw (s := s) (hw ▸ heven)
  rw [unpackCmd_body hv]
  show Memory.read (overRows unpackRow v.h 0 v).pix (s.pixAddr r x) = _
  rw [← haddr, unpackRows_read heven (Nat.zero_add v.h).le (Nat.zero_le r) (by omega) (by omega), haddr, State.pixelOf,
    State.packedAddr, hpw, hpkd r (x / 2) hr (by omega)]
  split
  next hleft => rw [unpackLeft_pack2, show 2 * (x / 2) = x by omega]
  next hright => rw [unpackRight_pack2, show 2 * (x / 2) + 1 = x by omega]

/-- Equal packed images of the same dimensions are equal byte by byte. -/
theorem read_pkd_of_packedImage {s v : State} (hpw : v.pw = s.pw) (hh : v.h = s.h) (h : v.packedImage = s.packedImage)
    {r c : Nat} (hr : r < s.h) (hc : c < s.pw) :
    Memory.read v.pkd (r * s.pw + c) = Memory.read s.pkd (r * s.pw + c) := by
  have hlt : r * s.pw + c < s.pw * s.h := Nat.mul_comm s.h s.pw ▸ mul_add_lt hr hc
  have hread := congrArg (fun bs : List Byte => bs.getD (r * s.pw + c) 0) h
  unfold State.packedImage at hread
  rw [hpw, hh] at hread
  simpa only [Memory.getD_slice hlt, Nat.zero_add] using hread

/-- The header HDR_WR writes, read back as HDR_RD does, whatever follows it (R141, R142). -/
theorem headerDims_of_write {s t : State} (hd : s.dimsLegal)
    (h : ∀ a, a < 4 → Memory.read t.str a = Memory.read (Memory.write16 (Memory.write16 s.str 0 (s.w - 1)) 2 (s.h - 1)) a) :
    t.headerWidth = s.w ∧ t.headerHeight = s.h := by
  have hbytes : ∀ n, 1 ≤ n → n ≤ 65536 →
      (BitVec.ofNat 8 (n - 1)).toNat + 256 * (BitVec.ofNat 8 ((n - 1) / 256)).toNat + 1 = n := by
    intro n h1 h2
    rw [BitVec.toNat_ofNat, BitVec.toNat_ofNat]; omega
  obtain ⟨hw1, hw2, hh1, hh2⟩ := hd
  simp only [hdrWr_read] at h
  constructor
  · rw [State.headerWidth, h 0 (by decide), h 1 (by decide)]; exact hbytes _ hw1 hw2
  · rw [State.headerHeight, h 2 (by decide), h 3 (by decide)]; exact hbytes _ hh1 hh2

/-- ENCODE completes only when each of its constituents does. -/
theorem encode_not_faulted {s : State} (h : ¬ (rleEncCmd (hdrWrCmd (packCmd s))).faulted) :
    ¬ (packCmd s).faulted ∧ ¬ (hdrWrCmd (packCmd s)).faulted := by
  have hwr : ¬ (hdrWrCmd (packCmd s)).faulted := fun hf => h (by rwa [rleEnc_of_faulted hf])
  exact ⟨fun hf => hwr (by rwa [hdrWr_of_faulted hf]), hwr⟩

/-- What ENCODE leaves in STR when it completes, as HDR_RD sees it: the header stands, and the stream ends inside STR. -/
theorem header_of_encode {q : State} (hq : ¬ q.faulted) (hcap : q.caps.str < 2 ^ 33) (hpos : q.pos = 4)
    (ht : ¬ (rleEncCmd q).faulted) :
    (∀ a, a < 4 → Memory.read (rleEncCmd q).str a = Memory.read q.str a) ∧
    4 ≤ (rleEncCmd q).slen ∧ (rleEncCmd q).slen ≤ q.caps.str := by
  have hready := encReady_of_done hq ht
  have hfit := fits_of_rleEncCmd hready hcap ht
  obtain ⟨rfLen, rfPos, hcmd⟩ := rleEncCmd_of_fits hready hcap hfit
  have hend := appended_pos (bs := q.encodedImage) (s := q) (by omega)
  have hslen : (rleEncCmd q).slen = (appended q.encodedImage q).pos := by rw [hcmd]; rfl
  refine ⟨fun a ha => ?_, by omega, by omega⟩
  exact (rleEncCmd_strAppended hcap).2 a (.inl (by omega))

/-- HDR_RD after ENCODE's last two constituents reads the dimensions that stand in WIDTH and HEIGHT. -/
theorem hdrRdCmd_of_encode {p : State} (hp : ¬ p.faulted) (hd : p.dimsLegal) (hcaps : p.caps.legal)
    (ht : ¬ (rleEncCmd (hdrWrCmd p)).faulted) :
    hdrRdCmd (rleEncCmd (hdrWrCmd p)) = { rleEncCmd (hdrWrCmd p) with strPos := 4, status := stDone } := by
  obtain ⟨h4, hcap, -⟩ := hcaps
  have hwr := hdrWr_body hp hd h4
  have hq : ¬ (hdrWrCmd p).faulted := by rw [hwr]; exact stDone_ne_stFaulted
  have hqcaps : (hdrWrCmd p).caps = p.caps := by rw [hwr]; rfl
  have hqpos : (hdrWrCmd p).pos = 4 := by rw [hwr]; rfl
  obtain ⟨hheader, hlow, hhigh⟩ := header_of_encode hq (hqcaps ▸ hcap) hqpos ht
  obtain ⟨hw, hh⟩ := headerDims_of_write (t := rleEncCmd (hdrWrCmd p)) hd fun a ha => by
    rw [hheader a ha, hwr]; rfl
  have hframe : EncFrame (hdrWrCmd p) (rleEncCmd (hdrWrCmd p)) := rleEncCmd_frame _
  have hwidth : (rleEncCmd (hdrWrCmd p)).width = p.width := by rw [hframe, hwr]; rfl
  have hheight : (rleEncCmd (hdrWrCmd p)).height = p.height := by rw [hframe, hwr]; rfl
  have htcaps : (rleEncCmd (hdrWrCmd p)).caps = (hdrWrCmd p).caps := by rw [hframe]
  rw [hdrRd_body ht (htcaps ▸ hhigh) hlow, hw, hh, State.w, State.h, BitVec.ofNat_toNat, BitVec.ofNat_toNat,
    BitVec.setWidth_eq, BitVec.setWidth_eq, ← hwidth, ← hheight]

/-- After PACK each packed byte holds its two pixels (43_nibble_packer.md R126). -/
theorem packCmd_read {s : State} (h : s.packReady) {r c : Nat} (hr : r < s.h) (hc : c < s.pw) :
    Memory.read (packCmd s).pkd (r * s.pw + c) = s.packedOf r c := by
  rw [packCmd_body h]
  exact packRows_read (Nat.zero_le r) (by omega) hc

theorem packReady_of_eq {s v : State} (h : s.packReady) (hv : ¬ v.faulted) (hwidth : v.width = s.width)
    (hheight : v.height = s.height) (hcaps : v.caps = s.caps) : v.packReady := by
  unfold State.packReady State.dimsLegal State.pw State.w State.h
  rw [hwidth, hheight, hcaps]
  exact ⟨hv, h.2⟩

/-- ENCODE and the first two constituents of DECODE: the dimensions, the pixels and the packed image stand. -/
theorem rleDecCmd_after_encode {s : State} (h : s.packReady) (hcaps : s.caps.legal)
    (ht : ¬ (rleEncCmd (hdrWrCmd (packCmd s))).faulted) :
    let v := rleDecCmd (hdrRdCmd (rleEncCmd (hdrWrCmd (packCmd s))))
    v.status = stDone ∧ v.packedImage = (packCmd s).packedImage ∧ v.width = s.width ∧ v.height = s.height ∧
    v.ctrl = s.ctrl ∧ v.caps = s.caps ∧ v.pix = s.pix := by
  obtain ⟨hp, hq⟩ := encode_not_faulted ht
  have ⟨_, hd, _⟩ := h
  have hpack := packCmd_body h
  have hpd : (packCmd s).dimsLegal := by rw [hpack]; exact hd
  have hpcaps : (packCmd s).caps.legal := by rw [hpack]; exact hcaps
  have hrd := hdrRdCmd_of_encode hp hpd hpcaps ht
  have hwr := hdrWr_body hp hpd hpcaps.1
  have henc : EncFrame (hdrWrCmd (packCmd s)) (rleEncCmd (hdrWrCmd (packCmd s))) := rleEncCmd_frame _
  have hqcaps : (hdrWrCmd (packCmd s)).caps = s.caps := by rw [hwr, hpack]; rfl
  obtain ⟨v, hexec, hdone, himage⟩ := rleRoundTrip (hdrWrCmd (packCmd s)) _ (hdrRdCmd (rleEncCmd (hdrWrCmd (packCmd s)))) hq
    (hqcaps ▸ hcaps) rfl ht (by rw [hrd]; exact stDone_ne_stFaulted) (by rw [hrd]) (by rw [hrd])
    (by rw [hrd, hwr]; rfl) (by rw [hrd]) (by rw [hrd]) (by rw [hrd])
  obtain rfl : rleDecCmd _ = v := next_inj hexec
  refine ⟨hdone, himage.trans (by rw [hwr]; rfl), ?_⟩
  rw [rleDecCmd_frame, hrd, henc, hwr, hpack]
  exact ⟨rfl, rfl, rfl, rfl, rfl⟩

/-- Settles O58: the packed image comes back, and UNPACK of it is the low nibble of every pixel, which is the whole of it. -/
theorem encodeThenDecode : Obligations.EncodeThenDecode := by
  intro s t hs hcaps hpixels hexec ht
  obtain rfl : rleEncCmd (hdrWrCmd (packCmd s)) = t := next_inj hexec
  have hready : s.packReady := packReady_of_done hs (encode_not_faulted ht).1
  obtain ⟨hdone, himage, hwidth, hheight, hctrl, hvcaps, hpix⟩ := rleDecCmd_after_encode hready hcaps ht
  refine ⟨_, rfl, ?_⟩
  generalize rleDecCmd (hdrRdCmd (rleEncCmd (hdrWrCmd (packCmd s)))) = v at *
  have hv : v.packReady :=
    packReady_of_eq hready (by rw [State.faulted, hdone]; exact stDone_ne_stFaulted) hwidth hheight hvcaps
  have hw : v.w = s.w := congrArg BitVec.toNat hwidth
  have hh : v.h = s.h := congrArg BitVec.toNat hheight
  have hpacked : ∀ r c, r < s.h → c < s.pw → Memory.read v.pkd (r * s.pw + c) = s.packedOf r c := by
    intro r c hr hc
    have hpack := packCmd_body hready
    have hppw : (packCmd s).pw = s.pw := by rw [hpack]; rfl
    have hph : (packCmd s).h = s.h := by rw [hpack]; rfl
    have hvpw : v.pw = s.pw := by rw [State.pw, hw]; rfl
    have hsame := read_pkd_of_packedImage (hvpw.trans hppw.symm) (hh.trans hph.symm) himage (hph ▸ hr) (hppw ▸ hc)
    rw [hppw] at hsame
    rw [hsame, packCmd_read hready hr hc]
  refine ⟨by rw [unpackCmd_body hv], by rw [unpackCmd_body hv]; exact hwidth, by rw [unpackCmd_body hv]; exact hheight,
    fun a => ?_⟩
  rcases Nat.lt_or_ge a (s.w * s.h) with ha | ha
  · have := hpixels a ha
    rw [unpackCmd_of_packedOf hv hw hh hctrl hpacked ha, and_0F_of_lt (by omega)]
  · rw [unpack_above (by rwa [hw, hh]), hpix]

end Sys2Proof.Machine

/-! # Proofs: what RLE_ENC writes

A stream that fits and one that does not are the two outcomes of the row loop (`rleEncCmd_of_fits`, `encodeRows_overflow`); in
both STR holds what was `appended` to it. The size of the stream follows from the grammar it belongs to. -/

namespace Sys2Proof.Machine

/-! ### The rows the spec encodes by hand (41_rle_encoder.md R106, R107) -/

/-- Settles O54: three fixed rows, evaluated. -/
theorem encoderExamples : Obligations.EncoderExamples := by
  unfold Obligations.EncoderExamples
  decide

/-! ### A stream that fits (R108) -/

theorem slice_appended (bs : List Byte) (s : State) : Memory.slice (appended bs s).str s.pos bs.length = bs :=
  Memory.slice_fill _ _ _

theorem encodeEnd_runFinder (s : State) : (encodeEnd s).rfLen = s.rfLen ∧ (encodeEnd s).rfPos = s.rfPos := by
  unfold encodeEnd
  split <;> exact ⟨rfl, rfl⟩

/-- When RLE_ENC completes, RF_LEN and RF_POS hold the last run-finder call of the last row. -/
theorem rleEncCmd_lastRun {s : State} (h : s.encReady) (ht : ¬ (rleEncCmd s).faulted) :
    ((rleEncCmd s).rfLen.toNat, (rleEncCmd s).rfPos.toNat) = lastRun s.pw (s.packedRow (s.h - 1)) := by
  rw [rleEncCmd_body h, rleEncBody] at ht ⊢
  have hrows : ¬ (encodeRows s.h (homed s)).faulted := fun hf => ht (by rwa [encodeEnd_of_faulted hf])
  obtain ⟨hs, hd, -⟩ := h
  have ⟨_, _, hh, _⟩ := hd
  obtain ⟨-, -, hlast⟩ := encodeRows_end (s := homed s) hs hd rfl (Nat.zero_add s.h).le hh hrows
  obtain ⟨hlen, hpos⟩ := encodeEnd_runFinder (encodeRows s.h (homed s))
  rw [hlen, hpos, hlast]
  show lastRun s.pw (s.packedRow (0 + s.h - 1)) = _
  rw [Nat.zero_add]

/-- Settles O50: the stream is appended to STR, and the run finder's registers are those of the last row's last call. -/
theorem rleEncEmitsGreedyStream : Obligations.RleEncEmitsGreedyStream := by
  intro s h ⟨_, hcap, _⟩ hfit
  obtain ⟨rfLen, rfPos, hcmd⟩ := rleEncCmd_of_fits h hcap hfit
  have hpos : (rleEncCmd s).pos = s.pos + s.encodedImage.length := by
    rw [hcmd]; exact appended_pos (by omega)
  have hslice : Memory.slice (rleEncCmd s).str s.pos s.encodedImage.length = s.encodedImage := by
    rw [hcmd]; exact slice_appended _ s
  have hdone : ¬ (rleEncCmd s).faulted := by rw [hcmd]; exact stDone_ne_stFaulted
  refine ⟨rleEncCmd s, rfl, ?_, hpos, hslice, (rleEncCmd_strAppended hcap).2, rleEncCmd_lastRun h hdone⟩
  rw [hcmd]
  rfl

/-! ### The size of the stream (R110) -/

theorem length_encodedImage_le (s : State) : s.encodedImage.length ≤ 2 * (s.pw * s.h) := by
  have hsize := (encodedImage_tokens s).size_le
  rwa [State.packedImage, Memory.length_slice] at hsize

/-- Settles O52: a token costs at most twice the bytes it stands for, so the stream fits and RLE_ENC completes. -/
theorem rleEncSizeBound : Obligations.RleEncSizeBound := by
  refine ⟨length_encodedImage_le, fun s hs hd hpkd hcaps hpos hroom => ?_⟩
  have hsize := length_encodedImage_le s
  obtain ⟨t, hexec, hframe, -⟩ := rleEncEmitsGreedyStream s ⟨hs, hd, hpkd, by omega⟩ hcaps (by omega)
  exact ⟨t, hexec, by rw [hframe]⟩

/-! ### A stream that does not fit (R109) -/

/-- The row loop faults on an image whose stream does not fit. -/
theorem encodeRows_faulted_of_overflow {s : State} (h : s.encReady) (hcap : s.caps.str < 2 ^ 33)
    (hover : s.caps.str < s.pos + s.encodedImage.length) : (encodeRows s.h (homed s)).faulted := by
  obtain ⟨hs, hd, -, hp⟩ := h
  rw [encodedImage_eq] at hover
  rcases encodeRows_out (s := homed s) hcap hs hp hd rfl (Nat.zero_add s.h).le with
    ⟨hfit, -⟩ | ⟨-, _, _, _, _, _, -, -, hloop⟩
  · exact absurd hfit (Nat.not_le_of_gt hover)
  · rw [hloop]; rfl

/-- A fault of the row loop ends RLE_ENC, whose end then changes nothing. -/
theorem rleEncCmd_of_rows_faulted {s : State} (h : s.encReady) (hf : (encodeRows s.h (homed s)).faulted) :
    rleEncCmd s = encodeRows s.h (homed s) := by
  rw [rleEncCmd_body h, rleEncBody, encodeEnd_of_faulted hf]

/-- The run finder's pair on a row fits the registers that hold it. -/
theorem runFind_registers {row : List Byte} (h : row.length ≤ 32768) :
    ((BitVec.ofNat 16 (runFind row).1).toNat, (BitVec.ofNat 16 (runFind row).2).toNat) = runFind row := by
  have hle := (runFind_bounds row).1
  rw [BitVec.toNat_ofNat, BitVec.toNat_ofNat, Nat.mod_eq_of_lt (by omega), Nat.mod_eq_of_lt (by omega)]

/-- Settles O51: the row loop stops at the first token that does not fit, and the end of RLE_ENC adds nothing. -/
theorem rleEncOverflow : Obligations.RleEncOverflow := by
  intro s h ⟨_, hcap, _⟩ hover
  have hfault := encodeRows_faulted_of_overflow h hcap hover
  have hcmd := rleEncCmd_of_rows_faulted h hfault
  obtain ⟨hs, hd, -, hp⟩ := h
  have ⟨_, _, _, hheight⟩ := hd
  have ⟨_, hwidth⟩ := pw_bounds hd
  obtain ⟨head, pre, tok, d, dt, r, c, k, -, hr, hc, hrow, hhead, hstep, hpre, htok, hfits, hnot, hloop⟩ :=
    encodeRows_overflow (s := homed s) hcap hs hp hd rfl (Nat.zero_add s.h).le hfault
  have hrows : (List.range' (homed s).r (r - (homed s).r)).flatMap
        (fun r => encodeRowBytes (homed s).pw ((homed s).packedRow r)) =
      (List.range r).flatMap (fun r => encodeRowBytes s.pw (s.packedRow r)) := by
    rw [List.range_eq_range']; rfl
  rw [hrows] at hfits hnot hloop
  rw [hloop] at hcmd
  replace hr : r < s.h := Nat.zero_add s.h ▸ hr
  refine ⟨rleEncCmd s, r, c, k, head, pre, tok, d, dt, rfl, ?_, ?_, ?_, hr, hc, hrow, hhead, hstep, hpre, htok, ?_⟩
  · rw [hcmd]; rfl
  · rw [hcmd]
    exact Nat.mod_eq_of_lt (by omega)
  · rw [hcmd]
    exact Nat.mod_eq_of_lt (hc.trans_le (hwidth.trans (by decide)))
  intro out
  have hpos : (rleEncCmd s).pos = s.pos + out.length := by
    rw [hcmd]
    exact appended_pos (hfits.trans_lt hcap)
  refine ⟨hpos, hpos ▸ hfits, hpos ▸ hnot, ?_, (rleEncCmd_strAppended hcap).2, ?_⟩
  · rw [hcmd]
    exact slice_appended out s
  · rw [hcmd]
    refine runFind_registers ?_
    rw [List.length_drop]
    exact (Nat.sub_le _ _).trans ((Memory.length_slice _ _ _).trans_le hwidth)

end Sys2Proof.Machine

/-! # Proofs: the run finder

What RUNFIND leaves is said once for each outcome: the fault of its first failing start check, or the pair of `runFind` in
RF_LEN and RF_POS (`runFindCmd_pair`). The shape of that pair is a fact about `runFind` alone (`runFind_none_or_run`). -/

namespace Sys2Proof.Machine

/-! ### The function (42_run_finder.md R115, R116) -/

/-- Settles O31: the scan's invariant, and the empty slice evaluated. -/
theorem runFindFirstRun : Obligations.RunFindFirstRun :=
  ⟨runFind_firstRun, rfl⟩

theorem runFind_none_or_run (s : List Byte) :
    ((runFind s).1 = 0 ∧ (runFind s).2 = s.length) ∨ (3 ≤ (runFind s).1 ∧ (runFind s).2 + (runFind s).1 ≤ s.length) := by
  rcases runFind_firstRun s with ⟨hlen, hpos, -⟩ | ⟨hlen, hle, -⟩
  · exact .inl ⟨hlen, hpos⟩
  · exact .inr ⟨hlen, hle⟩

/-! ### The command (42_run_finder.md R117) -/

theorem runFindCmd_of_pkd_short {s : State} (hs : ¬ s.faulted) (hd : s.dimsLegal) (hp : s.caps.pkd < s.pw * s.h) :
    runFindCmd s = raise .dimensionOverflow 1 0x7 s :=
  command_of_fail (k := pkdCheck s) hs ((ff_pass ((dimsCheck_passes s).2 hd)).trans (ff_fail (pkd_fails hp)))

theorem runFindCmd_of_cursor_out {s : State} (hs : ¬ s.faulted) (hd : s.dimsLegal) (hp : s.pw * s.h ≤ s.caps.pkd)
    (hcursor : s.h ≤ s.r ∨ s.pw < s.c) : runFindCmd s = raise .illegalCommand 1 0x7 s :=
  command_of_fail (k := argCheck _) hs ((ff_pass ((dimsCheck_passes s).2 hd)).trans ((ff_pass ((pkdCheck_passes s).2 hp)).trans
    (ff_fail (arg_fails (decide_eq_true hcursor)))))

/-- The start checks of RUNFIND pass when it ends without fault. -/
theorem runFindCmd_checks_of_done {s : State} (hs : ¬ s.faulted) (ht : ¬ (runFindCmd s).faulted) :
    s.dimsLegal ∧ s.pw * s.h ≤ s.caps.pkd ∧ s.r < s.h ∧ s.c ≤ s.pw := by
  have hraise : ∀ {f sub}, runFindCmd s ≠ raise f sub 0x7 s := fun h => ht (by rw [h]; rfl)
  have hd : s.dimsLegal := by_contra fun h => hraise (fail_dims hs h)
  have hp : s.pw * s.h ≤ s.caps.pkd := not_lt.mp fun h => hraise (runFindCmd_of_pkd_short hs hd h)
  have hcursor : ¬ (s.h ≤ s.r ∨ s.pw < s.c) := fun h => hraise (runFindCmd_of_cursor_out hs hd hp h)
  exact ⟨hd, hp, by omega, by omega⟩

/-- RF_LEN and RF_POS hold the whole pair of the rest of row ROW: PW is at most 32768, so nothing is truncated. -/
theorem runFindCmd_pair {s : State} (hs : ¬ s.faulted) (hd : s.dimsLegal) (hp : s.pw * s.h ≤ s.caps.pkd) (hr : s.r < s.h)
    (hc : s.c ≤ s.pw) :
    (runFindCmd s).rfLen.toNat = (runFind (restOf s)).1 ∧ (runFindCmd s).rfPos.toNat = (runFind (restOf s)).2 := by
  rw [runFindCmd_body hs hd hp hr hc]
  exact findRun_regs s (pw_bounds hd).2

/-- Settles O32: the first failing start check ends the command, else it is `finish` of `findRun`. -/
theorem runFindCommand : Obligations.RunFindCommand := by
  intro s hs
  refine ⟨fun hd => ?_, fun hd hp => ?_, fun hd hp hcursor => ?_, fun hd hp hr hc => ⟨runFindCmd s, rfl, ?_, ?_⟩⟩
  · exact congrArg Host.Outcome.next (fail_dims hs hd)
  · exact congrArg Host.Outcome.next (runFindCmd_of_pkd_short hs hd hp)
  · exact congrArg Host.Outcome.next (runFindCmd_of_cursor_out hs hd hp hcursor)
  · rw [runFindCmd_body hs hd hp hr hc]; rfl
  · obtain ⟨hlen, hpos⟩ := runFindCmd_pair hs hd hp hr hc
    exact Prod.ext hlen hpos

/-- Settles O33: the registers hold the pair, which has one of the two shapes of `runFind_none_or_run`. -/
theorem runFindPairShape : Obligations.RunFindPairShape := by
  intro s t hs hexec ht
  obtain rfl : runFindCmd s = t := next_inj hexec
  obtain ⟨hd, hp, hr, hc⟩ := runFindCmd_checks_of_done hs ht
  obtain ⟨hlen, hpos⟩ := runFindCmd_pair hs hd hp hr hc
  refine ⟨hlen, hpos, ?_⟩
  have hshape := runFind_none_or_run (restOf s)
  rw [← hlen, ← hpos, restOf_length] at hshape
  rw [← BitVec.toNat_inj, ← BitVec.toNat_inj]
  show _ ∧ (_ = 0 ∨ _) ∧ (_ = 0 → _) ∧ _ ∧ (_ → _ = 0 ∧ _ = 0)
  rcases hshape with ⟨hnone, hend⟩ | ⟨hrun, hle⟩
  · exact ⟨by omega, .inl hnone, fun _ => hend, by omega, fun hempty => ⟨hnone, by omega⟩⟩
  · exact ⟨hle, .inr hrun, by omega, by omega, by omega⟩

end Sys2Proof.Machine

/-! # Proofs: the nibble packer

What PACK and UNPACK leave at each address is said once (`packCmd_read` above, `unpackCmd_read` here). A command of the two keeps
what the start checks of the other look at, so the round trips are the two reads, one after the other, and the laws of the
nibble functions. -/

namespace Sys2Proof.Machine

/-! ### The nibble functions as formulas (43_nibble_packer.md R125, R129) -/

/-- `pack2` before the truncation to a byte: the shift drops the high nibble of `l`, the mask that of `r`. -/
theorem toNat_pack2 (l r : Byte) : (pack2 l r).toNat = l.toNat <<< 4 % 2 ^ 8 ||| (r.toNat &&& 0x0F) := by
  rw [pack2, BitVec.toNat_or, BitVec.toNat_shiftLeft, BitVec.toNat_and]; rfl

theorem toNat_pack2_eq_and (l r : Byte) : (pack2 l r).toNat = (l.toNat <<< 4 ||| (r.toNat &&& 0x0F)) &&& 0xFF := by
  have hlow : r.toNat &&& 0x0F < 2 ^ 8 := Nat.and_le_right.trans_lt (by decide)
  rw [toNat_pack2, Nat.and_two_pow_sub_one_eq_mod _ 8, Nat.or_mod_two_pow, Nat.mod_eq_of_lt hlow]

theorem toNat_pack2_eq_add (l r : Byte) : (pack2 l r).toNat = 16 * (l.toNat % 16) + r.toNat % 16 := by
  have hhigh : l.toNat <<< 4 % 2 ^ 8 = (l.toNat % 16) <<< 4 := by
    rw [Nat.shiftLeft_eq, Nat.shiftLeft_eq]; omega
  have hlow : r.toNat % 16 < 2 ^ 4 := Nat.mod_lt _ (by decide)
  rw [toNat_pack2, hhigh, Nat.and_two_pow_sub_one_eq_mod _ 4, ← Nat.shiftLeft_add_eq_or_of_lt hlow, Nat.shiftLeft_eq]
  omega

theorem toNat_unpackLeft (b : Byte) : (unpackLeft b).toNat = b.toNat >>> 4 &&& 0x0F := by
  rw [unpackLeft, BitVec.toNat_and, BitVec.toNat_ushiftRight]; rfl

theorem toNat_unpackRight (b : Byte) : (unpackRight b).toNat = b.toNat &&& 0x0F :=
  BitVec.toNat_and b 0x0F#8

/-- Settles O34: `BitVec`'s operations read as numbers. -/
theorem nibbleFunctions : Obligations.NibbleFunctions :=
  ⟨toNat_pack2_eq_and, fun b => ⟨toNat_unpackLeft b, toNat_unpackRight b⟩, toNat_pack2_eq_add⟩

/-! ### PACK (R126, R130) -/

/-- Settles O36: the frame of PACK's body, and its reads inside and above the packed image. -/
theorem packPacks : Obligations.PackPacks := fun s h =>
  ⟨packCmd s, rfl, by rw [packCmd_body h], fun _ _ => packCmd_read h, fun _ => pack_above⟩

/-! ### UNPACK (R127) -/

theorem pixelOf_even (s : State) (r c : Nat) : s.pixelOf r (2 * c) = unpackLeft (Memory.read s.pkd (r * s.pw + c)) := by
  rw [State.pixelOf, if_pos (Nat.mul_mod_right 2 c), Nat.mul_div_cancel_left c Nat.two_pos, State.packedAddr]

theorem pixelOf_odd (s : State) (r c : Nat) :
    s.pixelOf r (2 * c + 1) = unpackRight (Memory.read s.pkd (r * s.pw + c)) := by
  rw [State.pixelOf, if_neg (by omega), show (2 * c + 1) / 2 = c by omega, State.packedAddr]

/-- After UNPACK each pixel holds its nibble of the packed image (R127). -/
theorem unpackCmd_read {s : State} (h : s.packReady) {r x : Nat} (hr : r < s.h) (hx : x < s.w) :
    Memory.read (unpackCmd s).pix (s.pixAddr r x) = s.pixelOf r x := by
  have ⟨_, _, _, _, heven⟩ := h
  rw [unpackCmd_body h]
  exact unpackRows_read heven (Nat.zero_add s.h).le (Nat.zero_le r) (by omega) hx

/-- Both pixels of a packed byte, as UNPACK writes them. -/
theorem unpackCmd_read_pair {s : State} (h : s.packReady) {r c : Nat} (hr : r < s.h) (hc : c < s.pw) :
    Memory.read (unpackCmd s).pix (s.pixAddr r (2 * c)) = unpackLeft (Memory.read s.pkd (r * s.pw + c)) ∧
    Memory.read (unpackCmd s).pix (s.pixAddr r (2 * c + 1)) = unpackRight (Memory.read s.pkd (r * s.pw + c)) := by
  have ⟨_, _, _, _, heven⟩ := h
  have htwo := two_pw heven
  rw [unpackCmd_read h hr (by omega), unpackCmd_read h hr (by omega), pixelOf_even, pixelOf_odd]
  exact ⟨rfl, rfl⟩

theorem unpackCmd_read_lt {s : State} (h : s.packReady) {a : Nat} (ha : a < s.w * s.h) :
    (Memory.read (unpackCmd s).pix a).toNat < 16 := by
  obtain ⟨r, x, hr, hx, rfl⟩ := exists_pixel ha
  rw [unpackCmd_read h hr hx]
  exact pixelOf_lt s r x

/-- Settles O37: the frame of UNPACK's body, and its reads inside and above the pixel image. -/
theorem unpackUnpacks : Obligations.UnpackUnpacks := fun s h =>
  ⟨unpackCmd s, rfl, by rw [unpackCmd_body h], fun _ _ => unpackCmd_read_pair h, fun _ => unpackCmd_read_lt h,
    fun _ => unpack_above⟩

/-! ### One after the other (R131, R132) -/

theorem packReady_packCmd {s : State} (h : s.packReady) : (packCmd s).packReady := by
  rw [packCmd_body h]
  exact packReady_of_eq h stDone_ne_stFaulted rfl rfl rfl

theorem packReady_unpackCmd {s : State} (h : s.packReady) : (unpackCmd s).packReady := by
  rw [unpackCmd_body h]
  exact packReady_of_eq h stDone_ne_stFaulted rfl rfl rfl

/-- PACK then UNPACK keeps the low nibble of every pixel byte (R131). -/
theorem unpackCmd_packCmd_read {s : State} (h : s.packReady) {a : Nat} (ha : a < s.w * s.h) :
    Memory.read (unpackCmd (packCmd s)).pix a = Memory.read s.pix a &&& 0x0F#8 :=
  unpackCmd_of_packedOf (packReady_packCmd h) (by rw [pack_frame]; rfl) (by rw [pack_frame]; rfl) (by rw [pack_frame])
    (fun _ _ => packCmd_read h) ha

/-- Settles O38: the low nibble of a byte that is at most 15 is the byte, and neither command writes PIX above the image. -/
theorem packThenUnpack : Obligations.PackThenUnpack := by
  intro s h
  refine ⟨packCmd s, unpackCmd (packCmd s), rfl, rfl, by rw [unpackCmd_body (packReady_packCmd h)],
    fun a => unpackCmd_packCmd_read h, fun hpixels a => ?_⟩
  rcases Nat.lt_or_ge a (s.w * s.h) with ha | ha
  · rw [unpackCmd_packCmd_read h ha, and_0F_of_lt (Nat.lt_succ_of_le (hpixels a ha))]
  · have hpack := pack_frame s
    rw [unpack_above (by rw [hpack]; exact ha), hpack]

theorem exists_packed {s : State} {a : Nat} (h : a < s.pw * s.h) : ∃ r c, r < s.h ∧ c < s.pw ∧ r * s.pw + c = a :=
  ⟨a / s.pw, a % s.pw, Nat.div_lt_of_lt_mul h, Nat.mod_lt _ (Nat.pos_of_lt_mul_right h), Nat.div_add_mod' a s.pw⟩

/-- UNPACK then PACK gives back each byte of the packed image (R132). -/
theorem packCmd_unpackCmd_read {s : State} (h : s.packReady) {r c : Nat} (hr : r < s.h) (hc : c < s.pw) :
    Memory.read (packCmd (unpackCmd s)).pkd (r * s.pw + c) = Memory.read s.pkd (r * s.pw + c) := by
  obtain ⟨-, hpw, hh⟩ := unpack_dims_eq s
  have haddr : (unpackCmd s).pixAddr = s.pixAddr := by rw [unpack_frame]; rfl
  obtain ⟨hleft, hright⟩ := unpackCmd_read_pair h hr hc
  calc Memory.read (packCmd (unpackCmd s)).pkd (r * s.pw + c)
    _ = (unpackCmd s).packedOf r c := hpw ▸ packCmd_read (packReady_unpackCmd h) (hh ▸ hr) (hpw ▸ hc)
    _ = Memory.read s.pkd (r * s.pw + c) := by rw [State.packedOf, haddr, hleft, hright, pack2_unpack]

/-- Settles O39: inside the packed image by `pack2_unpack`, and neither command writes PKD above it. -/
theorem unpackThenPack : Obligations.UnpackThenPack := by
  refine ⟨pack2_unpack, fun s h => ⟨unpackCmd s, packCmd (unpackCmd s), rfl, rfl,
    by rw [packCmd_body (packReady_unpackCmd h)], fun a => ?_⟩⟩
  rcases Nat.lt_or_ge a (s.pw * s.h) with ha | ha
  · obtain ⟨r, c, hr, hc, rfl⟩ := exists_packed ha
    exact packCmd_unpackCmd_read h hr hc
  · obtain ⟨-, hpw, hh⟩ := unpack_dims_eq s
    rw [pack_above (by rwa [hpw, hh]), unpack_frame]

end Sys2Proof.Machine

/-! # Proofs: the scanline buffer controller

The header commands are their two refusals and their body (`hdrRd_body`, `hdrWr_body` above). A composite that completes is its
constituents' own effects one after the other; one that faults ends where `DoneOrRaised` of a constituent says. -/

namespace Sys2Proof.Machine

/-! ### RESET and NOP (44_scanline_buffer_controller.md R145, R146) -/

/-- Settles O13: RESET is `resetRegisters`, and every other command is ignored while FAULTED. -/
theorem resetCommand : Obligations.ResetCommand :=
  ⟨fun s => ⟨resetRegisters s, rfl, rfl, rfl, rfl, rfl, rfl, rfl, rfl, rfl, rfl, rfl, rfl, rfl, rfl, rfl, rfl, rfl, rfl⟩,
    fun _ _ => exec_of_faulted⟩

/-- Settles O27: the arm of NOP answers the state it is given. -/
theorem nopChangesNothing : Obligations.NopChangesNothing := fun _ => rfl

/-! ### HDR_RD (R141) -/

theorem hdrRdCmd_of_strLen_out {s : State} (hs : ¬ s.faulted) (h : s.caps.str < s.slen) :
    hdrRdCmd s = s.withFault 0x116#12 :=
  fail_with (argCheck _) .illegalCommand 1 hs (ff_fail (arg_fails (decide_eq_true h))) rfl rfl

theorem hdrRdCmd_of_strLen_short {s : State} (hs : ¬ s.faulted) (h : s.slen ≤ s.caps.str) (h4 : s.slen < 4) :
    hdrRdCmd s = s.withFault 0x111#12 :=
  fail_with (headerCheck s) .unexpectedEof 1 hs
    ((ff_pass (arg_passes (decide_eq_false (Nat.not_lt.mpr h)))).trans (ff_fail (decide_eq_true h4))) rfl rfl

/-- Settles O28: the two refusals in the order of the checks, and the body. -/
theorem hdrRdReadsHeader : Obligations.HdrRdReadsHeader := fun s hs =>
  ⟨fun h => congrArg Host.Outcome.next (hdrRdCmd_of_strLen_out hs h),
    fun h h4 => congrArg Host.Outcome.next (hdrRdCmd_of_strLen_short hs h h4),
    fun h h4 => ⟨congrArg Host.Outcome.next (hdrRd_body hs h h4), header_bounds s⟩⟩

/-- The dimensions HDR_RD leaves, as numbers: a field plus one does not wrap in 17 bits (R137). -/
theorem hdrRdCmd_dims {s : State} (hs : ¬ s.faulted) (h : s.slen ≤ s.caps.str) (h4 : 4 ≤ s.slen) :
    (hdrRdCmd s).w = s.headerWidth ∧ (hdrRdCmd s).h = s.headerHeight := by
  obtain ⟨-, hw, -, hh⟩ := header_bounds s
  rw [hdrRd_body hs h h4]
  exact ⟨ofNat_toNat (by omega), ofNat_toNat (by omega)⟩

theorem hdrRdCmd_dimsLegal {s : State} (hs : ¬ s.faulted) (h : s.slen ≤ s.caps.str) (h4 : 4 ≤ s.slen) :
    (hdrRdCmd s).dimsLegal := by
  obtain ⟨hw, hh⟩ := hdrRdCmd_dims hs h h4
  obtain ⟨hw1, hw2, hh1, hh2⟩ := header_bounds s
  exact ⟨by rwa [hw], by rwa [hw], by rwa [hh], by rwa [hh]⟩

/-! ### HDR_WR (R142) -/

theorem hdrWrCmd_of_dims_illegal {s : State} (hs : ¬ s.faulted) (hd : ¬ s.dimsLegal) :
    hdrWrCmd s = s.withFault 0x203#12 := fail_dims hs hd

theorem hdrWrCmd_of_no_room {s : State} (hs : ¬ s.faulted) (hd : s.dimsLegal) (h4 : s.caps.str < 4) :
    hdrWrCmd s = s.withFault 0x205#12 :=
  fail_with (headerRoomCheck s) .streamOverflow 0 hs
    ((ff_pass ((dimsCheck_passes s).2 hd)).trans (ff_fail (decide_eq_true h4))) rfl rfl

/-- Every byte of STR after HDR_WR: the header below address 4, the old bytes from there on. -/
theorem hdrWrCmd_read {s : State} (hs : ¬ s.faulted) (hd : s.dimsLegal) (h4 : 4 ≤ s.caps.str) (a : Nat) :
    Memory.read (hdrWrCmd s).str a =
      if a = 0 then BitVec.ofNat 8 (s.w - 1) else if a = 1 then BitVec.ofNat 8 ((s.w - 1) / 256)
      else if a = 2 then BitVec.ofNat 8 (s.h - 1) else if a = 3 then BitVec.ofNat 8 ((s.h - 1) / 256)
      else Memory.read s.str a := by
  rw [hdrWr_body hs hd h4]
  exact hdrWr_read _ _ _ a

/-- Settles O29: the two refusals in the order of the checks, and the body with its reads. -/
theorem hdrWrWritesHeader : Obligations.HdrWrWritesHeader := by
  intro s hs
  refine ⟨fun hd => congrArg Host.Outcome.next (hdrWrCmd_of_dims_illegal hs hd),
    fun hd h4 => congrArg Host.Outcome.next (hdrWrCmd_of_no_room hs hd h4), fun hd h4 => ?_⟩
  have hread := hdrWrCmd_read hs hd h4
  exact ⟨hdrWrCmd s, rfl, by rw [hdrWr_body hs hd h4]; rfl, hread 0, hread 1, hread 2, hread 3, fun _ => hdrWr_above⟩

/-! ### Header round trip (R144) -/

/-- The two bytes of a header field, from the dimension it gives. -/
theorem bytes_of_field (lo hi : Byte) :
    BitVec.ofNat 8 (lo.toNat + 256 * hi.toNat + 1 - 1) = lo ∧
    BitVec.ofNat 8 ((lo.toNat + 256 * hi.toNat + 1 - 1) / 256) = hi := by
  have hlo := lo.isLt
  have hhi := hi.isLt
  constructor <;> apply BitVec.eq_of_toNat_eq <;> rw [BitVec.toNat_ofNat] <;> omega

/-- The header of the dimensions read from a header is that header. -/
theorem headerBytes_of_headerDims (s : State) :
    BitVec.ofNat 8 (s.headerWidth - 1) = Memory.read s.str 0 ∧
    BitVec.ofNat 8 ((s.headerWidth - 1) / 256) = Memory.read s.str 1 ∧
    BitVec.ofNat 8 (s.headerHeight - 1) = Memory.read s.str 2 ∧
    BitVec.ofNat 8 ((s.headerHeight - 1) / 256) = Memory.read s.str 3 := by
  obtain ⟨hw0, hw1⟩ := bytes_of_field (Memory.read s.str 0) (Memory.read s.str 1)
  obtain ⟨hh0, hh1⟩ := bytes_of_field (Memory.read s.str 2) (Memory.read s.str 3)
  exact ⟨hw0, hw1, hh0, hh1⟩

/-- HDR_WR then HDR_RD: the dimensions as they were. -/
theorem hdrRdCmd_hdrWrCmd {s : State} (hs : ¬ s.faulted) (hd : s.dimsLegal) (h4 : 4 ≤ s.caps.str) :
    (hdrRdCmd (hdrWrCmd s)).status = stDone ∧ (hdrRdCmd (hdrWrCmd s)).width = s.width ∧
    (hdrRdCmd (hdrWrCmd s)).height = s.height := by
  obtain ⟨hw, hh⟩ := headerDims_of_write (t := hdrWrCmd s) hd fun a _ => by rw [hdrWr_body hs hd h4]; rfl
  have ht : ¬ (hdrWrCmd s).faulted := by rw [hdrWr_body hs hd h4]; exact stDone_ne_stFaulted
  have hslen : (hdrWrCmd s).slen = 4 := by rw [hdrWr_body hs hd h4]; rfl
  have hcaps : (hdrWrCmd s).caps = s.caps := by rw [hdrWr_frame]
  rw [hdrRd_body ht (by rwa [hslen, hcaps]) hslen.ge, hw, hh]
  exact ⟨rfl, by simp [State.w], by simp [State.h]⟩

/-- HDR_RD then HDR_WR: every byte of STR as it was. -/
theorem hdrWrCmd_hdrRdCmd {s : State} (hs : ¬ s.faulted) (h : s.slen ≤ s.caps.str) (h4 : 4 ≤ s.slen) :
    (hdrWrCmd (hdrRdCmd s)).status = stDone ∧
    ∀ a, Memory.read (hdrWrCmd (hdrRdCmd s)).str a = Memory.read s.str a := by
  have ht : ¬ (hdrRdCmd s).faulted := by rw [hdrRd_body hs h h4]; exact stDone_ne_stFaulted
  have hd := hdrRdCmd_dimsLegal hs h h4
  have hroom : 4 ≤ (hdrRdCmd s).caps.str := by rw [hdrRd_frame]; exact h4.trans h
  have hstr : (hdrRdCmd s).str = s.str := by rw [hdrRd_frame]
  obtain ⟨hw, hh⟩ := hdrRdCmd_dims hs h h4
  obtain ⟨hb0, hb1, hb2, hb3⟩ := headerBytes_of_headerDims s
  refine ⟨by rw [hdrWr_body ht hd hroom]; rfl, fun a => ?_⟩
  rw [hdrWrCmd_read ht hd hroom, hw, hh, hb0, hb1, hb2, hb3, hstr]
  rcases a with _ | _ | _ | _ | a <;> simp

/-- Settles O30: the two orders of the two commands. -/
theorem headerRoundTrip : Obligations.HeaderRoundTrip :=
  ⟨fun _ hs hd h4 => ⟨_, _, rfl, rfl, hdrRdCmd_hdrWrCmd hs hd h4⟩,
    fun _ hs h4 h => ⟨_, _, rfl, rfl, hdrWrCmd_hdrRdCmd hs h h4⟩⟩

/-! ### Pixel addresses (R140) -/

theorem extRow_of_bottomUp {s : State} (h : s.ctrl = 0) (r : Nat) : s.extRow r = r := by
  rw [State.extRow, State.topDown, h]; rfl

theorem extRow_of_topDown {s : State} (h : s.ctrl = 1) (r : Nat) : s.extRow r = s.h - 1 - r := by
  rw [State.extRow, State.topDown, h]; rfl

theorem pixAddr_lt {s : State} {r x : Nat} (hr : r < s.h) (hx : x < s.w) : s.pixAddr r x < s.w * s.h :=
  Nat.mul_comm s.h s.w ▸ mul_add_lt (extRow_lt hr) hx

/-- Distinct pixels have distinct addresses: the address is a number in base W, ExtRow its high digit. -/
theorem pixAddr_inj {s : State} {r x r' x' : Nat} (hr : r < s.h) (hx : x < s.w) (hr' : r' < s.h) (hx' : x' < s.w)
    (he : s.pixAddr r x = s.pixAddr r' x') : r = r' ∧ x = x' := by
  have hrow : s.extRow r = s.extRow r' := by
    rcases Nat.lt_trichotomy (s.extRow r) (s.extRow r') with hlt | heq | hlt
    · have := mul_add_lt hlt hx
      unfold State.pixAddr at he; omega
    · exact heq
    · have := mul_add_lt hlt hx'
      unfold State.pixAddr at he; omega
  unfold State.pixAddr at he
  rw [hrow] at he
  exact ⟨extRow_inj hr hr' hrow, Nat.add_left_cancel he⟩

/-- Settles O35: the laws of ExtRow and of the address made from it. -/
theorem rowOrderAddressing : Obligations.RowOrderAddressing := fun _ =>
  ⟨fun _ _ => rfl, extRow_of_bottomUp, extRow_of_topDown, fun _ hr => ⟨extRow_lt hr, extRow_extRow hr⟩,
    fun _ _ => pixAddr_lt, fun _ _ _ _ => pixAddr_inj⟩

/-! ### Composites stop at the first fault (R152) -/

/-- A fault after a primitive command that executed is the command's own. -/
theorem DoneOrRaised.stage {op : Nat} {s t : State} (h : DoneOrRaised op s t) (hop : op < 16) (ht : t.faulted) :
    t.faultStage = op := by
  rcases h.done_or with ⟨hnf, -⟩ | ⟨-, hraised⟩
  · exact absurd ht hnf
  · exact stage_of hop hraised

/-- Three commands one after the other, the later two ignored while FAULTED: where the sequence stops and what STAGE says. -/
theorem sequence_stops {op₁ op₂ op₃ : Nat} {cmd₂ cmd₃ : State → State} {s t : State}
    (hop₁ : op₁ < 16) (hop₂ : op₂ < 16) (hop₃ : op₃ < 16)
    (hends₁ : DoneOrRaised op₁ s t) (hends₂ : ∀ {u : State}, ¬ u.faulted → DoneOrRaised op₂ u (cmd₂ u))
    (hends₃ : ∀ {u : State}, ¬ u.faulted → DoneOrRaised op₃ u (cmd₃ u))
    (hignored₂ : ∀ {u : State}, u.faulted → cmd₂ u = u) (hignored₃ : ∀ {u : State}, u.faulted → cmd₃ u = u) :
    (t.faulted → cmd₃ (cmd₂ t) = t ∧ (cmd₃ (cmd₂ t)).faultStage = op₁) ∧
    (¬ t.faulted → (cmd₂ t).faulted → cmd₃ (cmd₂ t) = cmd₂ t ∧ (cmd₃ (cmd₂ t)).faultStage = op₂) ∧
    (¬ (cmd₂ t).faulted → (cmd₃ (cmd₂ t)).faulted → (cmd₃ (cmd₂ t)).faultStage = op₃) := by
  refine ⟨fun h₁ => ?_, fun h₁ h₂ => ?_, fun h₂ => (hends₃ h₂).stage hop₃⟩
  · rw [hignored₂ h₁, hignored₃ h₁]
    exact ⟨rfl, hends₁.stage hop₁ h₁⟩
  · rw [hignored₃ h₂]
    exact ⟨rfl, (hends₂ h₁).stage hop₂ h₂⟩

/-- Settles O59: both composites are sequences of three commands. -/
theorem compositesStopAtFirstFault : Obligations.CompositesStopAtFirstFault :=
  ⟨fun _ hs => ⟨_, _, _, rfl, rfl, rfl, rfl, sequence_stops (by decide) (by decide) (by decide) (hdrRd_ends hs) rleDec_ends
      unpack_ends rleDec_of_faulted unpack_of_faulted⟩,
    fun _ hs => ⟨_, _, _, rfl, rfl, rfl, rfl, sequence_stops (by decide) (by decide) (by decide) (pack_ends hs) hdrWr_ends
      rleEnc_ends hdrWr_of_faulted rleEnc_of_faulted⟩⟩

/-! ### DECODE (R150) -/

theorem pw_of_w {s : State} {w : Nat} (h : s.w = w) : s.pw = (w + 1) / 2 := by rw [pw_eq, h]

/-- After HDR_RD of a header whose packed image fits, RLE_DEC's start checks pass. -/
theorem decReady_hdrRdCmd {s : State} (hs : ¬ s.faulted) (h : s.slen ≤ s.caps.str) (h4 : 4 ≤ s.slen)
    (hpkd : (s.headerWidth + 1) / 2 * s.headerHeight ≤ s.caps.pkd) : (hdrRdCmd s).decReady := by
  obtain ⟨hw, hh⟩ := hdrRdCmd_dims hs h h4
  refine ⟨?_, hdrRdCmd_dimsLegal hs h h4, ?_, ?_⟩
  · rw [hdrRd_body hs h h4]; exact stDone_ne_stFaulted
  · rw [pw_of_w hw, hh, hdrRd_frame]; exact hpkd
  · rw [hdrRd_body hs h h4]; exact ⟨h, h4⟩

/-- After RLE_DEC on a stream of the grammar, UNPACK's start checks pass when the width is even and the pixels fit. -/
theorem packReady_of_decoded {s : State} {d : List Byte} (h : s.decReady) (hi : ImageTokens s.pw s.h s.stream d)
    (hpix : s.w * s.h ≤ s.caps.pix) (heven : s.w % 2 = 0) : (rleDecCmd s).packReady := by
  obtain ⟨code, len, val, hdec⟩ := rleDecCmd_of_image h hi
  obtain ⟨hs, hd, hpkd, -⟩ := h
  rw [hdec]
  exact packReady_of_eq (s := s) ⟨hs, hd, hpkd, hpix, heven⟩ stDone_ne_stFaulted rfl rfl rfl

/-- The byte at an index of the packed image. -/
theorem packedImage_getD {s : State} {r c : Nat} (hr : r < s.h) (hc : c < s.pw) :
    s.packedImage.getD (r * s.pw + c) 0 = Memory.read s.pkd (r * s.pw + c) := by
  rw [State.packedImage, Memory.getD_slice (Nat.mul_comm s.h s.pw ▸ mul_add_lt hr hc), Nat.zero_add]

/-- UNPACK's pixels, from the packed image it finds and leaves (43_nibble_packer.md R127). -/
theorem unpackCmd_pixels {s : State} (h : s.packReady) {r c : Nat} (hr : r < (unpackCmd s).h) (hc : c < (unpackCmd s).pw) :
    Memory.read (unpackCmd s).pix ((unpackCmd s).pixAddr r (2 * c)) =
      unpackLeft (s.packedImage.getD (r * (unpackCmd s).pw + c) 0) ∧
    Memory.read (unpackCmd s).pix ((unpackCmd s).pixAddr r (2 * c + 1)) =
      unpackRight (s.packedImage.getD (r * (unpackCmd s).pw + c) 0) := by
  obtain ⟨-, hpw, hh⟩ := unpack_dims_eq s
  have haddr : (unpackCmd s).pixAddr = s.pixAddr := by rw [unpack_frame]; rfl
  rw [hh] at hr
  rw [hpw] at hc
  rw [hpw, haddr, packedImage_getD hr hc]
  exact unpackCmd_read_pair h hr hc

/-- Settles O56: HDR_RD makes RLE_DEC's start checks pass, RLE_DEC leaves `d` in PKD and UNPACK its nibbles in PIX. -/
theorem decodeDecodesStream : Obligations.DecodeDecodesStream := by
  intro s d hs h4 h heven hpkd hpix hi
  have hrd := hdrRd_body hs h h4
  obtain ⟨hw, hh⟩ := hdrRdCmd_dims hs h h4
  have hcaps : (hdrRdCmd s).caps = s.caps := by rw [hrd]
  have hready := decReady_hdrRdCmd hs h h4 hpkd
  have htokens : ImageTokens (hdrRdCmd s).pw (hdrRdCmd s).h (hdrRdCmd s).stream d := by
    rw [pw_of_w hw, hh, hrd]; exact hi
  have hpack := packReady_of_decoded hready htokens (by rwa [hw, hh, hcaps]) (by rwa [hw])
  have himage := packedImage_rleDecCmd hready htokens
  obtain ⟨code, len, val, hdec⟩ := rleDecCmd_of_image hready htokens
  obtain ⟨hvw, hvpw, hvh⟩ := rleDec_dims_eq (hdrRdCmd s)
  obtain ⟨htw, htpw, hth⟩ := unpack_dims_eq (rleDecCmd (hdrRdCmd s))
  refine ⟨unpackCmd (rleDecCmd (hdrRdCmd s)), rfl, ?_, htw.trans (hvw.trans hw), hth.trans (hvh.trans hh), ?_,
    fun r c hr hc => himage ▸ unpackCmd_pixels hpack hr hc, fun a ha => ?_, fun a ha => ?_⟩
  · rw [unpackCmd_body hpack, hdec, hrd]
  · rw [unpack_frame]; exact himage
  · rw [htpw, hth, hvpw, hvh] at ha
    rw [unpack_frame]
    exact (rleDec_above ha).trans (by rw [hrd])
  · rw [htw, hth] at ha
    rw [unpack_above ha, hdec, hrd]

/-! ### ENCODE (R151) -/

theorem pack_dims_eq (s : State) : (packCmd s).w = s.w ∧ (packCmd s).pw = s.pw ∧ (packCmd s).h = s.h :=
  MayWrite.dims_eq (i := .pack) (pack_frame s) nofun nofun nofun

/-- A storage row after PACK, from the pixels (43_nibble_packer.md R126). -/
theorem packedRow_packCmd {s : State} (h : s.packReady) {r : Nat} (hr : r < s.h) :
    (packCmd s).packedRow r = (List.range s.pw).map (s.packedOf r) := by
  obtain ⟨-, hpw, -⟩ := pack_dims_eq s
  unfold State.packedRow Memory.slice
  rw [hpw]
  refine List.map_congr_left fun c hc => ?_
  rw [State.packedAddr, hpw, Nat.add_zero, packCmd_read h hr (List.mem_range.1 hc)]

/-- The stream of the packed image that PACK leaves is that of the pixel image. -/
theorem encodedImage_packCmd {s : State} (h : s.packReady) : (packCmd s).encodedImage = s.encodedPixels := by
  obtain ⟨-, hpw, hh⟩ := pack_dims_eq s
  unfold State.encodedImage State.encodedPixels
  rw [hpw, hh]
  exact List.flatMap_congr fun r hr => by rw [packedRow_packCmd h (List.mem_range.1 hr)]

/-- HDR_WR leaves the image and all that its encoding depends on. -/
theorem hdrWrCmd_image (s : State) : (hdrWrCmd s).encodedImage = s.encodedImage ∧ (hdrWrCmd s).pw = s.pw ∧
    (hdrWrCmd s).h = s.h ∧ (hdrWrCmd s).packedRow = s.packedRow := by
  rw [hdrWr_frame]
  exact ⟨rfl, rfl, rfl, rfl⟩

/-- After HDR_WR the first four bytes of STR are the header of the dimension registers. -/
theorem slice_hdrWrCmd {s : State} (hs : ¬ s.faulted) (hd : s.dimsLegal) (h4 : 4 ≤ s.caps.str) :
    Memory.slice (hdrWrCmd s).str 0 4 = headerBytes s.w s.h := by
  have hread := hdrWrCmd_read hs hd h4
  show [Memory.read (hdrWrCmd s).str 0, Memory.read (hdrWrCmd s).str 1, Memory.read (hdrWrCmd s).str 2,
    Memory.read (hdrWrCmd s).str 3] = _
  rw [hread, hread, hread, hread]
  rfl

/-- After HDR_WR of an image that fits PKD, RLE_ENC's start checks pass. -/
theorem encReady_hdrWrCmd {s : State} (hs : ¬ s.faulted) (hd : s.dimsLegal) (hpkd : s.pw * s.h ≤ s.caps.pkd)
    (h4 : 4 ≤ s.caps.str) : (hdrWrCmd s).encReady := by
  rw [hdrWr_body hs hd h4]
  exact ⟨stDone_ne_stFaulted, hd, hpkd, h4⟩

/-- Settles O57: PACK leaves the packed image, HDR_WR the header before it, and RLE_ENC appends the image's stream. -/
theorem encodeEncodesImage : Obligations.EncodeEncodesImage := by
  intro s h hcaps hfit
  have hpack := packCmd_body h
  have hpcaps : (packCmd s).caps = s.caps := by rw [hpack]
  have hroom : 4 ≤ (packCmd s).caps.str := hpcaps ▸ hcaps.1
  obtain ⟨hp, hd, hpkd, -⟩ := packReady_packCmd h
  have hwr := hdrWr_body hp hd hroom
  have hqpos : (hdrWrCmd (packCmd s)).pos = 4 := by rw [hwr]; rfl
  have hqcaps : (hdrWrCmd (packCmd s)).caps = s.caps := by rw [hwr, hpack]; rfl
  obtain ⟨hpw, hppw, hph⟩ := pack_dims_eq s
  obtain ⟨hqimage, hqpw, hqh, hqrow⟩ := hdrWrCmd_image (packCmd s)
  rw [encodedImage_packCmd h] at hqimage
  obtain ⟨t, hexec, hframe, hpos, hslice, hsame, hlast⟩ := rleEncEmitsGreedyStream (hdrWrCmd (packCmd s))
    (encReady_hdrWrCmd hp hd hpkd hroom) (hqcaps ▸ hcaps) (by rwa [hqpos, hqimage, hqcaps])
  rw [hqpos, hqimage] at hpos hslice
  have hslen : t.slen = t.pos := by rw [hframe]; rfl
  have htpkd : t.pkd = (packCmd s).pkd := by rw [hframe, hwr]; rfl
  have hheader : Memory.slice t.str 0 4 = headerBytes s.w s.h := by
    rw [Memory.slice_congr fun a _ ha => hsame a (.inl (by omega)), slice_hdrWrCmd hp hd hroom, hpw, hph]
  refine ⟨t, hexec, by rw [hframe, hwr, hpack]; rfl, hslen.trans hpos, ?_, fun a ha => ?_, fun r c hr hc => ?_, fun a ha => ?_, ?_⟩
  · rw [hslen, hpos, Memory.slice_add, Nat.zero_add, hheader, hslice]
  · rw [hslen] at ha
    rw [hsame a (.inr ha), hdrWr_above (by omega), hpack]
  · rw [htpkd, packCmd_read h hr hc]
  · rw [htpkd, pack_above ha]
  · have ⟨_, ⟨_, _, hh, _⟩, _⟩ := h
    rw [hlast, hqpw, hqh, hqrow, hppw, hph, packedRow_packCmd h (by omega)]

end Sys2Proof.Machine

/-! # Proofs: exceptions

While FAULTED a host action leaves STATUS and FAULT, hardware reset and RESET apart. A command that executes is refused by the
first start check that fails, so each refusal is said once for every command whose list of checks begins alike; that
`DimensionOverflow` comes from nowhere else is said once of the bodies (`DimensionFree`). -/

namespace Sys2Proof.Machine

/-! ### The idle core (70_reset_and_hazards.md R186) -/

/-- Settles O7: with an empty list the step is the idle one. -/
theorem idleCore : Obligations.IdleCore := by
  intro s hidle
  rw [step, hostStep, hidle]

/-! ### FAULTED (60_exceptions.md R172) -/

theorem decodeCommand_space (v : Nat) : encSpace (decodeCommand v) = .command := by
  unfold decodeCommand
  split <;> rfl

/-- What a host action can do to STATUS and FAULT while FAULTED. -/
theorem hostAct_of_faulted {a : HostAction} {s t : State} (hs : s.faulted) (h : hostAct a s = .next t) :
    (t.status = s.status ∧ t.fault = s.fault) ∨ a = .hardReset ∨ ∃ v, a = .regWrite 0x0 v ∧ v % 16 = 0xF := by
  cases a with
  | regRead i => exact .inl (next_inj h ▸ ⟨rfl, rfl⟩)
  | regWrite i v =>
    rw [hostAct] at h
    split at h
    next hcmd =>
      subst hcmd
      by_cases hreset : v % 16 = 0xF
      · exact .inr (.inr ⟨v, rfl, hreset⟩)
      · rw [exec_of_faulted (decodeCommand_space v) (decodeCommand_reset hreset) hs] at h
        exact .inl (next_inj h ▸ ⟨rfl, rfl⟩)
    · exact .inl (next_inj h ▸ hostRegWrite_keeps i v s)
  | memRead sp a =>
    obtain ⟨-, h⟩ := checked_eq_next h
    exact .inl (next_inj h ▸ ⟨rfl, rfl⟩)
  | memWrite sp a b =>
    obtain ⟨-, h⟩ := checked_eq_next h
    exact .inl (next_inj h ▸ setMem_keeps _ _ _)
  | hardReset => exact .inr (.inl rfl)

/-- Settles O16: the accesses by the laws of the two ports, and the ways out by what a host action can do while FAULTED. -/
theorem faultIsSticky : Obligations.FaultIsSticky := by
  refine ⟨fun s v rest hs hv => ?_, fun s i v rest hs hi => ?_, fun s i rest _ => ⟨_, step_regRead s i rest⟩,
    fun s sp a b rest _ ha => ?_, fun s t hs h => ?_⟩
  · exact exec_of_faulted (s := { s with host := rest }) (decodeCommand_space v) (decodeCommand_reset hv) hs
  · obtain ⟨hstatus, hfault⟩ := hostRegWrite_keeps i v { s with host := rest }
    exact ⟨_, step_regWrite s v rest hi, hstatus.trans hs, hfault⟩
  · obtain ⟨hread, t, hwrite, -, hbyte, -⟩ := (hostMemoryAccess s sp a b rest).1 ha
    exact ⟨⟨_, hread⟩, t, hwrite, hbyte⟩
  · unfold step hostStep at h
    split at h
    · exact .inl (next_inj h ▸ ⟨hs, rfl⟩)
    next a rest hhost =>
      rw [hhost]
      rcases hostAct_of_faulted (s := { s with host := rest }) hs h with ⟨hstatus, hfault⟩ | rfl | ⟨v, rfl, hv⟩
      · exact .inl ⟨hstatus.trans hs, hfault⟩
      · exact .inr (.inl ⟨rest, rfl⟩)
      · exact .inr (.inr ⟨v, rest, rfl, hv⟩)

/-! ### The first failing start check (R164, R165, R167, R168) -/

section Refusals

variable {op : Nat} {body : State → State} {s : State}

/-- The dimensions pass and the packed image does not fit PKD. -/
theorem fail_pkd {ks : State → List Check} (hs : ¬ s.faulted) (hd : s.dimsLegal) (hp : s.caps.pkd < s.pw * s.h) :
    command op (fun s => dimsCheck s :: pkdCheck s :: ks s) body s = raise .dimensionOverflow 1 op s :=
  command_of_fail (k := pkdCheck s) hs ((ff_pass ((dimsCheck_passes s).2 hd)).trans (ff_fail (pkd_fails hp)))

/-- The image passes and an argument register is out of its range. -/
theorem fail_arg {bad : State → Bool} (hs : ¬ s.faulted) (hd : s.dimsLegal) (hp : s.pw * s.h ≤ s.caps.pkd)
    (harg : bad s = true) :
    command op (fun s => [dimsCheck s, pkdCheck s, argCheck (bad s)]) body s = raise .illegalCommand 1 op s :=
  command_of_fail (k := argCheck (bad s)) hs ((ff_pass ((dimsCheck_passes s).2 hd)).trans
    ((ff_pass ((pkdCheck_passes s).2 hp)).trans (ff_fail (arg_fails harg))))

/-- PACK or UNPACK of an image that fits PKD but not PIX. -/
theorem fail_pix (hs : ¬ s.faulted) (hd : s.dimsLegal) (hp : s.pw * s.h ≤ s.caps.pkd) (hx : s.caps.pix < s.w * s.h) :
    command op packChecks body s = raise .dimensionOverflow 2 op s :=
  command_of_fail (k := pixCheck s) hs ((ff_pass ((dimsCheck_passes s).2 hd)).trans
    ((ff_pass ((pkdCheck_passes s).2 hp)).trans (ff_fail (pix_fails hx))))

/-- PACK or UNPACK of an image that fits both memories and has an odd width. -/
theorem fail_even (hs : ¬ s.faulted) (hd : s.dimsLegal) (hp : s.pw * s.h ≤ s.caps.pkd) (hx : s.w * s.h ≤ s.caps.pix)
    (hodd : s.w % 2 = 1) : command op packChecks body s = raise .unsupportedPixelWidth 0 op s :=
  command_of_fail (k := evenCheck s) hs ((ff_pass ((dimsCheck_passes s).2 hd)).trans
    ((ff_pass ((pkdCheck_passes s).2 hp)).trans ((ff_pass ((pixCheck_passes s).2 hx)).trans (ff_fail (even_fails hodd)))))

end Refusals

/-- Settles O19: the check on the width is the last of PACK's and UNPACK's. -/
theorem oddWidthTraps : Obligations.OddWidthTraps := fun _ hs hd hp hx hodd =>
  ⟨congrArg Host.Outcome.next (fail_even hs hd hp hx hodd), congrArg Host.Outcome.next (fail_even hs hd hp hx hodd)⟩

/-- The arm of each reserved opcode is `reservedCmd` of that opcode. -/
theorem exec_decodeCommand_reserved {v : Nat} (s : State) (hlow : 0xA ≤ v % 16) (hhigh : v % 16 ≤ 0xE) :
    exec (decodeCommand v) s = .next (reservedCmd (v % 16) s) := by
  rw [← decodeCommand_mod]
  generalize v % 16 = op at hlow hhigh ⊢
  interval_cases op <;> rfl

/-- Settles O20: a reserved opcode is its one `raise`, and the check of the arguments comes after the image's. -/
theorem argumentTraps : Obligations.ArgumentTraps := by
  refine ⟨fun s v rest hs hlow hhigh => ?_, fun s hs hlen => congrArg Host.Outcome.next (hdrRdCmd_of_strLen_out hs hlen),
    fun s hs hd hp => ⟨fun harg => ?_, fun harg => ?_, fun harg => ?_⟩⟩
  · have hstep : step { s with host := .regWrite 0x0 v :: rest } =
        .next (raise .illegalCommand 0 (v % 16) { s with host := rest }) :=
      (exec_decodeCommand_reserved { s with host := rest } hlow hhigh).trans (congrArg _ (reserved_step hs))
    exact ⟨_, hstep, rfl, faultWord_code _ _ _, faultWord_sub _ _ (by decide), faultWord_stage _ _ (by omega)⟩
  · exact congrArg Host.Outcome.next (fail_arg hs hd hp (decide_eq_true harg))
  · exact congrArg Host.Outcome.next (fail_arg hs hd hp (decide_eq_true harg))
  · exact congrArg Host.Outcome.next (runFindCmd_of_cursor_out hs hd hp harg)

/-! ### DimensionOverflow is raised in start checks only (R164) -/

theorem faultCode_raise (f : FaultCode) (sub op : Nat) (s : State) : (raise f sub op s).faultCode = faultNumber f :=
  faultWord_code f sub op

theorem faultNumber_eq_three {f : FaultCode} : faultNumber f = 3 ↔ f = .dimensionOverflow := by
  cases f <;> decide

/-- `t` does not end with `DimensionOverflow` recorded. -/
def DimensionFree (t : State) : Prop :=
  t.faulted → t.faultCode ≠ 3

theorem dimensionFree_raise {f : FaultCode} (sub op : Nat) (s : State) (hf : f ≠ .dimensionOverflow) :
    DimensionFree (raise f sub op s) := by
  intro _
  rw [faultCode_raise]
  exact fun h => hf (faultNumber_eq_three.1 h)

theorem dimensionFree_finish (s : State) : DimensionFree (finish s) :=
  fun h => absurd h stDone_ne_stFaulted

theorem KeptOrRaised.dimensionFree {op : Nat} {s t : State} (h : KeptOrRaised op s t) (hs : ¬ s.faulted) :
    DimensionFree t := by
  intro ht
  rcases h with ⟨hstatus, -⟩ | ⟨f, sub, -, -, hfault, hf⟩
  · exact absurd (hstatus.symm.trans ht) hs
  · rw [State.faultCode, hfault, faultWord_code]
    exact fun h => hf (faultNumber_eq_three.1 h)

theorem rleDecBody_dimensionFree {s : State} (hs : ¬ s.faulted) : DimensionFree (rleDecBody s) := by
  have hloop := (decodeLoop_rec (s.slen - s.pos + 1) (homed s)).dimensionFree hs
  unfold rleDecBody decodeEnd
  split
  · exact hloop
  · split
    · exact dimensionFree_raise _ _ _ (by decide)
    · exact dimensionFree_finish _

theorem rleEncBody_dimensionFree {s : State} (hs : ¬ s.faulted) : DimensionFree (rleEncBody s) := by
  have hrows := (encodeRows_rec s.h (homed s)).dimensionFree hs
  unfold rleEncBody encodeEnd
  split
  · exact hrows
  · exact dimensionFree_finish _

section DimensionSubCodes

variable {op : Nat} {checks : State → List Check} {body : State → State} {s : State}

/-- A command that ends with code 3 was refused by one of its own dimension checks. -/
theorem command_dimensionOverflow (hs : ¬ s.faulted) (hbody : DimensionFree (body s))
    (ht : (command op checks body s).faulted) (h3 : (command op checks body s).faultCode = 3) :
    ∃ k ∈ checks s, k.code = .dimensionOverflow ∧ command op checks body s = raise .dimensionOverflow k.sub op s := by
  rcases command_cases op checks body s with ⟨h, -⟩ | ⟨-, k, hk, -, h⟩ | ⟨-, -, h⟩
  · exact absurd h hs
  · rw [h, faultCode_raise] at h3
    have hcode := faultNumber_eq_three.1 h3
    exact ⟨k, hk, hcode, by rw [h, hcode]⟩
  · rw [h] at ht h3
    exact absurd h3 (hbody ht)

/-- The sub-code is at most that of the command's last dimension check. -/
theorem command_dimensionOverflow_sub_le {n : Nat} (hn : n < 16)
    (hchecks : ∀ k ∈ checks s, k.code = .dimensionOverflow → k.sub ≤ n) (hs : ¬ s.faulted) (hbody : DimensionFree (body s))
    (ht : (command op checks body s).faulted) (h3 : (command op checks body s).faultCode = 3) :
    (command op checks body s).faultSub ≤ n := by
  obtain ⟨k, hk, hcode, h⟩ := command_dimensionOverflow hs hbody ht h3
  have hsub := hchecks k hk hcode
  rw [h]
  exact (faultWord_sub _ op (by omega)).trans_le hsub

/-- RLE_DEC, RLE_ENC and RUNFIND check the dimensions and PKD. -/
theorem image_command_sub_le {bad : State → Bool} (hs : ¬ s.faulted) (hbody : DimensionFree (body s)) :
    let t := command op (fun s => [dimsCheck s, pkdCheck s, argCheck (bad s)]) body s
    t.faulted → t.faultCode = 3 → t.faultSub ≤ 1 :=
  command_dimensionOverflow_sub_le (by decide) (by simp [dimsCheck, pkdCheck, argCheck]) hs hbody

/-- PACK and UNPACK check the dimensions, PKD and PIX. -/
theorem pack_command_sub_le (hs : ¬ s.faulted) (hbody : DimensionFree (body s)) :
    (command op packChecks body s).faulted → (command op packChecks body s).faultCode = 3 →
      (command op packChecks body s).faultSub ≤ 2 :=
  command_dimensionOverflow_sub_le (by decide) (by simp [packChecks, dimsCheck, pkdCheck, pixCheck, evenCheck]) hs hbody

end DimensionSubCodes

theorem hdrWrCmd_sub_eq_zero {s : State} (hs : ¬ s.faulted) (ht : (hdrWrCmd s).faulted) (h3 : (hdrWrCmd s).faultCode = 3) :
    (hdrWrCmd s).faultSub = 0 :=
  Nat.le_zero.1 (command_dimensionOverflow_sub_le (by decide) (by simp [dimsCheck, headerRoomCheck]) hs
    (dimensionFree_finish _) ht h3)

/-- HDR_RD makes no dimension check. -/
theorem hdrRdCmd_dimensionFree {s : State} (hs : ¬ s.faulted) : DimensionFree (hdrRdCmd s) := by
  intro ht h3
  obtain ⟨k, hk, hcode, -⟩ := command_dimensionOverflow hs (by exact dimensionFree_finish _) ht h3
  simp only [List.mem_cons, List.not_mem_nil, or_false] at hk
  rcases hk with rfl | rfl <;> cases hcode

/-- Settles O18: the refusals by the first failing check, and the sub-codes by the checks that each command makes. -/
theorem dimensionTraps : Obligations.DimensionTraps := by
  refine ⟨fun s hs hd => ?_, fun s hs hd hp => ?_, fun s hs hd hp hx => ?_, fun i s t hs h ht h3 => ?_⟩
  · have hrefuse : ∀ {op body} {ks : State → List Check},
        (.next (command op (fun s => dimsCheck s :: ks s) body s) : Outcome) = .next (raise .dimensionOverflow 0 op s) :=
      congrArg _ (fail_dims hs hd)
    exact ⟨hrefuse, hrefuse, hrefuse, hrefuse, hrefuse, hrefuse⟩
  · have hrefuse : ∀ {op body} {ks : State → List Check},
        (.next (command op (fun s => dimsCheck s :: pkdCheck s :: ks s) body s) : Outcome) = .next (raise .dimensionOverflow 1 op s) :=
      congrArg _ (fail_pkd hs hd hp)
    exact ⟨hrefuse, hrefuse, hrefuse, hrefuse, hrefuse⟩
  · exact ⟨congrArg Host.Outcome.next (fail_pix hs hd hp hx), congrArg Host.Outcome.next (fail_pix hs hd hp hx)⟩
  · refine ⟨?_, ?_, ?_, ?_, ?_, ?_⟩
    · rintro rfl
      obtain rfl := next_inj h
      exact hdrWrCmd_sub_eq_zero hs ht h3
    · rintro (rfl | rfl | rfl) <;> obtain rfl := next_inj h
      · exact image_command_sub_le hs (rleDecBody_dimensionFree hs) ht h3
      · exact image_command_sub_le hs (rleEncBody_dimensionFree hs) ht h3
      · exact image_command_sub_le hs (dimensionFree_finish _) ht h3
    · rintro (rfl | rfl) <;> obtain rfl := next_inj h
      · exact pack_command_sub_le hs (dimensionFree_finish _) ht h3
      · exact pack_command_sub_le hs (dimensionFree_finish _) ht h3
    · rintro rfl
      obtain rfl := next_inj h
      exact hdrRdCmd_dimensionFree hs ht h3
    · rintro rfl
      obtain rfl := next_inj h
      exact hs ht
    · rintro rfl
      obtain rfl := next_inj h
      exact stIdle_ne_stFaulted ht

end Sys2Proof.Machine

/-! # Proofs: reset and hazards

The four commands that work through an image leave ROW past its last row (`ImageDone`), where RUNFIND's check of its arguments
fails; RLE_DEC also leaves STR_POS at the end of the stream, so the loop of a second RLE_DEC makes no turn. -/

namespace Sys2Proof.Machine

/-! ### The two reset events (70_reset_and_hazards.md R185) -/

/-- Settles O14: both events are `resetRegisters` at the state without the action, and its effect is RESET's (O13). -/
theorem resetEvents : Obligations.ResetEvents := by
  intro s rest
  have hsame : step { s with host := .hardReset :: rest } = exec .reset { s with host := rest } := step_host_cons s .hardReset rest
  obtain ⟨t, hexec, hstatus, hfault, hctrl, hwidth, hheight, hstrLen, hstrPos, hrow, hcol, hrfLen, hrfPos, hstr, hpkd, hpix, -⟩ :=
    resetCommand.1 { s with host := rest }
  exact ⟨hsame, t, hsame.trans hexec, hstatus, hfault, hctrl, hwidth, hheight, hstrLen, hstrPos, hrow, hcol, hrfLen, hrfPos,
    hstr, hpkd, hpix⟩

/-! ### Stale cursors (70_reset_and_hazards.md R191) -/

/-- `t` is what a command that worked through the image of `s` leaves: the image is legal, its registers stand, and ROW is past
its last row. -/
structure ImageDone (s t : State) : Prop where
  dims : s.dimsLegal
  fits : s.pw * s.h ≤ s.caps.pkd
  width : t.width = s.width
  height : t.height = s.height
  caps : t.caps = s.caps
  row : t.row = s.height

theorem imageDone_rleDecCmd {s : State} (hs : ¬ s.faulted) (ht : ¬ (rleDecCmd s).faulted) : ImageDone s (rleDecCmd s) := by
  have h := decReady_of_done hs ht
  obtain ⟨d, hi⟩ := image_of_rleDecCmd h ht
  obtain ⟨code, len, val, hcmd⟩ := rleDecCmd_of_image h hi
  obtain ⟨-, hd, hp, -⟩ := h
  rw [hcmd]
  exact ⟨hd, hp, rfl, rfl, rfl, rfl⟩

theorem imageDone_rleEncCmd {s : State} (hcap : s.caps.str < 2 ^ 33) (hs : ¬ s.faulted) (ht : ¬ (rleEncCmd s).faulted) :
    ImageDone s (rleEncCmd s) := by
  have h := encReady_of_done hs ht
  obtain ⟨rfLen, rfPos, hcmd⟩ := rleEncCmd_of_fits h hcap (fits_of_rleEncCmd h hcap ht)
  obtain ⟨-, hd, hp, -⟩ := h
  rw [hcmd]
  exact ⟨hd, hp, rfl, rfl, rfl, rfl⟩

theorem imageDone_packCmd {s : State} (hs : ¬ s.faulted) (ht : ¬ (packCmd s).faulted) : ImageDone s (packCmd s) := by
  have h := packReady_of_done hs ht
  rw [packCmd_body h]
  obtain ⟨-, hd, hp, -⟩ := h
  exact ⟨hd, hp, rfl, rfl, rfl, rfl⟩

theorem imageDone_unpackCmd {s : State} (hs : ¬ s.faulted) (ht : ¬ (unpackCmd s).faulted) : ImageDone s (unpackCmd s) := by
  have h := packReady_of_done hs ht
  rw [unpackCmd_body h]
  obtain ⟨-, hd, hp, -⟩ := h
  exact ⟨hd, hp, rfl, rfl, rfl, rfl⟩

theorem ImageDone.of_exec {i : Instr} {s t : State} (hi : i = .rleDec ∨ i = .rleEnc ∨ i = .pack ∨ i = .unpack)
    (hcaps : s.caps.legal) (hs : ¬ s.faulted) (hexec : exec i s = .next t) (ht : ¬ t.faulted) : ImageDone s t := by
  obtain ⟨-, hcap, -⟩ := hcaps
  rcases hi with rfl | rfl | rfl | rfl <;> obtain rfl := next_inj hexec
  · exact imageDone_rleDecCmd hs ht
  · exact imageDone_rleEncCmd hcap hs ht
  · exact imageDone_packCmd hs ht
  · exact imageDone_unpackCmd hs ht

section ImageDone

variable {s t : State} (h : ImageDone s t)
include h

/-- The dimension checks of `s` pass in `t` too. -/
theorem ImageDone.checks : t.dimsLegal ∧ t.pw * t.h ≤ t.caps.pkd := by
  unfold State.dimsLegal State.pw State.w State.h
  rw [h.width, h.height, h.caps]
  exact ⟨h.dims, h.fits⟩

theorem ImageDone.r_eq_h : t.r = t.h :=
  congrArg BitVec.toNat (h.row.trans h.height.symm)

/-- RUNFIND finds no row at ROW. -/
theorem ImageDone.exec_runFind (ht : ¬ t.faulted) : exec .runFind t = .next (t.withFault 0x716#12) := by
  obtain ⟨hd, hp⟩ := h.checks
  exact (runFindCommand t ht).2.2.1 hd hp (.inl h.r_eq_h.ge)

end ImageDone

/-- RLE_DEC that completes leaves its own start checks passing, on an exhausted stream. -/
theorem rleDecCmd_exhausted {s : State} (hs : ¬ s.faulted) (ht : ¬ (rleDecCmd s).faulted) :
    (rleDecCmd s).decReady ∧ (rleDecCmd s).pos = (rleDecCmd s).slen := by
  have h := decReady_of_done hs ht
  obtain ⟨d, hi⟩ := image_of_rleDecCmd h ht
  obtain ⟨code, len, val, hcmd⟩ := rleDecCmd_of_image h hi
  obtain ⟨-, hd, hp, hlen, -⟩ := h
  rw [hcmd]
  exact ⟨⟨stDone_ne_stFaulted, hd, hp, hlen, le_rfl⟩, rfl⟩

/-- On an exhausted stream RLE_DEC reads no token and misses every row (40_rle_decoder.md R85). -/
theorem rleDecCmd_of_exhausted {s : State} (h : s.decReady) (hend : s.pos = s.slen) :
    rleDecCmd s = raise .corruptStream 1 0x3 (homed s) := by
  have ⟨hs, ⟨_, _, hh, _⟩, _⟩ := h
  have hend : (homed s).pos = (homed s).slen := hend
  have hmissing : (homed s).r ≠ (homed s).h := fun hr : 0 = s.h => by omega
  rw [rleDecCmd_body h, rleDecBody, decodeLoop_stop (.inr hend)]
  exact decodeEnd_of_missing_rows hs hmissing

/-- Settles O49: ROW stands past the last row and, after RLE_DEC, STR_POS at the end of the stream. -/
theorem staleCursors : Obligations.StaleCursors := by
  refine ⟨fun i s t hi hcaps hs hexec ht => ?_, fun s t hs hexec ht => ?_⟩
  · have hdone := ImageDone.of_exec hi hcaps hs hexec ht
    exact ⟨hdone.r_eq_h, hdone.width, hdone.height, hdone.exec_runFind ht⟩
  · obtain rfl : rleDecCmd s = t := next_inj hexec
    obtain ⟨hready, hend⟩ := rleDecCmd_exhausted hs ht
    exact exec_rleDec (rleDecCmd_of_exhausted hready hend)

end Sys2Proof.Machine
